-- ==== Sys2Proof/Word.lean ====
section
/-! DEFINITION. The words of the block (00_scope.md R8, R11): bytes, 24-bit addresses, 16-bit lengths. A single line level is a
`Bool`, `true` for level 1. -/

namespace Sys2Proof

/-- A data byte, the shift register, a status byte (DATA_BITS = 8). -/
abbrev Byte := BitVec 8

/-- An address operand (ADDR_BITS = 24). -/
abbrev Addr := BitVec 24

/-- A length operand (LEN_BITS = 16). -/
abbrev Len := BitVec 16

end Sys2Proof
end

