-- ==== Sys2Proof/Config.lean ====
section
/-! DEFINITION. What an implementation fixes (00_scope.md R8) and the free values: the constants without a body are the values
the spec leaves open, and nothing can be proved of which value they are. -/

namespace Sys2Proof

/-- What EraseBlock and WriteStatus do between their middle frame and their WriteDisable (R8 `ERASE_WAIT`, `WRSR_WAIT`, R193). -/
inductive WaitMode where
  | none
  | waitUntilReady
  | pollStatus
  deriving DecidableEq, Repr, Inhabited

/-- The OPEN parameters of R8, the premise of 20_memory.md R75, the erase granule, and the delay constants. A State holds one such
record and no step changes it, so a claim either fixes a parameter as a premise or holds for all its values. -/
structure Params where
  /-- POLL_LIMIT: `none` waits for ever; `some k` is the limit L = k + 1 (R8 asks L >= 1). -/
  extraPolls : Option Nat
  /-- READY_LEVEL: the DO level a raw poll takes as "not busy". -/
  readyLevel : Bool
  /-- WEL_BIT less one: WEL_BIT is 1 to 7. -/
  welIndex : Fin 7
  eraseWait : WaitMode
  wrsrWait : WaitMode
  /-- The premise of R75: in the raw poll DO shows BUSY. When false, DO is a draw there. -/
  rawPollShowsBusy : Bool
  /-- BLOCK_SIZE is 2 ^ `blockLog`: a block is the addresses that differ in their low bits alone (20_memory.md R65), and lies inside
  the array. 43_composite_commands.md R191 keeps it a parameter. -/
  blockLog : Fin 23
  /-- T_BIT. No rule depends on it (70_reset_and_hazards.md R254), and the event `DelayShort` does not carry it. -/
  tBit : Nat
  tSelect : Nat
  tDeselect : Nat
  tProgram : Nat
  deriving DecidableEq, Repr

/-- POLL_LIMIT: `none`, or `some L` with L >= 1. -/
def Params.pollLimit (p : Params) : Option Nat := p.extraPolls.map (· + 1)

/-- WEL_BIT, 1 to 7. -/
def Params.welBit (p : Params) : Nat := p.welIndex.val + 1

/-- BLOCK_SIZE (R8), the erase granule. -/
def Params.blockSize (p : Params) : Nat := 2 ^ p.blockLog.val

/-- What another bus master leaves behind in DEV (20_memory.md R93): the array bytes it wrote, in order, and the rest of DEV's
state, with the events left of a busy cycle it started. -/
structure Visit where
  writes : List (Nat × Byte)
  busy : Bool
  wel : Bool
  srx : Byte
  left : Option Nat
  deriving DecidableEq, Repr, Inhabited

namespace Config

/-- FLASH_SIZE (R8). -/
def flashSize : Nat := 0x400000

/-- BLOCK_SIZE = 256 = 2 ^ 8, the source's value (R8). -/
def blockLog : Fin 23 := 8

/-- "nominally 10 microseconds" (R8, 70_reset_and_hazards.md R253). -/
def nominalDelay : Nat := 10

opaque extraPolls : Option Nat
opaque readyLevel : Bool
opaque welIndex : Fin 7
opaque eraseWait : WaitMode
opaque wrsrWait : WaitMode
opaque rawPollShowsBusy : Bool
opaque tBit : Nat

/-- The parameters of the machine that `State.reset` describes: the OPEN ones are uninterpreted. -/
def params : Params where
  extraPolls := extraPolls
  readyLevel := readyLevel
  welIndex := welIndex
  eraseWait := eraseWait
  wrsrWait := wrsrWait
  rawPollShowsBusy := rawPollShowsBusy
  blockLog := blockLog
  tBit := tBit
  tSelect := nominalDelay
  tDeselect := nominalDelay
  tProgram := nominalDelay

/-- The n-th DO level that the contract leaves unspecified (20_memory.md R73, R82, R87). -/
opaque freeLevel : Nat → Bool

/-- The n-th draw of the uninterpreted status bits, from a device that holds the given SRX (10_state.md R39). -/
opaque freeSrx : Byte → Nat → Byte

/-- SRX after an accepted status write of the given byte (20_memory.md R78). -/
opaque freeSrxAfterWrite : Byte → Nat → Byte

/-- How many SEQ events pass before the n-th busy cycle completes, `none` for never (20_memory.md R84). -/
opaque freeLatency : Nat → Option Nat

/-- What another master does to DEV at the n-th release of the bus, `none` for nothing (20_memory.md R93). -/
opaque freeVisit : Nat → Option Visit

/-- The array byte at an address nothing has written since reset (10_state.md R50, the MEM row). -/
opaque bootFlash : Nat → Byte

/-- The array byte that a program or erase at an address at or above FLASH_SIZE reaches, `none` for no byte: the contract names
none (20_memory.md R69). -/
opaque outsideTarget : Addr → Nat → Option (BitVec 22)

/-- PROGRAM_FN over old content that is not 0xFF (R8, 20_memory.md R80). -/
opaque programOver : Byte → Byte → Byte

end Config

end Sys2Proof
end

