-- ==== Sys2Proof/Syntax.lean ====
section
/-! DEFINITION. The 16 operations (00_scope.md R4, 30_encoding.md R111), the command as HOST presents it at the port
(10_state.md R40), and the eight frames of the wire (30_encoding.md R101, R106). -/

namespace Sys2Proof

/-- The names of the 16 operations, as OPR holds them (10_state.md R36). -/
inductive Op where
  | select | deselect | sendByte | receiveByte | receiveBytes
  | init | disable
  | readStatus | waitUntilReady | writeEnable | writeDisable
  | readBlock | writeByte
  | writeStatus | eraseBlock | writeBlock
  deriving DecidableEq, Repr

/-- A reference to a HOST buffer (10_state.md R40, R43): its position among HOST's buffers. -/
abbrev BufRef := Nat

/-- A command with its typed operands: one constructor per row of spec/opcode_table.json (10_state.md R40). -/
inductive Instr where
  | select
  | deselect
  | sendByte (value : Byte)
  | receiveByte
  | receiveBytes (count : Len) (buf : BufRef)
  | init
  | disable
  | readStatus
  | waitUntilReady
  | writeEnable
  | writeDisable
  | readBlock (addr : Addr) (n : Len) (buf : BufRef)
  | writeByte (addr : Addr) (value : Byte)
  | writeStatus (value : Byte)
  | eraseBlock (addr : Addr)
  | writeBlock (addr : Addr) (buf : BufRef) (n : Len)
  deriving DecidableEq, Repr

/-- The kinds of operand a command may take. -/
inductive Operand where
  | address | length | value | buffer
  deriving DecidableEq, Repr

/-- A command as HOST writes it at the port, before its operands are checked against their widths (30_encoding.md R109). -/
structure Presented where
  op : Op
  address : Option Nat := none
  length : Option Nat := none
  value : Option Nat := none
  buffer : Option Nat := none
  deriving DecidableEq, Repr

/-- The frames of the wire (30_encoding.md R106), one per row of its table. -/
inductive FrameCmd where
  | readStatus
  | rawPoll
  | writeEnable
  | writeDisable
  | writeStatus (value : Byte)
  | read (addr : Addr) (n : Len)
  | program (addr : Addr) (value : Byte)
  | erase (addr : Addr)
  deriving DecidableEq, Repr

/-- The operation an instruction is. -/
def Instr.op : Instr → Op
  | .select => .select
  | .deselect => .deselect
  | .sendByte _ => .sendByte
  | .receiveByte => .receiveByte
  | .receiveBytes _ _ => .receiveBytes
  | .init => .init
  | .disable => .disable
  | .readStatus => .readStatus
  | .waitUntilReady => .waitUntilReady
  | .writeEnable => .writeEnable
  | .writeDisable => .writeDisable
  | .readBlock _ _ _ => .readBlock
  | .writeByte _ _ => .writeByte
  | .writeStatus _ => .writeStatus
  | .eraseBlock _ => .eraseBlock
  | .writeBlock _ _ _ => .writeBlock

/-- The five bus primitives, which HOST must pair itself (70_reset_and_hazards.md R246). -/
def Op.isPrimitive : Op → Bool
  | .select | .deselect | .sendByte | .receiveByte | .receiveBytes => true
  | _ => false

end Sys2Proof
end

