-- ==== Sys2Proof/WellFormed.lean ====
section
/-! DEFINITION. What may be written at the command port (30_encoding.md R109): a command carries exactly the operands its operation
takes (R111), each within its width; and a buffer it names is long enough (70_reset_and_hazards.md R251). -/

namespace Sys2Proof

/-- The operands each operation takes (30_encoding.md R111, R134, R192). -/
def Op.takes : Op → List Operand
  | .sendByte | .writeStatus => [.value]
  | .receiveBytes => [.length, .buffer]
  | .readBlock | .writeBlock => [.address, .length, .buffer]
  | .writeByte => [.address, .value]
  | .eraseBlock => [.address]
  | _ => []

/-- Whether a number fits an operand: 24, 16 and 8 bits; a buffer reference has no width. -/
def Operand.fits : Operand → Nat → Bool
  | .address, v => v < 2 ^ 24
  | .length, v => v < 2 ^ 16
  | .value, v => v < 2 ^ 8
  | .buffer, _ => true

/-- The operand of a kind that a presented command carries. -/
def Presented.get (p : Presented) : Operand → Option Nat
  | .address => p.address
  | .length => p.length
  | .value => p.value
  | .buffer => p.buffer

/-- One operand is present exactly where the operation takes it, and fits. -/
def Presented.operandOk (p : Presented) (o : Operand) : Bool :=
  match p.get o with
  | none => !p.op.takes.contains o
  | some v => p.op.takes.contains o && o.fits v

/-- The check of the command port (R109). -/
def Presented.wellFormed (p : Presented) : Bool :=
  p.operandOk .address && p.operandOk .length && p.operandOk .value && p.operandOk .buffer

/-- How many bytes of which buffer a command uses (R134, R170, R192). -/
def Instr.bufferUse : Instr → Option (BufRef × Nat)
  | .receiveBytes count buf => some (buf, count.toNat)
  | .readBlock _ n buf => some (buf, n.toNat)
  | .writeBlock _ buf n => some (buf, n.toNat)
  | _ => none

/-- The bytes of the buffer a reference names; no reference, or one that names no buffer, has none (10_state.md R43). -/
def bufferOf (bufs : List (List Byte)) (r : Option BufRef) : List Byte := (r.bind fun k => bufs[k]?).getD []

/-- How many bytes that buffer holds. -/
def bufferRoom (bufs : List (List Byte)) (r : Option BufRef) : Nat := (bufferOf bufs r).length

/-- The buffer a command names has room for the bytes it uses: "a buffer shorter than n is refused at the model's boundary"
(R251). -/
def Instr.wellFormed (bufs : List (List Byte)) (i : Instr) : Bool :=
  match i.bufferUse with
  | none => true
  | some (r, n) => n ≤ bufferRoom bufs r

end Sys2Proof
end

