-- ==== Sys2Proof/Decode.lean ====
section
/-! DEFINITION. Decoding and encoding, at both ends of the block. The command port (10_state.md R40, 30_encoding.md R109): `decode`,
`encode`. The wire (30_encoding.md R100 to R107): `decodeFrame`, `encodeFrame`, which DEV itself uses when CS rises. Bit order and
byte order are settled here (20_memory.md R60, R61). -/

namespace Sys2Proof

/-! ### Bits and bytes -/

/-- The shift register taking in one bit at bit 0 (10_state.md R25). -/
def shiftIn (b : Byte) (x : Bool) : Byte := (b <<< 1) ||| (if x then 1 else 0)

/-- A byte from its bits, the first one most significant (20_memory.md R60). -/
def byteOfBits (bs : List Bool) : Byte := bs.foldl shiftIn 0

/-- The bits of a byte as they go on the wire: bit 7 first (20_memory.md R60). -/
def bitsOfByte (v : Byte) : List Bool :=
  [v.getLsbD 7, v.getLsbD 6, v.getLsbD 5, v.getLsbD 4, v.getLsbD 3, v.getLsbD 2, v.getLsbD 1, v.getLsbD 0]

/-- The bits of a list of bytes, in wire order (30_encoding.md R102). -/
def bitsOfBytes (vs : List Byte) : List Bool := vs.flatMap bitsOfByte

/-- The bytes that a list of bits is, or `none` when the last byte is cut short. -/
def bytesOfBits : List Bool → Option (List Byte)
  | [] => some []
  | a :: b :: c :: d :: e :: f :: g :: h :: rest => (bytesOfBits rest).map (byteOfBits [a, b, c, d, e, f, g, h] :: ·)
  | _ => none

/-- The three address bytes, ADDR[23:16], ADDR[15:8], ADDR[7:0], in the order they are sent (20_memory.md R61, 30_encoding.md
R103). -/
def addrBytes (a : Addr) : List Byte := [a.extractLsb' 16 8, a.extractLsb' 8 8, a.extractLsb' 0 8]

/-- The address DEV rebuilds from three bytes: {a2, a1, a0} (30_encoding.md R103). -/
def addrOfBytes (a2 a1 a0 : Byte) : Addr := a2 ++ a1 ++ a0

/-! ### The command port -/

/-- Why a presented command is refused at the boundary (30_encoding.md R109). -/
inductive DecodeError where
  | missing (o : Operand)
  | notTaken (o : Operand)
  | tooWide (o : Operand)
  deriving DecidableEq, Repr

/-- An operand of `w` bits. -/
def Presented.field (p : Presented) (o : Operand) (w : Nat) : Except DecodeError (BitVec w) :=
  match p.get o with
  | none => .error (.missing o)
  | some v => if v < 2 ^ w then .ok (BitVec.ofNat w v) else .error (.tooWide o)

/-- The buffer reference. -/
def Presented.bufferRef (p : Presented) : Except DecodeError BufRef :=
  match p.buffer with
  | none => .error (.missing .buffer)
  | some r => .ok r

/-- An operand the operation does not take. -/
def Presented.extra (p : Presented) : Option Operand :=
  [Operand.address, .length, .value, .buffer].find? fun o => (p.get o).isSome && !p.op.takes.contains o

/-- The instruction a presented command is, or why it is none (R109, R111). -/
def decode (p : Presented) : Except DecodeError Instr :=
  match p.extra with
  | some o => .error (.notTaken o)
  | none =>
    match p.op with
    | .select => .ok .select
    | .deselect => .ok .deselect
    | .sendByte => do return .sendByte (← p.field .value 8)
    | .receiveByte => .ok .receiveByte
    | .receiveBytes => do return .receiveBytes (← p.field .length 16) (← p.bufferRef)
    | .init => .ok .init
    | .disable => .ok .disable
    | .readStatus => .ok .readStatus
    | .waitUntilReady => .ok .waitUntilReady
    | .writeEnable => .ok .writeEnable
    | .writeDisable => .ok .writeDisable
    | .readBlock => do return .readBlock (← p.field .address 24) (← p.field .length 16) (← p.bufferRef)
    | .writeByte => do return .writeByte (← p.field .address 24) (← p.field .value 8)
    | .writeStatus => do return .writeStatus (← p.field .value 8)
    | .eraseBlock => do return .eraseBlock (← p.field .address 24)
    | .writeBlock => do return .writeBlock (← p.field .address 24) (← p.bufferRef) (← p.field .length 16)

/-- How HOST writes an instruction at the port (R111). -/
def encode : Instr → Presented
  | .select => { op := .select }
  | .deselect => { op := .deselect }
  | .sendByte v => { op := .sendByte, value := some v.toNat }
  | .receiveByte => { op := .receiveByte }
  | .receiveBytes n r => { op := .receiveBytes, length := some n.toNat, buffer := some r }
  | .init => { op := .init }
  | .disable => { op := .disable }
  | .readStatus => { op := .readStatus }
  | .waitUntilReady => { op := .waitUntilReady }
  | .writeEnable => { op := .writeEnable }
  | .writeDisable => { op := .writeDisable }
  | .readBlock a n r => { op := .readBlock, address := some a.toNat, length := some n.toNat, buffer := some r }
  | .writeByte a v => { op := .writeByte, address := some a.toNat, value := some v.toNat }
  | .writeStatus v => { op := .writeStatus, value := some v.toNat }
  | .eraseBlock a => { op := .eraseBlock, address := some a.toNat }
  | .writeBlock a r n => { op := .writeBlock, address := some a.toNat, length := some n.toNat, buffer := some r }

/-! ### The wire -/

/-- Why bytes clocked in between a select and a deselect are no frame of R101. -/
inductive FrameError where
  | empty
  | reservedOpcode (b : Byte)
  | wrongLength (opcode : Byte)
  deriving DecidableEq, Repr

/-- The opcode byte of each frame (30_encoding.md R106). -/
def FrameCmd.opcode : FrameCmd → Byte
  | .readStatus => 0x05
  | .rawPoll => 0x05
  | .writeEnable => 0x06
  | .writeDisable => 0x04
  | .writeStatus _ => 0x01
  | .read _ _ => 0x03
  | .program _ _ => 0x02
  | .erase _ => 0xD8

/-- The seven opcode bytes (R106). The other 249 are reserved (R108). -/
def isOpcode (b : Byte) : Bool := [0x05, 0x06, 0x04, 0x01, 0x03, 0x02, 0xD8].contains b

/-- The opcodes whose frames have an address phase (R101). -/
def isAddressed (b : Byte) : Bool := b == 0x03 || b == 0x02 || b == 0xD8

/-- What follows opcode 0x05: nothing for the raw poll (F-OP), one byte for the status read (F-OR) (R101, R107). -/
def frameStatus : List Byte → Except FrameError FrameCmd
  | [] => .ok .rawPoll
  | [_] => .ok .readStatus
  | _ => .error (.wrongLength 0x05)

/-- Format F-O: nothing follows the opcode (R101). -/
def frameO (op : Byte) (c : FrameCmd) : List Byte → Except FrameError FrameCmd
  | [] => .ok c
  | _ => .error (.wrongLength op)

/-- Format F-OW: one data byte (R101). -/
def frameOW : List Byte → Except FrameError FrameCmd
  | [d] => .ok (.writeStatus d)
  | _ => .error (.wrongLength 0x01)

/-- Format F-OA: three address bytes (R101). -/
def frameOA : List Byte → Except FrameError FrameCmd
  | [a2, a1, a0] => .ok (.erase (addrOfBytes a2 a1 a0))
  | _ => .error (.wrongLength 0xD8)

/-- Format F-OAW: three address bytes and one data byte (R101). -/
def frameOAW : List Byte → Except FrameError FrameCmd
  | [a2, a1, a0, d] => .ok (.program (addrOfBytes a2 a1 a0) d)
  | _ => .error (.wrongLength 0x02)

/-- Format F-OAR: three address bytes and 0 to 65535 bytes clocked out (R101). -/
def frameOAR : List Byte → Except FrameError FrameCmd
  | a2 :: a1 :: a0 :: more =>
    if more.length < 2 ^ 16 then .ok (.read (addrOfBytes a2 a1 a0) (BitVec.ofNat 16 more.length))
    else .error (.wrongLength 0x03)
  | _ => .error (.wrongLength 0x03)

/-- The frame that the bytes clocked in from select to deselect are, total on any bytes (R101, R106). -/
def decodeFrame : List Byte → Except FrameError FrameCmd
  | [] => .error .empty
  | op :: rest =>
    if op = 0x05 then frameStatus rest
    else if op = 0x06 then frameO 0x06 .writeEnable rest
    else if op = 0x04 then frameO 0x04 .writeDisable rest
    else if op = 0x01 then frameOW rest
    else if op = 0x03 then frameOAR rest
    else if op = 0x02 then frameOAW rest
    else if op = 0xD8 then frameOA rest
    else .error (.reservedOpcode op)

/-- The byte DEV clocks in while SEQ receives: DI keeps the last bit sent (10_state.md R22). -/
def heldByte (b : Bool) : Byte := if b then 0xFF else 0x00

/-- The bytes on DI, from select to deselect, of each frame (R101, R103, R104). -/
def encodeFrame : FrameCmd → List Byte
  | .readStatus => [0x05, heldByte true]
  | .rawPoll => [0x05]
  | .writeEnable => [0x06]
  | .writeDisable => [0x04]
  | .writeStatus d => [0x01, d]
  | .read a n => 0x03 :: (addrBytes a ++ List.replicate n.toNat (heldByte (a.getLsbD 0)))
  | .program a d => 0x02 :: (addrBytes a ++ [d])
  | .erase a => 0xD8 :: addrBytes a

/-- The frame DEV has clocked in, bit by bit (20_memory.md R72); `none` when it is no frame of R101. -/
def frameOfBits (bits : List Bool) : Option FrameCmd :=
  match bytesOfBits bits with
  | none => none
  | some bytes => (decodeFrame bytes).toOption

/-! ### The words of spec/opcode_table.json -/

/-- The operation that owns a frame (R106). What the wire does not carry, the length of a read (R105) and the buffer, is 0. -/
def FrameCmd.toInstr : FrameCmd → Instr
  | .readStatus => .readStatus
  | .rawPoll => .waitUntilReady
  | .writeEnable => .writeEnable
  | .writeDisable => .writeDisable
  | .writeStatus d => .writeStatus d
  | .read a n => .readBlock a n 0
  | .program a d => .writeByte a d
  | .erase a => .eraseBlock a

/-- How many bytes a frame of this opcode has when one data byte follows a status read and none follows a read (R101). -/
def frameLength (b : Byte) : Nat :=
  if b = 0x05 ∨ b = 0x01 then 2 else if b = 0x06 ∨ b = 0x04 then 1 else if b = 0x02 then 5 else if b = 0x03 ∨ b = 0xD8 then 4 else 1

/-- Byte `k` of a word of `nbits` bits, the first byte lowest; bits past `nbits` are 0. -/
def tableByte (nbits w k : Nat) : Byte := BitVec.ofNat 8 ((w % 2 ^ nbits) / 256 ^ k)

/-- The instruction read from a table word: the bytes its opcode calls for, decoded as a frame. -/
def decodeTableWord (nbits w : Nat) : Option Instr :=
  let bytes := (List.range (frameLength (tableByte nbits w 0))).map (tableByte nbits w)
  (decodeFrame bytes).toOption.map FrameCmd.toInstr

end Sys2Proof
end

