-- ==== Sys2Proof/Machine/State.lean ====
section
/-! DEFINITION. The whole state (10_state.md section 1), the reasons a step can stop, and the state after reset (10_state.md R50,
70_reset_and_hazards.md R240, R241). -/

namespace Sys2Proof.Machine

/-- DIR (10_state.md R21). -/
inductive Dir where
  | released | master
  deriving DecidableEq, Repr

/-- The three lines SEQ drives (10_state.md R20, R22). -/
inductive Line where
  | cs | sck | di
  deriving DecidableEq, Repr

/-- PH, the sequencer position (10_state.md R34). -/
inductive Phase where
  | idle | selected | opcodeSent | addressSent | dataPhase | deselected
  deriving DecidableEq, Repr

/-- ERR, the result class of the command that last ended (10_state.md R33, 60_exceptions.md R210). -/
inductive Err where
  | ok | invalidArgument | deviceTimeout
  deriving DecidableEq, Repr

/-- The events SEQ performs on its environment (00_scope.md R7). -/
inductive Event where
  | dir (m : Dir)
  | drive (l : Line) (v : Bool)
  | sample (b : Bool)
  | delayShort
  | delayUs (t : Nat)
  deriving DecidableEq, Repr

/-- The flash array as (address, byte) pairs, addresses rising. An address not listed holds no known value: nothing has written
it since reset (10_state.md R50, the MEM row). -/
abbrev Memory := List Host.Cell

/-- DEV (20_memory.md R71). The last three fields are the transfer in progress: the status byte being answered (R74), whether
BUSY was 1 when the frame began (R82), and the events left before Complete (R84). -/
structure Dev where
  mem : Memory
  busy : Bool
  wel : Bool
  srx : Byte
  frame : List Bool
  status : Byte
  heardBusy : Bool
  left : Option Nat
  deriving DecidableEq, Repr

/-- The free values the environment supplies, in the order they are taken; once a list is used up, the uninterpreted constants of
`Config` applied to `count` supply them. These fields are the model's own. -/
structure Draws where
  levels : List Bool
  srxs : List Byte
  latencies : List (Option Nat)
  visits : List (Option Visit)
  count : Nat
  deriving DecidableEq, Repr

/-- Every piece of state the spec gives SEQ, DEV and HOST (10_state.md section 1, R43), with the trace (00_scope.md R7), the
parameters (R8) and the free values. -/
structure State where
  dir : Dir
  cs : Bool
  sck : Bool
  di : Bool
  sr : Byte
  bitcnt : BitVec 4
  addr : Addr
  len : Len
  val : Byte
  idx : Len
  pollcnt : Nat
  st : Byte
  err : Err
  ph : Phase
  opr : Option Op
  bufRef : Option BufRef
  ret : Option Byte
  dev : Dev
  commands : List Presented
  bufs : List (List Byte)
  trace : List Event
  params : Params
  draws : Draws
  deriving DecidableEq, Repr

/-- Why the machine stops with a fault: never. The block's own two faults end a command in a next state (60_exceptions.md R216,
R218), and what the spec gives no meaning is refused (00_scope.md R14). Safe. -/
inductive Fault where
  deriving DecidableEq, Repr

/-- Why a command has no meaning. All are safe: the machine stops. -/
inductive Refusal where
  /-- Raised by `exec` for an instruction not modelled yet. -/
  | notModelled (mnemonic : String)
  /-- Raised by `step` for a command whose operands the port refuses (30_encoding.md R109). -/
  | malformedCommand (e : DecodeError)
  /-- Raised by every command presented while another runs (10_state.md R36). -/
  | commandRunning
  /-- Raised by every command but `init` while DIR = Released (70_reset_and_hazards.md R242). -/
  | busReleased
  /-- Raised by a `select`, a lifecycle operation or a command-layer operation with a frame open (70_reset_and_hazards.md R246). -/
  | frameOpen
  /-- Raised by a `deselect`, a send or a receive with no frame open (70_reset_and_hazards.md R246). -/
  | noFrameOpen
  /-- Raised by a receive, and by a `deselect`, with no byte sent in its frame (40_bus_primitives.md R133,
  70_reset_and_hazards.md R246, R247). -/
  | noByteSent
  /-- Raised by a send or a receive while SCK = 1 (40_bus_primitives.md R132, R133), which no run reaches. -/
  | clockNotIdle
  /-- Raised by a command whose buffer is shorter than the bytes it uses (70_reset_and_hazards.md R251). -/
  | bufferTooShort
  /-- Raised by a `deselect` that HOST presents, closing a frame with a reserved opcode that DEV would hear (20_memory.md R86). -/
  | reservedOpcode (b : Byte)
  /-- Raised by a `deselect` that HOST presents, closing a frame that DEV would hear and that has fewer or more bits than its opcode
  takes (93_implementation_defined.md U14). -/
  | wrongFrameLength
  /-- Raised by a receive that would ask for a second status byte in one frame (20_memory.md R74, 93_implementation_defined.md
  U14). -/
  | secondStatusByte
  /-- Raised by a receive that would read past the end of the array, and by a `deselect` that closes a read frame that ran past it
  (20_memory.md R79, 93_implementation_defined.md U14). -/
  | pastArrayEnd
  /-- Raised by `step` when OPR names an operation that never waits, which no run reaches. -/
  | nothingToResume (op : Op)
  deriving DecidableEq, Repr

/-- What a command answers. -/
abbrev Result := Host.Outcome State Fault Refusal

/-- DEV at boot: ready, latch clear (the boot premise of 70_reset_and_hazards.md R241), array as it was left, no frame. -/
def Dev.reset : Dev where
  mem := []
  busy := false
  wel := false
  srx := 0
  frame := []
  status := 0
  heardBusy := false
  left := none

/-- The machine right after reset (10_state.md R50). The registers R50 leaves unspecified hold 0 (log 12). -/
def State.reset : State where
  dir := .released
  cs := false
  sck := false
  di := false
  sr := 0
  bitcnt := 0
  addr := 0
  len := 0
  val := 0
  idx := 0
  pollcnt := 0
  st := 0
  err := .ok
  ph := .idle
  opr := none
  bufRef := none
  ret := none
  dev := Dev.reset
  commands := []
  bufs := []
  trace := []
  params := Config.params
  draws := { levels := [], srxs := [], latencies := [], visits := [], count := 0 }

end Sys2Proof.Machine
end

