-- ==== Sys2Proof/Machine/Flags.lean ====
section
/-! DEFINITION. The conditions that steer the block (10_state.md R38) and the status byte that carries two of them (10_state.md R39). -/

namespace Sys2Proof.Machine

/-- The busy bit of a status byte (10_state.md R38 a, R39). -/
def busyBit (s : Byte) : Bool := s.getLsbD 0

/-- The status byte DEV answers: bit 0 BUSY, bit WEL_BIT the latch, the six other bits drawn (10_state.md R39). -/
def statusByte (p : Params) (busy wel : Bool) (drawn : Byte) : Byte :=
  let keep := drawn &&& ~~~(1#8 ||| (1#8 <<< p.welBit))
  keep ||| (if busy then 1#8 else 0#8) ||| (if wel then 1#8 <<< p.welBit else 0#8)

/-- The level of DO that shows BUSY in the raw poll, under the premise of 20_memory.md R75. -/
def rawPollLevel (p : Params) (busy : Bool) : Bool := if busy then !p.readyLevel else p.readyLevel

/-- A raw-poll sample means "not busy" (10_state.md R38 b, 41_basic_commands.md R151). -/
def showsReady (p : Params) (b : Bool) : Bool := b == p.readyLevel

/-- POLL_LIMIT = some L and POLLCNT >= L (41_basic_commands.md R151, 43_composite_commands.md R194). -/
def limitReached (p : Params) (pollcnt : Nat) : Bool :=
  match p.pollLimit with
  | none => false
  | some l => l ≤ pollcnt

end Sys2Proof.Machine
end

