-- ==== Sys2Proof/Machine/Operands.lean ====
section
/-! DEFINITION. The operand forms: the range check on an address and a length (42_data_commands.md R172), the address of a byte
of a block (30_encoding.md R113), the erase block of an address (20_memory.md R65), and the HOST buffers (10_state.md R43). -/

namespace Sys2Proof.Machine

/-- CheckRange passes (42_data_commands.md R172); sums are on natural numbers. -/
def inRange (a : Addr) (n : Nat) : Bool := a.toNat < Config.flashSize && a.toNat + n ≤ Config.flashSize

/-- ADDR + IDX, the address of a byte of a block operation (30_encoding.md R113). -/
def byteAddr (a : Addr) (i : Len) : Addr := BitVec.ofNat 24 (a.toNat + i.toNat)

/-- The first address of the erase block that holds an address (20_memory.md R65, R81). -/
def blockBase (p : Params) (a : Nat) : Nat := a - a % p.blockSize

/-- `buf[j]` of the buffer a reference names (10_state.md R43). -/
def bufferGet (bufs : List (List Byte)) (r : Option BufRef) (j : Nat) : Byte := ((bufferOf bufs r)[j]?).getD 0

/-- `buf[j] <- v`. -/
def bufferSet (bufs : List (List Byte)) (r : Option BufRef) (j : Nat) (v : Byte) : List (List Byte) :=
  match r with
  | none => bufs
  | some k => bufs.modify k (·.set j v)

end Sys2Proof.Machine
end

