-- ==== Sys2Proof/Machine/Device.lean ====
section
/-! DEFINITION. The reference contract of the flash device (20_memory.md section 5): the array, the Complete step, what a frame
does when CS rises, and the level of DO. -/

namespace Sys2Proof.Machine

/-! ### The array -/

/-- The listed byte at an address; `none` when nothing has written it since reset. -/
def Memory.get? : Memory → Nat → Option Byte
  | [], _ => none
  | (k, v) :: m, a => if k = a then some v else Memory.get? m a

/-- The memory with one byte written; addresses stay rising. -/
def Memory.set : Memory → Nat → Byte → Memory
  | [], a, v => [(a, v)]
  | (k, w) :: m, a, v =>
    if a < k then (a, v) :: (k, w) :: m else if a = k then (a, v) :: m else (k, w) :: Memory.set m a v

/-- The canonical form: addresses strictly rising, and inside the array. An unlisted address holds no known byte, so no entry can
equal what it reads as. -/
abbrev Memory.wf (m : Memory) : Prop := m.Pairwise (·.1 < ·.1) ∧ ∀ c ∈ m, c.1 < Config.flashSize

/-- `count` bytes from `base` set to 0xFF (20_memory.md R81). -/
def Memory.erase (m : Memory) (base : Nat) : Nat → Memory
  | 0 => m
  | count + 1 => (Memory.erase m base count).set (base + count) 0xFF

/-- The bytes another master wrote, in order (20_memory.md R93); addresses outside the array name no byte. -/
def Memory.writeAll (m : Memory) : List (Nat × Byte) → Memory
  | [] => m
  | (a, v) :: ws => Memory.writeAll (if a < Config.flashSize then m.set a v else m) ws

/-- MEM[a]: the byte written last, else the free value the array held at reset (10_state.md R42, R50). -/
def Dev.read (d : Dev) (a : Nat) : Byte := (d.mem.get? a).getD (Config.bootFlash a)

/-- PROGRAM_FN (00_scope.md R8, 20_memory.md R80): over 0xFF it stores the value; over anything else it is left open. -/
def programFn (old v : Byte) : Byte := if old = 0xFF then v else Config.programOver old v

/-- The array with v programmed at a byte of it, if there is one (20_memory.md R80). -/
def Dev.programmed (d : Dev) (x : Option Nat) (v : Byte) : Memory :=
  match x with
  | none => d.mem
  | some x => d.mem.set x (programFn (d.read x) v)

/-- The array with the block of a byte of it erased, if there is one (20_memory.md R81). -/
def Dev.erased (d : Dev) (p : Params) (x : Option Nat) : Memory :=
  match x with
  | none => d.mem
  | some x => d.mem.erase (blockBase p x) p.blockSize

/-! ### Complete -/

/-- DEV's own step between two events of SEQ (20_memory.md R84): a busy cycle with no event left completes; one with events left
comes one event nearer. -/
def Dev.tick (d : Dev) : Dev :=
  if d.busy then
    match d.left with
    | none => d
    | some 0 => { d with busy := false, left := none }
    | some (k + 1) => { d with left := some k }
  else d

/-! ### The free values -/

/-- The next free latency. -/
def Draws.latency (d : Draws) : Option Nat × Draws :=
  match d.latencies with
  | l :: rest => (l, { d with latencies := rest })
  | [] => (Config.freeLatency d.count, { d with count := d.count + 1 })

/-- The next free draw of the uninterpreted status bits. -/
def Draws.srx (d : Draws) (held : Byte) : Byte × Draws :=
  match d.srxs with
  | b :: rest => (b, { d with srxs := rest })
  | [] => (Config.freeSrx held d.count, { d with count := d.count + 1 })

/-- The next free DO level. -/
def Draws.level (d : Draws) : Bool × Draws :=
  match d.levels with
  | b :: rest => (b, { d with levels := rest })
  | [] => (Config.freeLevel d.count, { d with count := d.count + 1 })

/-- The byte of the array that a program or erase reaches: the one it addresses; outside the array (20_memory.md R69) the contract
names none, and which one it is, if any, is free. -/
def Draws.target (d : Draws) (a : Addr) : Option Nat × Draws :=
  if a.toNat < Config.flashSize then (some a.toNat, d)
  else ((Config.outsideTarget a d.count).map (·.toNat), { d with count := d.count + 1 })

/-- The next free visit of another master. -/
def Draws.visit (d : Draws) : Option Visit × Draws :=
  match d.visits with
  | v :: rest => (v, { d with visits := rest })
  | [] => (Config.freeVisit d.count, { d with count := d.count + 1 })

/-! ### What DEV does with the lines -/

/-- A busy cycle begins (20_memory.md R78, R80, R81); its length is free (R84). -/
def State.startBusy (s : State) : State :=
  { s with dev := { s.dev with busy := true, left := s.draws.latency.1 }, draws := s.draws.latency.2 }

/-- DEV accepts a frame: it is not busy, and for a write the latch is set (20_memory.md R76 to R78, R80 to R83). -/
def Dev.accepts (d : Dev) : FrameCmd → Bool
  | .writeEnable | .writeDisable => !d.busy
  | .writeStatus _ | .program _ _ | .erase _ => !d.busy && d.wel
  | .readStatus | .rawPoll | .read _ _ => false

/-- The effect of an accepted frame (20_memory.md R76 to R78, R80, R81). -/
def State.carryOut (s : State) : FrameCmd → State
  | .writeEnable => { s with dev := { s.dev with wel := true } }
  | .writeDisable => { s with dev := { s.dev with wel := false } }
  | .writeStatus d =>
    { s with
      dev := { s.dev with srx := Config.freeSrxAfterWrite d s.draws.count }
      draws := { s.draws with count := s.draws.count + 1 } }.startBusy
  | .program a d =>
    { s with dev := { s.dev with mem := s.dev.programmed (s.draws.target a).1 d }, draws := (s.draws.target a).2 }.startBusy
  | .erase a =>
    { s with dev := { s.dev with mem := s.dev.erased s.params (s.draws.target a).1 }, draws := (s.draws.target a).2 }.startBusy
  | .readStatus | .rawPoll | .read _ _ => s

/-- CS rises: DEV commits the frame it holds, if that is a whole frame it accepts, and empties FRAME (20_memory.md R72). -/
def State.commit (s : State) : State :=
  let t :=
    match frameOfBits s.dev.frame with
    | none => s
    | some c => if s.dev.accepts c then s.carryOut c else s
  { t with dev := { t.dev with frame := [] } }

/-- CS falls: FRAME is emptied (10_state.md R46), and DEV hears the frame as busy or not (20_memory.md R82). -/
def State.frameStart (s : State) : State := { s with dev := { s.dev with frame := [], heardBusy := s.dev.busy } }

/-- DEV takes the DI level (20_memory.md R72). -/
def State.takeBit (s : State) : State := { s with dev := { s.dev with frame := s.dev.frame ++ [s.di] } }

/-- DEV fixes the status byte it answers: "the value at the time the response starts" (20_memory.md R74). -/
def State.fixStatus (s : State) : State :=
  { s with
    dev := { s.dev with status := statusByte s.params s.dev.busy s.dev.wel (s.draws.srx s.dev.srx).1 }
    draws := (s.draws.srx s.dev.srx).2 }

/-- SCK rises while CS = 0 (20_memory.md R72): the bit is taken. At the ninth pulse of a frame with opcode 0x05 the response starts
(R74). -/
def State.clockIn (s : State) : State :=
  if s.dev.frame.length = 8 ∧ byteOfBits s.dev.frame = 0x05 then s.fixStatus.takeBit else s.takeBit

/-- DEV's reaction to a `Drive` event (20_memory.md R71, R72, R87); the latch already holds the new level. -/
def State.react (s : State) : Line → Bool → State
  | .cs, true => s.commit
  | .cs, false => s.frameStart
  | .sck, true => if s.cs then s else s.clockIn
  | .sck, false => s
  | .di, _ => s

/-- The bit of a byte that goes with pulse k of it, k = 1 to 8 (20_memory.md R73). -/
def responseBit (v : Byte) (k : Nat) : Bool := v.getLsbD (8 - k)

/-- Byte k of the frame clocked in so far. -/
def frameByte (bits : List Bool) (k : Nat) : Byte := byteOfBits ((bits.drop (8 * k)).take 8)

/-- The address DEV has clocked in: bytes 1 to 3 of the frame (20_memory.md R72). -/
def frameAddr (bits : List Bool) : Addr := addrOfBytes (frameByte bits 1) (frameByte bits 2) (frameByte bits 3)

/-- The level of DO, where the contract gives one (20_memory.md R73 to R75, R79, R82, R87); `none` where it is a draw. -/
def State.doLevel (s : State) : Option Bool :=
  let n := s.dev.frame.length
  if s.cs || n < 8 then none
  else if frameByte s.dev.frame 0 = 0x05 then
    if n = 8 then
      if !s.sck && s.params.rawPollShowsBusy then some (rawPollLevel s.params s.dev.busy) else none
    else if n ≤ 16 && s.sck then some (responseBit s.dev.status (n - 8))
    else none
  else if frameByte s.dev.frame 0 = 0x03 then
    let j := (n - 33) / 8
    let a := (frameAddr s.dev.frame).toNat + j
    if 32 < n && s.sck && !s.dev.heardBusy && a < Config.flashSize then
      some (responseBit (s.dev.read a) (n - 32 - 8 * j))
    else none
  else none

/-- Another master has had the bus (20_memory.md R93). -/
def State.visited (s : State) : State :=
  match s.draws.visit.1 with
  | none => { s with draws := s.draws.visit.2 }
  | some v =>
    { s with
      dev := { s.dev with mem := s.dev.mem.writeAll v.writes, busy := v.busy, wel := v.wel, srx := v.srx, left := v.left }
      draws := s.draws.visit.2 }

end Sys2Proof.Machine
end

