-- ==== Sys2Proof/Machine/Ops.lean ====
section
/-! DEFINITION. The shared operations: the line events (00_scope.md R12), the bus primitives inside a command (40_bus_primitives.md
R130 to R134), the start and the end of a command (10_state.md R36), and `raise`, the one way a command ends with a fault
(60_exceptions.md R216). -/

namespace Sys2Proof.Machine

/-! ### Events -/

/-- DEV may complete its busy cycle between any two events (20_memory.md R84): its step comes before each event. -/
def State.tick (s : State) : State := { s with dev := s.dev.tick }

/-- An event is appended to the trace (00_scope.md R7). -/
def State.emit (s : State) (e : Event) : State := { s with trace := s.trace ++ [e] }

/-- An output latch is written (10_state.md R22). -/
def State.setLatch (s : State) (v : Bool) : Line → State
  | .cs => { s with cs := v }
  | .sck => { s with sck := v }
  | .di => { s with di := v }

/-- `drive(L, v)` (00_scope.md R12). -/
def State.drive (s : State) (l : Line) (v : Bool) : State := ((s.tick.setLatch v l).emit (.drive l v)).react l v

/-- `delay_short()` (00_scope.md R10, R12). -/
def State.delayShort (s : State) : State := s.tick.emit .delayShort

/-- `delay_us(t)` (00_scope.md R10, R12). -/
def State.delayUs (s : State) (t : Nat) : State := s.tick.emit (.delayUs t)

/-- `set_dir(m)` (00_scope.md R12). -/
def State.setDir (s : State) (m : Dir) : State := { s.tick with dir := m }.emit (.dir m)

/-- The level `sample()` returns: what the contract gives, else a draw; always 0 or 1 (00_scope.md R9, R12). -/
def State.sampled (s : State) : Bool :=
  match s.tick.doLevel with
  | some b => b
  | none => s.draws.level.1

/-- The state after `sample()`. -/
def State.afterSample (s : State) : State :=
  match s.tick.doLevel with
  | some b => s.tick.emit (.sample b)
  | none => { s.tick with draws := s.draws.level.2 }.emit (.sample s.draws.level.1)

/-! ### Bus primitives -/

/-- The body of `select` (40_bus_primitives.md R130). -/
def State.select (s : State) : State :=
  { ((s.drive .sck false).drive .cs false).delayUs s.params.tSelect with ph := .selected }

/-- The body of `deselect` (40_bus_primitives.md R131). -/
def State.deselect (s : State) : State :=
  let t : State := { s.drive .cs true with ph := .deselected }
  { (t.drive .sck false).delayUs s.params.tDeselect with ph := .idle }

/-- One turn of `sendByte`'s loop (40_bus_primitives.md R132). -/
def State.sendBit (s : State) : State :=
  let t := ((((s.drive .di (s.sr.getLsbD 7)).drive .sck true).delayShort).drive .sck false).delayShort
  { t with sr := shiftIn t.sr false, bitcnt := t.bitcnt - 1 }

/-- `n` turns of `sendByte`'s loop. -/
def State.sendBits (s : State) : Nat → State
  | 0 => s
  | n + 1 => s.sendBit.sendBits n

/-- The body of `sendByte` (40_bus_primitives.md R132). -/
def State.sendByte (s : State) (v : Byte) : State := { s with sr := v, bitcnt := 8 }.sendBits 8

/-- One turn of `receiveByte`'s loop (40_bus_primitives.md R133). -/
def State.receiveBit (s : State) : State :=
  let t := (s.drive .sck true).delayShort
  let u : State := { t.afterSample with sr := shiftIn t.sr t.sampled }
  let w := (u.drive .sck false).delayShort
  { w with bitcnt := w.bitcnt - 1 }

/-- `n` turns of `receiveByte`'s loop. -/
def State.receiveBits (s : State) : Nat → State
  | 0 => s
  | n + 1 => s.receiveBit.receiveBits n

/-- The body of `receiveByte`; the byte is left in SR (40_bus_primitives.md R133). -/
def State.receiveByte (s : State) : State := { s with bitcnt := 8 }.receiveBits 8

/-- One turn of `receiveBytes`' loop: `buf[IDX] <- receiveByte()`, IDX <- IDX + 1 (40_bus_primitives.md R134). -/
def State.receiveInto (s : State) : State :=
  let t := s.receiveByte
  { t with bufs := bufferSet t.bufs t.bufRef t.idx.toNat t.sr, idx := t.idx + 1 }

/-- `n` turns of a loop. -/
def turns (body : State → State) : Nat → State → State
  | 0, s => s
  | n + 1, s => turns body n (body s)

/-- `n` turns of `receiveBytes`' loop. -/
def State.receiveTurns (s : State) (n : Nat) : State := turns State.receiveInto n s

/-- The body of `receiveBytes` into the buffer of the running command (40_bus_primitives.md R134). -/
def State.receiveBytes (s : State) (count : Nat) : State := { s with idx := 0 }.receiveTurns count

/-! ### Frames -/

/-- PH <- p (00_scope.md R12). -/
def State.setPhase (s : State) (p : Phase) : State := { s with ph := p }

/-- The opcode byte of a frame: PH becomes OpcodeSent (10_state.md R35). -/
def State.sendOpcode (s : State) (b : Byte) : State := (s.sendByte b).setPhase .opcodeSent

/-- SendAddress (42_data_commands.md R173). -/
def State.sendAddress (s : State) (a : Addr) : State :=
  (((s.sendByte (a.extractLsb' 16 8)).sendByte (a.extractLsb' 8 8)).sendByte (a.extractLsb' 0 8)).setPhase .addressSent

/-- A frame of format F-O (30_encoding.md R101). -/
def State.opcodeFrame (s : State) (b : Byte) : State := (s.select.sendOpcode b).deselect

/-- A frame of format F-OW: the opcode and one data byte (30_encoding.md R101, 43_composite_commands.md R190). -/
def State.dataFrame (s : State) (b v : Byte) : State :=
  (((s.select.sendOpcode b).setPhase .dataPhase).sendByte v).deselect

/-- A frame of format F-OA: the opcode and an address (30_encoding.md R101, 43_composite_commands.md R191). -/
def State.addressFrame (s : State) (b : Byte) (a : Addr) : State := ((s.select.sendOpcode b).sendAddress a).deselect

/-- A frame of format F-OAW: the opcode, an address, one data byte (30_encoding.md R101, 42_data_commands.md R171). -/
def State.addressDataFrame (s : State) (b : Byte) (a : Addr) (v : Byte) : State :=
  ((((s.select.sendOpcode b).sendAddress a).setPhase .dataPhase).sendByte v).deselect

/-- A frame of format F-OR: ST is the byte received (41_basic_commands.md R150). -/
def State.statusFrame (s : State) : State :=
  let t := ((s.select.sendOpcode 0x05).setPhase .dataPhase).receiveByte
  { t with st := t.sr }.deselect

/-- A frame of format F-OAR, LEN bytes into the buffer of the running command (42_data_commands.md R170). -/
def State.readFrame (s : State) (a : Addr) (n : Nat) : State :=
  let t := (s.select.sendOpcode 0x03).sendAddress a
  let u := if 0 < n then t.setPhase .dataPhase else t
  (u.receiveBytes n).deselect

/-! ### The start and the end of a command -/

/-- SEQ takes a command: OPR names it (10_state.md R36). -/
def State.start (s : State) (op : Op) : State := { s with opr := some op }

/-- A command ends: ERR and the result are written, OPR is cleared (10_state.md R36), and no reference to a buffer is held any
longer (R43). -/
def State.finish (s : State) (e : Err) (r : Option Byte) : State := { s with opr := none, bufRef := none, err := e, ret := r }

/-- `raise`: a fault ends the running command at once, with the fault as its result (00_scope.md R14, 60_exceptions.md R216). No
state is saved, no mode changes, every register keeps what the command put in it. -/
def State.raise (s : State) (e : Err) : State := s.finish e none

/-- Why a command-layer operation or a `select` has no meaning here: a command runs (10_state.md R36), the bus is released
(70_reset_and_hazards.md R242), a frame is open (R246). -/
def State.blockCommand (s : State) : Option Refusal :=
  if s.opr.isSome then some .commandRunning
  else if s.dir = .released then some .busReleased
  else if s.ph ≠ .idle then some .frameOpen
  else none

/-- Why a primitive inside a frame has no meaning here (70_reset_and_hazards.md R246, 40_bus_primitives.md R131 to R133). -/
def State.blockInFrame (s : State) : Option Refusal :=
  if s.opr.isSome then some .commandRunning
  else if s.dir = .released then some .busReleased
  else if s.ph = .idle ∨ s.ph = .deselected then some .noFrameOpen
  else none

/-- Why `init` has no meaning here: a command runs, or a frame is open (40_bus_primitives.md R135, 70_reset_and_hazards.md R246). -/
def State.blockInit (s : State) : Option Refusal :=
  if s.opr.isSome then some .commandRunning
  else if s.ph ≠ .idle then some .frameOpen
  else none

/-- Why a byte cannot be moved: SCK is not 0 (40_bus_primitives.md R132, R133). -/
def State.blockClock (s : State) : Option Refusal := if s.sck then some .clockNotIdle else none

/-- Why a frame cannot be read from or closed: no byte has been sent in it (40_bus_primitives.md R133, 70_reset_and_hazards.md R246,
R247). -/
def State.blockEmpty (s : State) : Option Refusal := if s.ph = .selected then some .noByteSent else none

/-- Why `n` more bytes cannot be received, from the bits of the frame that would then be clocked in: DEV would be asked for a second
status byte (20_memory.md R74), or for a byte past the end of the array (R79), and neither has a meaning
(93_implementation_defined.md U14). A read frame heard while busy is ignored, and its bits are draws (20_memory.md R82). -/
def State.blockAnswer (s : State) (n : Nat) : Option Refusal :=
  let bits := s.dev.frame ++ List.replicate (8 * n) s.di
  if frameByte bits 0 = 0x05 ∧ 16 < bits.length then some .secondStatusByte
  else if frameByte bits 0 = 0x03 ∧ 32 < bits.length ∧ s.dev.heardBusy = false ∧
      Config.flashSize < (frameAddr bits).toNat + (bits.length - 32) / 8 then some .pastArrayEnd
  else none

/-- The bytes of a command's buffer are there, or it is refused (70_reset_and_hazards.md R251). -/
def State.blockBuffer (s : State) (i : Instr) : Option Refusal :=
  if i.wellFormed s.bufs then none else some .bufferTooShort

/-- A command runs unless something blocks it. -/
def runUnless (block : Option Refusal) (t : State) : Result :=
  match block with
  | some r => .refused r
  | none => .next t

/-- PH after a byte that HOST sends itself, from the bits of the open frame (10_state.md R35): the opcode, the address bytes of an
addressed frame, the data phase. -/
def phaseAfterSend (bits : List Bool) (before : Phase) : Phase :=
  if bits.length ≤ 8 then .opcodeSent
  else if before = .dataPhase then .dataPhase
  else if isAddressed (frameByte bits 0) then
    if bits.length < 32 then .opcodeSent else if bits.length = 32 then .addressSent else .dataPhase
  else .dataPhase

end Sys2Proof.Machine
end

