-- ==== Sys2Proof/Machine/Bus.lean ====
section
/-! DEFINITION. The bus primitives as HOST presents them on their own (40_bus_primitives.md R130 to R134, 30_encoding.md R114,
70_reset_and_hazards.md R246, R247). -/

namespace Sys2Proof.Machine

/-- `select` (40_bus_primitives.md R130). -/
def execSelect (s : State) : Result := runUnless s.blockCommand ((s.start .select).select.finish .ok none)

/-- Why the frame that a `deselect` of HOST closes has no meaning (00_scope.md R14, 93_implementation_defined.md): its opcode is
none of the seven (20_memory.md R86, U5), it has fewer or more bits than its opcode takes (U14), or it read past the end of the
array (R79, U14). A frame that DEV ignores because it is busy (R82, U4) changes nothing; a status read it never ignores. -/
def Dev.closeStops (d : Dev) : Option Refusal :=
  match bytesOfBits d.frame with
  | none => if d.busy then none else some .wrongFrameLength
  | some bytes =>
    match decodeFrame bytes with
    | .error .empty => if d.busy then none else some .wrongFrameLength
    | .error (.reservedOpcode b) => if d.busy then none else some (.reservedOpcode b)
    | .error (.wrongLength op) => if d.busy ∧ op ≠ 0x05 then none else some .wrongFrameLength
    | .ok (.read a n) =>
      if d.heardBusy = false ∧ 0 < n.toNat ∧ Config.flashSize < a.toNat + n.toNat then some .pastArrayEnd else none
    | .ok _ => none

/-- `deselect` (40_bus_primitives.md R131), behind at least one byte (70_reset_and_hazards.md R246). -/
def execDeselect (s : State) : Result :=
  runUnless ((s.blockInFrame.or s.blockEmpty).or s.dev.tick.closeStops) ((s.start .deselect).deselect.finish .ok none)

/-- `sendByte` (40_bus_primitives.md R132); PH advances as 10_state.md R35 says. -/
def execSendByte (v : Byte) (s : State) : Result :=
  let t := (s.start .sendByte).sendByte v
  runUnless (s.blockInFrame.or s.blockClock) ((t.setPhase (phaseAfterSend t.dev.frame s.ph)).finish .ok none)

/-- `receiveByte` (40_bus_primitives.md R133): the byte assembled in SR is returned. -/
def execReceiveByte (s : State) : Result :=
  let t := (s.start .receiveByte).receiveByte.setPhase .dataPhase
  runUnless (((s.blockInFrame.or s.blockClock).or s.blockEmpty).or (s.blockAnswer 1)) (t.finish .ok (some t.sr))

/-- `receiveBytes` (40_bus_primitives.md R134): no byte moves when the count is 0, and only IDX is written. -/
def execReceiveBytes (count : Len) (buf : BufRef) (s : State) : Result :=
  let t := ({ s.start .receiveBytes with bufRef := some buf }).receiveBytes count.toNat
  if count = 0 then runUnless s.blockInFrame (t.finish .ok none)
  else
    runUnless
      ((((s.blockInFrame.or s.blockClock).or s.blockEmpty).or (s.blockBuffer (.receiveBytes count buf))).or
        (s.blockAnswer count.toNat))
      ((t.setPhase .dataPhase).finish .ok none)

end Sys2Proof.Machine
end

