-- ==== Sys2Proof/Machine/Waits.lean ====
section
/-! DEFINITION. The waits (41_basic_commands.md R151, 43_composite_commands.md R193, R194). One poll is one function; a poll that
finds the device busy, with polls left, leaves the command running, and the next step makes the next poll. The loops have no
other bound (00_scope.md R14, 60_exceptions.md R213). -/

namespace Sys2Proof.Machine

/-- What one poll found. -/
inductive Poll where
  | ready | busy | timedOut
  deriving DecidableEq, Repr

/-- The ready test comes before the limit (41_basic_commands.md R151, 43_composite_commands.md R194). -/
def State.judge (s : State) (ready : Bool) : Poll :=
  if ready then .ready else if limitReached s.params s.pollcnt then .timedOut else .busy

/-- A wait begins: POLLCNT <- 0. -/
def State.startPolls (s : State) : State := { s with pollcnt := 0 }

/-- The frame of a raw poll is opened: the opcode 0x05 and no clock pulse after it (41_basic_commands.md R151). -/
def State.openRawPoll (s : State) : State := ((s.select.sendOpcode 0x05).setPhase .dataPhase).startPolls

/-- One raw sample, counted (41_basic_commands.md R151). -/
def State.rawSample (s : State) : State := { s.afterSample with pollcnt := s.pollcnt + 1 }

/-- One turn of WaitUntilReady's loop; the frame is closed when the loop ends (41_basic_commands.md R151). -/
def State.rawPoll (s : State) : Poll × State :=
  let t := s.rawSample
  match t.judge (showsReady s.params s.sampled) with
  | .busy => (.busy, t)
  | r => (r, t.deselect)

/-- One status frame, counted (43_composite_commands.md R194). -/
def State.statusSample (s : State) : State := let t := s.statusFrame; { t with pollcnt := t.pollcnt + 1 }

/-- One turn of PollStatusUntilReady's loop (43_composite_commands.md R194). -/
def State.statusPoll (s : State) : Poll × State :=
  let t := s.statusSample
  (t.judge (!busyBit t.st), t)

/-- What follows a poll: the rest of the command, the fault DeviceTimeout (60_exceptions.md R212), or one more poll, in the next
step. -/
def afterPoll (rest : State → State) : Poll × State → State
  | (.ready, t) => rest t
  | (.timedOut, t) => t.raise .deviceTimeout
  | (.busy, t) => t

/-- CompletionWait up to its first poll, then the rest of the command (43_composite_commands.md R193). -/
def State.completionWait (s : State) (mode : WaitMode) (rest : State → State) : State :=
  match mode with
  | .none => rest s
  | .waitUntilReady => afterPoll rest s.openRawPoll.rawPoll
  | .pollStatus => afterPoll rest s.startPolls.statusPoll

/-- One more poll of a CompletionWait that is under way. -/
def State.continueWait (s : State) (mode : WaitMode) (rest : State → State) : State :=
  match mode with
  | .none => rest s
  | .waitUntilReady => afterPoll rest s.rawPoll
  | .pollStatus => afterPoll rest s.statusPoll

end Sys2Proof.Machine
end

