-- ==== Sys2Proof/Machine/Basic.lean ====
section
/-! DEFINITION. The basic commands, one frame each (41_basic_commands.md R150 to R153). -/

namespace Sys2Proof.Machine

/-- `ReadStatus` (41_basic_commands.md R150): the status byte is returned. -/
def execReadStatus (s : State) : Result :=
  let t := (s.start .readStatus).statusFrame
  runUnless s.blockCommand (t.finish .ok (some t.st))

/-- What WaitUntilReady does after a poll that showed ready. -/
def State.waitDone (s : State) : State := s.finish .ok none

/-- `WaitUntilReady` up to its first poll (41_basic_commands.md R151). -/
def execWaitUntilReady (s : State) : Result :=
  runUnless s.blockCommand (afterPoll State.waitDone (s.start .waitUntilReady).openRawPoll.rawPoll)

/-- `WriteEnable` (41_basic_commands.md R152). -/
def execWriteEnable (s : State) : Result :=
  runUnless s.blockCommand (((s.start .writeEnable).opcodeFrame 0x06).finish .ok none)

/-- `WriteDisable` (41_basic_commands.md R153). -/
def execWriteDisable (s : State) : Result :=
  runUnless s.blockCommand (((s.start .writeDisable).opcodeFrame 0x04).finish .ok none)

end Sys2Proof.Machine
end

