-- ==== Sys2Proof/Machine/Data.lean ====
section
/-! DEFINITION. The data commands (42_data_commands.md R170, R171). -/

namespace Sys2Proof.Machine

/-- `ReadBlock` (42_data_commands.md R170): CheckRange before the frame, then `buf[0 .. n-1]` filled in order. -/
def execReadBlock (a : Addr) (n : Len) (buf : BufRef) (s : State) : Result :=
  let t : State := { s.start .readBlock with addr := a, len := n, bufRef := some buf }
  runUnless (s.blockCommand.or (s.blockBuffer (.readBlock a n buf)))
    (if inRange a n.toNat then (t.readFrame a n.toNat).finish .ok none else t.raise .invalidArgument)

/-- The two frames of WriteByte: WriteEnable, then the program frame (42_data_commands.md R171). -/
def State.programFrames (s : State) (a : Addr) (v : Byte) : State := (s.opcodeFrame 0x06).addressDataFrame 0x02 a v

/-- `WriteByte` (42_data_commands.md R171): no wait and no WriteDisable. -/
def execWriteByte (a : Addr) (v : Byte) (s : State) : Result :=
  let t : State := { s.start .writeByte with addr := a, val := v }
  runUnless s.blockCommand
    (if inRange a 1 then (t.programFrames a v).finish .ok none else t.raise .invalidArgument)

end Sys2Proof.Machine
end

