-- ==== Sys2Proof/Machine/Composite.lean ====
section
/-! DEFINITION. The composite commands (43_composite_commands.md R190 to R192), and how a command that waits goes on. -/

namespace Sys2Proof.Machine

/-- The closing WriteDisable frame, and the end of the command (43_composite_commands.md R190 to R192). -/
def State.closing (s : State) : State := (s.opcodeFrame 0x04).finish .ok none

/-- `WriteStatus` up to the first poll of its wait (43_composite_commands.md R190). -/
def execWriteStatus (v : Byte) (s : State) : Result :=
  let t : State := { s.start .writeStatus with val := v }
  runUnless s.blockCommand
    (((t.opcodeFrame 0x06).dataFrame 0x01 v).completionWait s.params.wrsrWait State.closing)

/-- `EraseBlock` up to the first poll of its wait (43_composite_commands.md R191); the address is sent unchanged. -/
def execEraseBlock (a : Addr) (s : State) : Result :=
  let t : State := { s.start .eraseBlock with addr := a }
  runUnless s.blockCommand
    (if inRange a 1 then ((t.opcodeFrame 0x06).addressFrame 0xD8 a).completionWait s.params.eraseWait State.closing
      else t.raise .invalidArgument)

/-- The byte `buf[IDX]` is taken into VAL (43_composite_commands.md R192). -/
def State.takeByte (s : State) : State := { s with val := bufferGet s.bufs s.bufRef s.idx.toNat }

/-- One byte of WriteBlock up to its poll: WriteByte, the fixed delay, POLLCNT <- 0 (43_composite_commands.md R192). -/
def State.blockByte (s : State) : State :=
  ((s.takeByte.programFrames (byteAddr s.addr s.idx) s.takeByte.val).delayUs s.params.tProgram).startPolls

/-- IDX <- IDX + 1. -/
def State.nextByte (s : State) : State := { s with idx := s.idx + 1 }

/-- WriteBlock's loop with `k` bytes to go (43_composite_commands.md R192). WriteByte's own CheckRange stands in it. -/
def State.blockLoop : Nat → State → State
  | 0, s => s.closing
  | k + 1, s =>
    if inRange (byteAddr s.addr s.idx) 1 then afterPoll (fun t => State.blockLoop k t.nextByte) s.blockByte.statusPoll
    else s.takeByte.raise .invalidArgument

/-- `WriteBlock` up to the first poll that finds the device busy (43_composite_commands.md R192). -/
def execWriteBlock (a : Addr) (buf : BufRef) (n : Len) (s : State) : Result :=
  let t : State := { s.start .writeBlock with addr := a, len := n, bufRef := some buf }
  runUnless (s.blockCommand.or (s.blockBuffer (.writeBlock a buf n)))
    (if inRange a n.toNat then State.blockLoop n.toNat { t with idx := 0 } else t.raise .invalidArgument)

/-- WriteBlock after a poll that showed ready: the next byte, or the end (43_composite_commands.md R192). -/
def State.blockGoesOn (s : State) : State := State.blockLoop (s.len.toNat - (s.idx.toNat + 1)) s.nextByte

/-- A command that waits makes its next poll and goes on from there (10_state.md R36, 60_exceptions.md R213). Only the four
commands that wait can be found running at the start of a step. -/
def State.resume (s : State) (op : Op) : Result :=
  match op with
  | .waitUntilReady => .next (afterPoll State.waitDone s.rawPoll)
  | .writeStatus => .next (s.continueWait s.params.wrsrWait State.closing)
  | .eraseBlock => .next (s.continueWait s.params.eraseWait State.closing)
  | .writeBlock => .next (afterPoll State.blockGoesOn s.statusPoll)
  | .select | .deselect | .sendByte | .receiveByte | .receiveBytes | .init | .disable | .readStatus | .writeEnable
  | .writeDisable | .readBlock | .writeByte => .refused (.nothingToResume op)

end Sys2Proof.Machine
end

