-- ==== Sys2Proof/Machine/Lifecycle.lean ====
section
/-! DEFINITION. `init` and `disable` (40_bus_primitives.md R135, R136). -/

namespace Sys2Proof.Machine

/-- `init` (40_bus_primitives.md R135): the CS and SCK latches are written without an event, then the pins drive. -/
def execInit (s : State) : Result :=
  runUnless s.blockInit (({ s.start .init with cs := true, sck := false }.setDir .master).finish .ok none)

/-- The pins are released (40_bus_primitives.md R136); another master may then do anything to DEV (20_memory.md R93). -/
def State.release (s : State) : State := (s.setDir .released).visited

/-- `disable` (40_bus_primitives.md R136), of a bus that is held (70_reset_and_hazards.md R242). -/
def execDisable (s : State) : Result := runUnless s.blockCommand ((s.start .disable).release.finish .ok none)

end Sys2Proof.Machine
end

