-- ==== Sys2Proof/Machine/Dispatch.lean ====
section
/-! DEFINITION. One arm per operation. -/

namespace Sys2Proof.Machine

def exec (i : Instr) (s : State) : Host.Outcome State Fault Refusal :=
  match i with
  | .select => Sys2Proof.Machine.execSelect s
  | .deselect => Sys2Proof.Machine.execDeselect s
  | .sendByte value => Sys2Proof.Machine.execSendByte value s
  | .receiveByte => Sys2Proof.Machine.execReceiveByte s
  | .receiveBytes count buf => Sys2Proof.Machine.execReceiveBytes count buf s
  | .init => Sys2Proof.Machine.execInit s
  | .disable => Sys2Proof.Machine.execDisable s
  | .readStatus => Sys2Proof.Machine.execReadStatus s
  | .waitUntilReady => Sys2Proof.Machine.execWaitUntilReady s
  | .writeEnable => Sys2Proof.Machine.execWriteEnable s
  | .writeDisable => Sys2Proof.Machine.execWriteDisable s
  | .readBlock addr n buf => Sys2Proof.Machine.execReadBlock addr n buf s
  | .writeByte addr value => Sys2Proof.Machine.execWriteByte addr value s
  | .writeStatus value => Sys2Proof.Machine.execWriteStatus value s
  | .eraseBlock addr => Sys2Proof.Machine.execEraseBlock addr s
  | .writeBlock addr buf n => Sys2Proof.Machine.execWriteBlock addr buf n s

end Sys2Proof.Machine
end

