-- ==== Sys2Proof/Machine/Port.lean ====
section
/-! DEFINITION. The command port: how a step takes HOST's next command (10_state.md R36, R40), and how a word of the opcode table
is put there. -/

namespace Sys2Proof.Machine

/-- HOST's next command, and the state with it taken; `none` when HOST presents nothing. -/
def State.nextCommand (s : State) : Option (Presented × State) :=
  match s.commands with
  | [] => none
  | p :: rest => some (p, { s with commands := rest })

/-- The block as it stands when a command can be taken: none runs, and the bus is held as `init` leaves it
(70_reset_and_hazards.md R242, 40_bus_primitives.md R135). A bus that is held already stays as it is. -/
def State.readyForCommand (s : State) : State :=
  match s.dir with
  | .master => { s with opr := none }
  | .released => { s with opr := none, dir := .master, cs := true, sck := false }

/-- The instruction of a table word is HOST's next command, and the block can take it. A word that is no instruction cannot be
written at the port (30_encoding.md R109), so HOST then presents nothing. -/
def State.presentWord (s : State) (nbits w : Nat) : State :=
  match decodeTableWord nbits w with
  | some i => { s.readyForCommand with commands := encode i :: s.commands }
  | none => { s with opr := none, commands := [] }

end Sys2Proof.Machine
end

