-- ==== Sys2Proof/Machine/Step.lean ====
section
/-! DEFINITION. One step (10_state.md R36): a command that waits makes its next poll; else HOST's next command is taken and run;
with nothing presented the block does nothing (70_reset_and_hazards.md R240). -/

namespace Sys2Proof.Machine

def step (s : State) : Host.Outcome State Fault Refusal :=
  match s.opr with
  | some op => s.resume op
  | none =>
    match s.nextCommand with
    | none => .next s
    | some (p, t) =>
      match decode p with
      | .error e => .refused (.malformedCommand e)
      | .ok i => exec i t

/-- The table word is HOST's next command, and the very next step runs it (log 2). -/
def State.withFetchWord (s : State) (nbits w : Nat) : State := s.presentWord nbits w

end Sys2Proof.Machine
end

