-- ==== Sys2Proof/Safety.lean ====
section
/-! DEFINITION. The terms claims use: the events of each primitive and frame (40_bus_primitives.md R130 to R133, R139), when a
command is accepted, and the invariant of a run. -/

namespace Sys2Proof.Machine

/-! ### Events -/

/-- The three events of `select` (R130). -/
def selectEvents (p : Params) : List Event := [.drive .sck false, .drive .cs false, .delayUs p.tSelect]

/-- The three events of `deselect` (R131). -/
def deselectEvents (p : Params) : List Event := [.drive .cs true, .drive .sck false, .delayUs p.tDeselect]

/-- The five events of one bit sent (R132). -/
def sendBitEvents (b : Bool) : List Event :=
  [.drive .di b, .drive .sck true, .delayShort, .drive .sck false, .delayShort]

/-- The 40 events of a byte sent, bit 7 first (R132). -/
def sendEvents (v : Byte) : List Event := (bitsOfByte v).flatMap sendBitEvents

/-- The five events of one bit received (R133). -/
def receiveBitEvents (b : Bool) : List Event :=
  [.drive .sck true, .delayShort, .sample b, .drive .sck false, .delayShort]

/-- The 40 events of a byte received, bit 7 first (R133). -/
def receiveEvents (v : Byte) : List Event := (bitsOfByte v).flatMap receiveBitEvents

/-- The 120 events of an address phase (42_data_commands.md R173). -/
def addressEvents (a : Addr) : List Event := (addrBytes a).flatMap sendEvents

/-- A frame `S >b D` (30_encoding.md R101, F-O). -/
def opcodeFrameEvents (p : Params) (b : Byte) : List Event := selectEvents p ++ sendEvents b ++ deselectEvents p

/-- A frame `S >b >v D` (F-OW). -/
def dataFrameEvents (p : Params) (b v : Byte) : List Event :=
  selectEvents p ++ sendEvents b ++ sendEvents v ++ deselectEvents p

/-- A frame `S >b >a2 >a1 >a0 D` (F-OA). -/
def addressFrameEvents (p : Params) (b : Byte) (a : Addr) : List Event :=
  selectEvents p ++ sendEvents b ++ addressEvents a ++ deselectEvents p

/-- A frame `S >b >a2 >a1 >a0 >v D` (F-OAW). -/
def addressDataFrameEvents (p : Params) (b : Byte) (a : Addr) (v : Byte) : List Event :=
  selectEvents p ++ sendEvents b ++ addressEvents a ++ sendEvents v ++ deselectEvents p

/-- A status frame `S >05 <r D` (F-OR). -/
def statusFrameEvents (p : Params) (r : Byte) : List Event :=
  selectEvents p ++ sendEvents 0x05 ++ receiveEvents r ++ deselectEvents p

/-- A read frame `S >03 >a2 >a1 >a0 <r0 ... D` (F-OAR). -/
def readFrameEvents (p : Params) (a : Addr) (rs : List Byte) : List Event :=
  selectEvents p ++ sendEvents 0x03 ++ addressEvents a ++ rs.flatMap receiveEvents ++ deselectEvents p

/-- The events of a CompletionWait that its first poll ends well, by mode; `r` is the status byte, where one is read
(43_composite_commands.md R193). -/
def waitEvents (p : Params) (r : Byte) : WaitMode → List Event
  | .none => []
  | .waitUntilReady => selectEvents p ++ sendEvents 0x05 ++ [.sample p.readyLevel] ++ deselectEvents p
  | .pollStatus => statusFrameEvents p r

/-- The two frames of a WriteByte (42_data_commands.md R171). -/
def programEvents (p : Params) (a : Addr) (v : Byte) : List Event :=
  opcodeFrameEvents p 0x06 ++ addressDataFrameEvents p 0x02 a v

/-! ### Commands -/

/-- SEQ takes a command-layer operation or a `select`: no command runs, the bus is held, no frame is open (10_state.md R36,
70_reset_and_hazards.md R242, R246). -/
abbrev State.Accepts (s : State) : Prop := s.opr = none ∧ s.dir = .master ∧ s.ph = .idle

/-- HOST has opened a frame with its own primitives (70_reset_and_hazards.md R246): DEV is selected and SCK is low (R247). -/
abbrev State.InFrame (s : State) : Prop :=
  s.opr = none ∧ s.dir = .master ∧ s.ph ≠ .idle ∧ s.ph ≠ .deselected ∧ s.cs = false ∧ s.sck = false

/-- DEV after `n` more events of SEQ, with its own step before each (20_memory.md R84). -/
def Dev.ticks (d : Dev) : Nat → Dev
  | 0 => d
  | n + 1 => d.tick.ticks n

/-- A busy DEV whose cycle does not complete within the next `n` events (20_memory.md R84). -/
abbrev Dev.BusyFor (d : Dev) (n : Nat) : Prop := d.busy = true ∧ ∀ k, d.left = some k → n ≤ k

/-- A busy DEV that never completes: the dead device of 20_memory.md R84. -/
abbrev Dev.Dead (d : Dev) : Prop := d.busy = true ∧ d.left = none

/-- A busy cycle of the given length is still under way `n` events after it began (20_memory.md R84). -/
def stillBusy (l : Option Nat) (n : Nat) : Bool :=
  match l with
  | none => true
  | some k => n ≤ k

/-- The bytes of a frame that asks for a second status byte (20_memory.md R74). -/
def AsksTwice (vs : List Byte) : Prop := ∃ x y rest, vs = 0x05 :: x :: y :: rest

/-- The bytes of a read frame that runs past the end of the array (20_memory.md R79). -/
def ReadsPastEnd (vs : List Byte) : Prop :=
  ∃ (a : Addr) (more : List Byte), vs = [0x03] ++ addrBytes a ++ more ∧ more ≠ [] ∧ Config.flashSize < a.toNat + more.length

/-- `len` bytes of the buffer a reference names. -/
def bufferBytes (bufs : List (List Byte)) (r : BufRef) (n : Nat) : List Byte := (List.range n).map (bufferGet bufs r)

/-- A list of bytes stored at the front of the buffer a reference names. -/
def bufferStore (bufs : List (List Byte)) (r : BufRef) (vs : List Byte) : List (List Byte) :=
  bufs.modify r fun b => vs ++ b.drop vs.length

/-! ### The invariant of a run -/

/-- A raw poll is under way: its frame is open behind the opcode 0x05, with no clock pulse since (41_basic_commands.md R151). -/
abbrev State.RawPolling (s : State) : Prop := s.ph = .dataPhase ∧ s.dev.frame = bitsOfByte 0x05

/-- What is true of a command found running between two steps: it waits (10_state.md R35, R36, 43_composite_commands.md R193). -/
def State.Waiting (s : State) : Op → Prop
  | .waitUntilReady => s.RawPolling
  | .writeStatus => (s.params.wrsrWait = .waitUntilReady ∧ s.RawPolling) ∨ (s.params.wrsrWait = .pollStatus ∧ s.ph = .idle)
  | .eraseBlock => (s.params.eraseWait = .waitUntilReady ∧ s.RawPolling) ∨ (s.params.eraseWait = .pollStatus ∧ s.ph = .idle)
  | .writeBlock =>
    s.ph = .idle ∧ inRange s.addr s.len.toNat = true ∧ s.idx.toNat < s.len.toNat ∧
      s.len.toNat ≤ bufferRoom s.bufs s.bufRef
  | _ => False

/-- The invariant of a run. -/
structure State.Inv (s : State) : Prop where
  /-- The array keeps its canonical form. -/
  mem : s.dev.mem.wf
  /-- No byte is half moved (10_state.md R26). -/
  bitcnt : s.bitcnt = 0
  /-- A frame that is being closed is closed within the step (10_state.md R35). -/
  settled : s.ph ≠ .deselected
  /-- A released bus is idle and no command runs (70_reset_and_hazards.md R242). -/
  released : s.dir = .released → s.ph = .idle ∧ s.opr = none
  /-- The clock idles low (10_state.md R24, R37). -/
  clock : s.dir = .master → s.sck = false
  /-- DEV is selected exactly while a frame is open (10_state.md R37). -/
  chipSelect : s.dir = .master → (s.cs = true ↔ s.ph = .idle)
  /-- FRAME is empty between frames (10_state.md R46). -/
  frame : s.ph = .idle → s.dev.frame = []
  /-- An open frame has whole bytes, none while PH = Selected (10_state.md R35). -/
  whole : s.ph ≠ .idle → ∃ vs, s.dev.frame = bitsOfBytes vs ∧ (vs = [] ↔ s.ph = .selected)
  /-- No reference to a buffer is held between commands (10_state.md R43). -/
  reference : s.opr = none → s.bufRef = none
  /-- A command found running waits (10_state.md R36). -/
  running : ∀ op, s.opr = some op → s.Waiting op
  /-- POLLCNT never exceeds POLL_LIMIT, and a command that waits has polls left (60_exceptions.md R224). -/
  polls : ∀ l, s.params.pollLimit = some l → s.pollcnt ≤ l ∧ (s.opr ≠ none → s.pollcnt < l)

end Sys2Proof.Machine
end

