-- ==== Sys2Proof/Certificates/Slice0/Obligations.lean ====
section
/-! DEFINITION. The statements for the provers. Each says what the spec's rule says; where a clause is the model's own choice, the
docstring names the log entry. -/

open Sys2Proof Sys2Proof.Machine

/-! ### Reset and the bus lifecycle -/

/-- What reset leaves, where 10_state.md R50 and 70_reset_and_hazards.md R240, R241 give a value, and that the block then does
nothing until a command comes. -/
def Obligations.ResetState : Prop :=
  State.reset.dir = .released ∧ State.reset.ph = .idle ∧ State.reset.opr = none ∧ State.reset.err = .ok ∧
    State.reset.bitcnt = 0 ∧ State.reset.bufRef = none ∧ State.reset.pollcnt = 0 ∧ State.reset.dev.busy = false ∧
    State.reset.dev.wel = false ∧ State.reset.dev.frame = [] ∧ step State.reset = .next State.reset

/-- The invariant holds at reset. -/
def Obligations.ResetInv : Prop := State.reset.Inv

/-- `init` (R135): DIR = Master, CS = 1, SCK = 0, one event, and nothing else but DEV's own clock, whichever DIR was. -/
def Obligations.InitTakesBus : Prop :=
  ∀ s : State, s.opr = none → s.ph = .idle →
    exec .init s = .next { s with
      dir := .master, cs := true, sck := false, bufRef := none, err := .ok, ret := none, trace := s.trace ++ [.dir .master], dev := s.dev.tick }

/-- `disable` (R136) of a held bus: DIR = Released, one event, the latches keep their values. What DEV then is, another master
decides (R93): log 22. -/
def Obligations.DisableReleasesBus : Prop :=
  ∀ s : State, s.Accepts →
    ∃ d w,
      exec .disable s = .next { s with
        dir := .released, bufRef := none, err := .ok, ret := none, trace := s.trace ++ [.dir .released], dev := d, draws := w } ∧
      d.frame = s.dev.frame ∧
      (s.draws.visit.1 = none → d = s.dev.tick) ∧
      (∀ v, s.draws.visit.1 = some v →
        d.busy = v.busy ∧ d.wel = v.wel ∧ d.srx = v.srx ∧ d.left = v.left ∧ d.mem = s.dev.mem.writeAll v.writes)

/-- While DIR = Released every operation but `init` is refused (R242), and `init` takes the bus (R135). That `disable` is among the
refused is log 21. -/
def Obligations.ReleasedRefuses : Prop :=
  ∀ s : State, s.dir = .released →
    (∀ i : Instr, i ≠ .init → ∃ r, exec i s = .refused r ∧ (s.opr = none → r = .busReleased)) ∧
      (s.opr = none → s.ph = .idle → ∃ t, exec .init s = .next t ∧ t.dir = .master)

/-- DIR is written by `init` and `disable` alone (R21), in every step. That `init` is refused with a frame open is log 23. -/
def Obligations.DirChangesOnlyByLifecycle : Prop :=
  (∀ s, exec .init s = .refused .frameOpen ∨ exec .init s = .refused .commandRunning ∨
      ∃ t, exec .init s = .next t ∧ t.dir = .master) ∧
    (∀ s, exec .disable s = .refused .busReleased ∨ exec .disable s = .refused .frameOpen ∨
      exec .disable s = .refused .commandRunning ∨
      ∃ t, exec .disable s = .next t ∧ t.dir = .released) ∧
    (∀ (i : Instr) (s t : State), i ≠ .init → i ≠ .disable → exec i s = .next t → t.dir = s.dir) ∧
    (∀ (op : Op) (s t : State), s.opr = some op → step s = .next t → t.dir = s.dir)

/-! ### The bus primitives -/

/-- `select` (R130): three events, PH = Selected, the lines low, FRAME emptied; refused with a frame open (R246). DEV's clock, one step
an event, is logs 7 and 35; its note of BUSY as CS falls is log 15. -/
def Obligations.SelectOpensFrame : Prop :=
  ∀ s : State, s.opr = none → s.dir = .master →
    (s.ph = .idle →
      exec .select s = .next { s with
        cs := false, sck := false, ph := .selected, bufRef := none, err := .ok, ret := none
        trace := s.trace ++ [.drive .sck false, .drive .cs false, .delayUs s.params.tSelect]
        dev := { s.dev.ticks 3 with frame := [], heardBusy := (s.dev.ticks 2).busy } }) ∧
    (s.ph ≠ .idle → exec .select s = .refused .frameOpen)

/-- `deselect` (R131, R246): three events, PH = Idle, CS = 1, SCK = 0, FRAME emptied, for every frame of a format of R101 but a read
past the end of the array, and for every frame that DEV is too busy to hear (R82). Refused with no frame open (R246), right behind a
select (the model's choice between R131 and R246: log 24), and where the contract gives the frame no meaning: a reserved opcode (R86:
log 19), a wrong length (U14: log 18), a read past the end (R79: log 17). That BUSY is taken when CS rises is log 16, and BUSY as a
read frame began log 15. -/
def Obligations.DeselectClosesFrame : Prop :=
  ∀ s : State, s.opr = none → s.dir = .master →
    (s.ph ≠ .idle → s.ph ≠ .deselected → s.ph ≠ .selected →
      ((∃ c, frameOfBits s.dev.frame = some c ∧
            ∀ a n, c = .read a n → 0 < n.toNat → s.dev.heardBusy = false → a.toNat + n.toNat ≤ Config.flashSize) ∨
          (frameOfBits s.dev.frame = none ∧ s.dev.tick.busy = true ∧ ∀ rest, s.dev.frame ≠ bitsOfBytes (0x05 :: rest)) →
        ∃ d w,
          exec .deselect s = .next { s with
            cs := true, sck := false, ph := .idle, bufRef := none, err := .ok, ret := none
            trace := s.trace ++ [.drive .cs true, .drive .sck false, .delayUs s.params.tDeselect], dev := d, draws := w } ∧
          d.frame = []) ∧
      (∀ b rest, s.dev.frame = bitsOfBytes (b :: rest) → isOpcode b = false → s.dev.tick.busy = false →
        exec .deselect s = .refused (.reservedOpcode b)) ∧
      (frameOfBits s.dev.frame = none → (∀ b rest, s.dev.frame = bitsOfBytes (b :: rest) → isOpcode b = true) →
        s.dev.tick.busy = false ∨ (∃ rest, s.dev.frame = bitsOfBytes (0x05 :: rest)) →
        exec .deselect s = .refused .wrongFrameLength) ∧
      (∀ a n, frameOfBits s.dev.frame = some (.read a n) → 0 < n.toNat → s.dev.heardBusy = false →
        Config.flashSize < a.toNat + n.toNat → exec .deselect s = .refused .pastArrayEnd)) ∧
    (s.ph = .selected → exec .deselect s = .refused .noByteSent) ∧
    (s.ph = .idle → exec .deselect s = .refused .noFrameOpen)

/-- What DEV makes of the frame that a `deselect` closes (R72, R76 to R78, R80 to R83): a write-type frame takes effect when CS
rises, only when DEV is ready then (log 16) and, for the three that write, the latch is set; otherwise the array, the latch and
SRX stay. A frame of no format is refused unless DEV is busy (log 18). BUSY after a write is a busy cycle of drawn length two events
old (log 7). The byte that an address outside the array reaches, if any, is the free value `Draws.target` answers; that byte is programmed,
its block erased, and nothing else changes (log 20). -/
def Obligations.DeselectCommitsFrame : Prop :=
  ∀ s t : State, exec .deselect s = .next t →
    ((s.dev.tick.busy = true ∨ frameOfBits s.dev.frame = none ∨ frameOfBits s.dev.frame = some .readStatus ∨
        frameOfBits s.dev.frame = some .rawPoll ∨ ∃ a n, frameOfBits s.dev.frame = some (.read a n)) →
      t.dev.mem = s.dev.mem ∧ t.dev.wel = s.dev.wel ∧ t.dev.srx = s.dev.srx) ∧
    (s.dev.wel = false →
      ((∃ v, frameOfBits s.dev.frame = some (.writeStatus v)) ∨ (∃ a v, frameOfBits s.dev.frame = some (.program a v)) ∨
        ∃ a, frameOfBits s.dev.frame = some (.erase a)) →
      t.dev.mem = s.dev.mem ∧ t.dev.wel = false ∧ t.dev.srx = s.dev.srx) ∧
    (s.dev.tick.busy = false →
      (frameOfBits s.dev.frame = some .writeEnable →
        t.dev.wel = true ∧ t.dev.busy = false ∧ t.dev.mem = s.dev.mem ∧ t.dev.srx = s.dev.srx) ∧
      (frameOfBits s.dev.frame = some .writeDisable →
        t.dev.wel = false ∧ t.dev.busy = false ∧ t.dev.mem = s.dev.mem ∧ t.dev.srx = s.dev.srx) ∧
      (s.dev.wel = true →
        (∀ v, frameOfBits s.dev.frame = some (.writeStatus v) →
          t.dev.wel = true ∧ t.dev.mem = s.dev.mem ∧
            t.dev.busy = stillBusy (Draws.latency { s.draws with count := s.draws.count + 1 }).1 2) ∧
        (∀ a v, frameOfBits s.dev.frame = some (.program a v) →
          t.dev.wel = true ∧ t.dev.srx = s.dev.srx ∧
            (a.toNat < Config.flashSize → t.dev.busy = stillBusy s.draws.latency.1 2 ∧
              ∀ b, t.dev.read b = if b = a.toNat then programFn (s.dev.read a.toNat) v else s.dev.read b) ∧
            (Config.flashSize ≤ a.toNat →
              t.dev.busy = stillBusy (Draws.latency { s.draws with count := s.draws.count + 1 }).1 2 ∧
                match (s.draws.target a).1 with
                | some x =>
                  x < Config.flashSize ∧ ∀ b, t.dev.read b = if b = x then programFn (s.dev.read x) v else s.dev.read b
                | none => ∀ b, t.dev.read b = s.dev.read b)) ∧
        (∀ a, frameOfBits s.dev.frame = some (.erase a) →
          t.dev.wel = true ∧ t.dev.srx = s.dev.srx ∧
            (a.toNat < Config.flashSize → t.dev.busy = stillBusy s.draws.latency.1 2 ∧
              ∀ b, t.dev.read b =
                if b / s.params.blockSize = a.toNat / s.params.blockSize then 0xFF else s.dev.read b) ∧
            (Config.flashSize ≤ a.toNat →
              t.dev.busy = stillBusy (Draws.latency { s.draws with count := s.draws.count + 1 }).1 2 ∧
                match (s.draws.target a).1 with
                | some x =>
                  x < Config.flashSize ∧
                    ∀ b, t.dev.read b = if b / s.params.blockSize = x / s.params.blockSize then 0xFF else s.dev.read b
                | none => ∀ b, t.dev.read b = s.dev.read b))))

/-- `sendByte` (R132): 40 events, bit 7 first, each bit on DI before its pulse; DI keeps bit 0, SR and BITCNT end at 0, DEV clocks
the eight bits in (R72); refused with no frame open (R246). PH (R35) is log 26: the first byte of a frame takes it to OpcodeSent,
the third address byte of an addressed frame to AddressSent, the next byte, or the first behind any other opcode, to DataPhase. -/
def Obligations.SendByteShiftsOut : Prop :=
  ∀ (v : Byte) (s : State),
    (s.InFrame →
      ∃ d w p,
        exec (.sendByte v) s = .next { s with
          di := v.getLsbD 0, sr := 0, bitcnt := 0, ph := p, bufRef := none, err := .ok, ret := none
          trace := s.trace ++
            [7, 6, 5, 4, 3, 2, 1, 0].flatMap fun k =>
              [.drive .di (v.getLsbD k), .drive .sck true, .delayShort, .drive .sck false, .delayShort]
          dev := d, draws := w } ∧
        (s.dev.frame = [] → p = .opcodeSent) ∧ (s.ph = .dataPhase → 8 ≤ s.dev.frame.length → p = .dataPhase) ∧
        (∀ op rest, s.dev.frame = bitsOfBytes (op :: rest) → s.ph ≠ .dataPhase →
          (isAddressed op = false → p = .dataPhase) ∧
          (isAddressed op = true →
            (rest.length < 2 → p = .opcodeSent) ∧ (rest.length = 2 → p = .addressSent) ∧ (2 < rest.length → p = .dataPhase))) ∧
        p ≠ .idle ∧ p ≠ .selected ∧ p ≠ .deselected ∧
        d.frame = s.dev.frame ++ [v.getLsbD 7, v.getLsbD 6, v.getLsbD 5, v.getLsbD 4, v.getLsbD 3, v.getLsbD 2, v.getLsbD 1,
          v.getLsbD 0] ∧
        d.mem = s.dev.mem ∧ d.wel = s.dev.wel ∧ d.srx = s.dev.srx ∧ d.busy = (s.dev.ticks 40).busy) ∧
    (s.opr = none → s.dir = .master → s.ph = .idle → exec (.sendByte v) s = .refused .noFrameOpen)

/-- `receiveByte` (R133): 40 events, each sample between the short delay and the falling edge, the first sample bit 7; the byte is
SR and the result; DI is not driven and DEV clocks in what it holds. Refused with no frame open or no byte sent (R246, R247), and
for a second status byte (R74) or a byte past the end of the array (R79), which have no meaning (U14: log 17). PH is log 26. -/
def Obligations.ReceiveByteShiftsIn : Prop :=
  ∀ s : State,
    (∀ vs, s.InFrame → s.ph ≠ .selected → s.dev.frame = bitsOfBytes vs → vs ≠ [] →
      (¬ AsksTwice (vs ++ [heldByte s.di]) → (s.dev.heardBusy = false → ¬ ReadsPastEnd (vs ++ [heldByte s.di])) →
        ∃ (v : Byte) (d : Dev) (w : Draws),
          exec .receiveByte s = .next { s with
            sr := v, bitcnt := 0, ph := .dataPhase, bufRef := none, err := .ok, ret := some v
            trace := s.trace ++
              [7, 6, 5, 4, 3, 2, 1, 0].flatMap fun k =>
                [.drive .sck true, .delayShort, .sample (v.getLsbD k), .drive .sck false, .delayShort]
            dev := d, draws := w } ∧
          d.frame = s.dev.frame ++ List.replicate 8 s.di ∧
          d.mem = s.dev.mem ∧ d.wel = s.dev.wel ∧ d.srx = s.dev.srx ∧ d.busy = (s.dev.ticks 40).busy) ∧
      (AsksTwice (vs ++ [heldByte s.di]) → exec .receiveByte s = .refused .secondStatusByte) ∧
      (s.dev.heardBusy = false → ReadsPastEnd (vs ++ [heldByte s.di]) → exec .receiveByte s = .refused .pastArrayEnd)) ∧
    (s.InFrame → s.ph = .selected → exec .receiveByte s = .refused .noByteSent) ∧
    (s.opr = none → s.dir = .master → s.ph = .idle → exec .receiveByte s = .refused .noFrameOpen)

/-- What DEV answers a `receiveByte` with: the status byte behind a lone opcode 0x05 (R74, R39; the instant of its BUSY is log 14), the
next array byte behind 0x03 and an address, when it heard the frame begin while ready (R79, R82: log 15). -/
def Obligations.ReceiveByteAnswered : Prop :=
  ∀ s t : State, s.InFrame → exec .receiveByte s = .next t →
    (s.dev.frame = bitsOfBytes [0x05] →
      t.ret = some t.sr ∧ t.sr.getLsbD 0 = s.dev.tick.busy ∧ t.sr.getLsbD s.params.welBit = s.dev.wel) ∧
    (∀ (a : Addr) (more : List Byte), s.dev.frame = bitsOfBytes ([0x03] ++ addrBytes a ++ more) → s.dev.heardBusy = false →
      a.toNat + more.length < Config.flashSize → t.ret = some (s.dev.read (a.toNat + more.length)))

/-- `receiveBytes` (R134): `count` times the events of `receiveByte` and nothing between, the buffer filled in order, the rest of it
and every other buffer as before (buffers do not overlap: log 4). A count of 0 moves nothing (log 25). Refused with no byte sent
(R247), for bytes that have no meaning (U14: log 17), and, whatever the count, with no frame open (R246). PH is log 26. -/
def Obligations.ReceiveBytesFillsBuffer : Prop :=
  ∀ (n : Len) (r : BufRef) (s : State),
    (s.InFrame →
      (∀ vs, s.ph ≠ .selected → n ≠ 0 → n.toNat ≤ bufferRoom s.bufs r → s.dev.frame = bitsOfBytes vs → vs ≠ [] →
        (¬ AsksTwice (vs ++ List.replicate n.toNat (heldByte s.di)) →
          (s.dev.heardBusy = false → ¬ ReadsPastEnd (vs ++ List.replicate n.toNat (heldByte s.di))) →
          ∃ (rs : List Byte) (d : Dev) (w : Draws),
            rs.length = n.toNat ∧
            exec (.receiveBytes n r) s = .next { s with
              sr := rs.getLastD 0, bitcnt := 0, idx := n, bufs := bufferStore s.bufs r rs, ph := .dataPhase
              bufRef := none, err := .ok, ret := none, trace := s.trace ++ rs.flatMap receiveEvents, dev := d, draws := w } ∧
            (∀ (q : BufRef) k, bufferGet (bufferStore s.bufs r rs) q k =
              if q = r ∧ k < n.toNat then rs.getD k 0 else bufferGet s.bufs q k) ∧
            d.frame = s.dev.frame ++ List.replicate (8 * n.toNat) s.di ∧
            d.mem = s.dev.mem ∧ d.wel = s.dev.wel ∧ d.srx = s.dev.srx ∧ d.busy = (s.dev.ticks (40 * n.toNat)).busy) ∧
        (AsksTwice (vs ++ List.replicate n.toNat (heldByte s.di)) → exec (.receiveBytes n r) s = .refused .secondStatusByte) ∧
        (s.dev.heardBusy = false → ReadsPastEnd (vs ++ List.replicate n.toNat (heldByte s.di)) →
          exec (.receiveBytes n r) s = .refused .pastArrayEnd)) ∧
      (n = 0 → exec (.receiveBytes n r) s = .next { s with idx := 0, bufRef := none, err := .ok, ret := none }) ∧
      (s.ph = .selected → n ≠ 0 → exec (.receiveBytes n r) s = .refused .noByteSent)) ∧
    (s.opr = none → s.dir = .master → s.ph = .idle → exec (.receiveBytes n r) s = .refused .noFrameOpen)

/-- The pairing hazard (R246): with a frame open, everything but the primitives inside it is refused. (`init`: log 23.) -/
def Obligations.FrameOpenRefuses : Prop :=
  ∀ (i : Instr) (s : State), s.opr = none → s.dir = .master → s.ph ≠ .idle →
    (∀ v, i ≠ .sendByte v) → i ≠ .deselect → i ≠ .receiveByte → (∀ n r, i ≠ .receiveBytes n r) → exec i s = .refused .frameOpen

/-- A buffer shorter than the command's length is refused at the boundary (R251), before the range check (log 5). -/
def Obligations.ShortBufferRefused : Prop :=
  ∀ (a : Addr) (n : Len) (r : BufRef) (s : State), bufferRoom s.bufs r < n.toNat →
    (s.Accepts → exec (.readBlock a n r) s = .refused .bufferTooShort ∧ exec (.writeBlock a r n) s = .refused .bufferTooShort) ∧
    (s.InFrame → s.ph ≠ .selected → exec (.receiveBytes n r) s = .refused .bufferTooShort)

/-! ### The basic commands -/

/-- `ReadStatus` (R150, R74): one frame `S >05 <r D`; bit 0 of `r` is BUSY and bit WEL_BIT the latch, as they are when the response
starts (log 14), the six other bits the draw (log 34); `r` is ST, SR and the result; nothing in DEV changes but its clock (logs 7,
35), the emptied FRAME, the byte it answered and its note of BUSY as CS fell (log 15). -/
def Obligations.ReadStatusAnswers : Prop :=
  ∀ s : State, s.Accepts →
    ∃ r : Byte,
      exec .readStatus s = .next { s with
        cs := true, sck := false, di := true, sr := r, bitcnt := 0, st := r, bufRef := none, err := .ok, ret := some r
        trace := s.trace ++ statusFrameEvents s.params r
        dev := { s.dev.ticks 86 with frame := [], heardBusy := (s.dev.ticks 2).busy, status := r }
        draws := (s.draws.srx s.dev.srx).2 } ∧
      r.getLsbD 0 = (s.dev.ticks 44).busy ∧ r.getLsbD s.params.welBit = s.dev.wel ∧
      ∀ i, i ≠ 0 → i ≠ s.params.welBit → r.getLsbD i = (s.draws.srx s.dev.srx).1.getLsbD i

/-- `WriteEnable` (R152, R76, R82): the frame `S >06 D`; the latch is set exactly when DEV is not busy as CS rises (log 16). DEV's note of
BUSY as CS fell is log 15, its clock logs 7 and 35. -/
def Obligations.WriteEnableSetsLatch : Prop :=
  ∀ s : State, s.Accepts →
    exec .writeEnable s = .next { s with
      cs := true, sck := false, di := false, sr := 0, bitcnt := 0, bufRef := none, err := .ok, ret := none
      trace := s.trace ++ opcodeFrameEvents s.params 0x06
      dev := { s.dev.ticks 46 with
        frame := [], heardBusy := (s.dev.ticks 2).busy, wel := if (s.dev.ticks 44).busy then s.dev.wel else true } }

/-- `WriteDisable` (R153, R77, R82): the frame `S >04 D`; the latch is cleared exactly when DEV is not busy as CS rises (log 16). DEV's note
of BUSY as CS fell is log 15, its clock logs 7 and 35. -/
def Obligations.WriteDisableClearsLatch : Prop :=
  ∀ s : State, s.Accepts →
    exec .writeDisable s = .next { s with
      cs := true, sck := false, di := false, sr := 0, bitcnt := 0, bufRef := none, err := .ok, ret := none
      trace := s.trace ++ opcodeFrameEvents s.params 0x04
      dev := { s.dev.ticks 46 with
        frame := [], heardBusy := (s.dev.ticks 2).busy, wel := if (s.dev.ticks 44).busy then s.dev.wel else false } }

/-- `WaitUntilReady` up to its first sample (R151): the opcode 0x05, one sample with no clock pulse; READY_LEVEL ends it well,
POLL_LIMIT = some 1 ends it with DeviceTimeout behind its deselect, else it goes on waiting (one poll a step: log 1). The sample is
BUSY under the premise of R75, else a draw (log 11). DEV's note of BUSY as CS fell is log 15. -/
def Obligations.WaitUntilReadyFirstPoll : Prop :=
  ∀ s : State, s.Accepts →
    ∃ (b : Bool) (w : Draws),
      (exec .waitUntilReady s =
        if b = s.params.readyLevel then
          .next { s with
            cs := true, sck := false, di := true, sr := 0, bitcnt := 0, pollcnt := 1, bufRef := none, err := .ok, ret := none
            trace := s.trace ++ selectEvents s.params ++ sendEvents 0x05 ++ [.sample b] ++ deselectEvents s.params
            dev := { s.dev.ticks 47 with frame := [], heardBusy := (s.dev.ticks 2).busy }, draws := w }
        else if s.params.pollLimit = some 1 then
          .next { s with
            cs := true, sck := false, di := true, sr := 0, bitcnt := 0, pollcnt := 1, bufRef := none, err := .deviceTimeout, ret := none
            trace := s.trace ++ selectEvents s.params ++ sendEvents 0x05 ++ [.sample b] ++ deselectEvents s.params
            dev := { s.dev.ticks 47 with frame := [], heardBusy := (s.dev.ticks 2).busy }, draws := w }
        else
          .next { s with
            cs := false, sck := false, di := true, sr := 0, bitcnt := 0, pollcnt := 1, ph := .dataPhase
            opr := some .waitUntilReady
            trace := s.trace ++ selectEvents s.params ++ sendEvents 0x05 ++ [.sample b]
            dev := { s.dev.ticks 44 with frame := bitsOfByte 0x05, heardBusy := (s.dev.ticks 2).busy }, draws := w }) ∧
      (s.params.rawPollShowsBusy = true → w = s.draws ∧ (b = s.params.readyLevel ↔ (s.dev.ticks 44).busy = false)) ∧
      (s.params.rawPollShowsBusy = false → b = s.draws.level.1 ∧ w = s.draws.level.2)

/-- `WaitUntilReady` of a device that is ready when the first sample is taken, under the premise of R75 (log 11): `S >05 ~r D` with
r = READY_LEVEL, OK, for every POLL_LIMIT (R151). DEV's note of BUSY as CS fell is log 15. -/
def Obligations.WaitUntilReadyReturns : Prop :=
  ∀ s : State, s.Accepts → s.params.rawPollShowsBusy = true → (s.dev.ticks 44).busy = false →
    exec .waitUntilReady s = .next { s with
      cs := true, sck := false, di := true, sr := 0, bitcnt := 0, pollcnt := 1, bufRef := none, err := .ok, ret := none
      trace := s.trace ++ selectEvents s.params ++ sendEvents 0x05 ++ [.sample s.params.readyLevel] ++ deselectEvents s.params
      dev := { s.dev.ticks 47 with frame := [], heardBusy := (s.dev.ticks 2).busy } }

/-! ### The data commands -/

/-- The range check (R172, R211): an address or a range outside the array ends the four addressed operations with InvalidArgument
before anything happens: no event, no line, no buffer, nothing in DEV. Nothing else raises it. A buffer too short for the length is
R251's. -/
def Obligations.RangeFaults : Prop :=
  (∀ (a : Addr) (s : State), s.Accepts →
    (∀ (n : Len) (r : BufRef), n.toNat ≤ bufferRoom s.bufs r → Config.flashSize ≤ a.toNat ∨ Config.flashSize < a.toNat + n.toNat →
      exec (.readBlock a n r) s =
        .next { s with addr := a, len := n, bufRef := none, err := .invalidArgument, ret := none } ∧
      exec (.writeBlock a r n) s =
        .next { s with addr := a, len := n, bufRef := none, err := .invalidArgument, ret := none }) ∧
    (Config.flashSize ≤ a.toNat →
      (∀ v, exec (.writeByte a v) s =
        .next { s with addr := a, val := v, bufRef := none, err := .invalidArgument, ret := none }) ∧
      exec (.eraseBlock a) s = .next { s with addr := a, bufRef := none, err := .invalidArgument, ret := none })) ∧
  (∀ (i : Instr) (s t : State), exec i s = .next t → t.opr = none → t.err = .invalidArgument →
    (∃ a n r, (i = .readBlock a n r ∨ i = .writeBlock a r n) ∧
      (Config.flashSize ≤ a.toNat ∨ Config.flashSize < a.toNat + n.toNat)) ∨
    ∃ a, ((∃ v, i = .writeByte a v) ∨ i = .eraseBlock a) ∧ Config.flashSize ≤ a.toNat) ∧
  (∀ (op : Op) (s t : State), s.opr = some op → inRange s.addr s.len.toNat = true ∨ op ≠ .writeBlock → step s = .next t →
    t.opr = none → t.err ≠ .invalidArgument)

/-- Address arithmetic in WriteBlock (R113): the address of byte i is addr + i as natural numbers; the range check keeps it below
2^22, so that it fits the 24-bit field. -/
def Obligations.ByteAddressFits : Prop :=
  ∀ (a : Addr) (n i : Len), inRange a n.toNat = true → i.toNat < n.toNat →
    (byteAddr a i).toNat = a.toNat + i.toNat ∧ a.toNat + i.toNat < 2 ^ 22

/-- `ReadBlock` (R170) for any device: one frame `S >03 >a2 >a1 >a0 <r0 .. D`, the bytes received stored in order, the rest of the
buffers as before (log 4), nothing in DEV changed but its clock (R68), the emptied FRAME and its note of BUSY as CS fell (log 15). -/
def Obligations.ReadBlockFillsBuffer : Prop :=
  ∀ (a : Addr) (n : Len) (r : BufRef) (s : State), s.Accepts → n.toNat ≤ bufferRoom s.bufs r → a.toNat < Config.flashSize →
    a.toNat + n.toNat ≤ Config.flashSize →
    ∃ (rs : List Byte) (w : Draws),
      rs.length = n.toNat ∧
      exec (.readBlock a n r) s = .next { s with
        cs := true, sck := false, di := a.getLsbD 0, sr := rs.getLastD 0, bitcnt := 0, addr := a, len := n, idx := n
        bufs := bufferStore s.bufs r rs, bufRef := none, err := .ok, ret := none, trace := s.trace ++ readFrameEvents s.params a rs
        dev := { s.dev.ticks (166 + 40 * n.toNat) with frame := [], heardBusy := (s.dev.ticks 2).busy }, draws := w } ∧
      ∀ (q : BufRef) k, bufferGet (bufferStore s.bufs r rs) q k = if q = r ∧ k < n.toNat then rs.getD k 0 else bufferGet s.bufs q k

/-- `ReadBlock` of a ready device returns the array: buf[j] = MEM[addr + j] (R62, R79, R170), and no free value is taken. That DEV is
heard ready from the fall of CS on is log 15. -/
def Obligations.ReadBlockReturnsArray : Prop :=
  ∀ (a : Addr) (n : Len) (r : BufRef) (s t : State), s.Accepts → s.dev.busy = false → n.toNat ≤ bufferRoom s.bufs r →
    a.toNat < Config.flashSize → a.toNat + n.toNat ≤ Config.flashSize → exec (.readBlock a n r) s = .next t →
    (∀ j, j < n.toNat → bufferGet t.bufs r j = s.dev.read (a.toNat + j)) ∧
      t.trace = s.trace ++ readFrameEvents s.params a ((List.range n.toNat).map fun j => s.dev.read (a.toNat + j)) ∧
      t.draws = s.draws ∧ ∀ b, t.dev.read b = s.dev.read b

/-- `WriteByte` (R171): the frames `S >06 D  S >02 >a2 >a1 >a0 >v D`, for any device; no other byte of the array changes. With DEV
ready the byte is programmed (R80), the latch is left set (R85) and a busy cycle of drawn length has begun (R84: log 7); with DEV
busy throughout, both frames are ignored (R82). -/
def Obligations.WriteByteProgramsOneByte : Prop :=
  ∀ (a : Addr) (v : Byte) (s : State), s.Accepts → a.toNat < Config.flashSize →
    ∃ (d : Dev) (w : Draws),
      exec (.writeByte a v) s = .next { s with
        cs := true, sck := false, di := v.getLsbD 0, sr := 0, bitcnt := 0, addr := a, val := v, bufRef := none, err := .ok, ret := none
        trace := s.trace ++ opcodeFrameEvents s.params 0x06 ++ addressDataFrameEvents s.params 0x02 a v
        dev := d, draws := w } ∧
      d.frame = [] ∧ d.srx = s.dev.srx ∧ (∀ b, b ≠ a.toNat → d.read b = s.dev.read b) ∧
      (s.dev.busy = false →
        d.wel = true ∧ d.read a.toNat = programFn (s.dev.read a.toNat) v ∧ (s.dev.read a.toNat = 0xFF → d.read a.toNat = v) ∧
          w = s.draws.latency.2 ∧
          d.busy = stillBusy s.draws.latency.1 2) ∧
      (s.dev.BusyFor 250 → d.mem = s.dev.mem ∧ d.wel = s.dev.wel ∧ w = s.draws ∧ d.busy = (s.dev.ticks 252).busy)

/-! ### The composite commands -/

/-- `WriteStatus` (R190) up to the end of its status-write frame, in every mode, for any device: VAL, the two frames
`S >06 D  S >01 >v D` first on the trace, no byte of the array changed; ADDR, LEN, DIR, the buffers and the parameters stay. With
WRSR_WAIT = none the command is complete, for any device (R193): its closing `S >04 D` is sent too. With DEV ready at the start that
frame clears the latch exactly when the cycle the write began (log 7) is over as CS rises (R78, R82: log 16). -/
def Obligations.WriteStatusWrites : Prop :=
  ∀ (v : Byte) (s : State), s.Accepts →
    ∃ t,
      exec (.writeStatus v) s = .next t ∧ t.val = v ∧
      s.trace ++ opcodeFrameEvents s.params 0x06 ++ dataFrameEvents s.params 0x01 v <+: t.trace ∧
      (∀ b, t.dev.read b = s.dev.read b) ∧
      t.addr = s.addr ∧ t.len = s.len ∧ t.idx = s.idx ∧ t.dir = s.dir ∧ t.bufs = s.bufs ∧ t.params = s.params ∧
      (s.params.wrsrWait = .none →
        ∃ (d : Dev) (w : Draws),
          t = { s with
            cs := true, sck := false, di := false, sr := 0, bitcnt := 0, val := v, bufRef := none, err := .ok, ret := none
            trace := s.trace ++ opcodeFrameEvents s.params 0x06 ++ dataFrameEvents s.params 0x01 v ++
              opcodeFrameEvents s.params 0x04
            dev := d, draws := w } ∧
          (s.dev.busy = false → d.wel = stillBusy (Draws.latency { s.draws with count := s.draws.count + 1 }).1 46))

/-- `EraseBlock` (R191) up to the end of its erase frame, in every mode, for any device: ADDR, the two frames `S >06 D
S >D8 >a2 >a1 >a0 D` first on the trace, the address unchanged on the wire, no byte outside the block changed (R65); with DEV ready
every byte of the block is 0xFF (R81), for every BLOCK_SIZE. With ERASE_WAIT = none the command is complete, for any device (R193).
With DEV ready at the start the closing frame clears the latch exactly when the cycle the erase began (log 7) is over as CS rises
(R82: log 16). -/
def Obligations.EraseBlockErases : Prop :=
  ∀ (a : Addr) (s : State), s.Accepts → a.toNat < Config.flashSize →
    ∃ t,
      exec (.eraseBlock a) s = .next t ∧ t.addr = a ∧
      s.trace ++ opcodeFrameEvents s.params 0x06 ++ addressFrameEvents s.params 0xD8 a <+: t.trace ∧
      (∀ b, b / s.params.blockSize ≠ a.toNat / s.params.blockSize → t.dev.read b = s.dev.read b) ∧
      (s.dev.busy = false → ∀ b, b / s.params.blockSize = a.toNat / s.params.blockSize → t.dev.read b = 0xFF) ∧
      t.len = s.len ∧ t.val = s.val ∧ t.idx = s.idx ∧ t.dir = s.dir ∧ t.bufs = s.bufs ∧ t.params = s.params ∧
      (s.params.eraseWait = .none →
        ∃ (d : Dev) (w : Draws),
          t = { s with
            cs := true, sck := false, di := false, sr := 0, bitcnt := 0, addr := a, bufRef := none, err := .ok, ret := none
            trace := s.trace ++ opcodeFrameEvents s.params 0x06 ++ addressFrameEvents s.params 0xD8 a ++
              opcodeFrameEvents s.params 0x04
            dev := d, draws := w } ∧
          (s.dev.busy = false → d.wel = stillBusy s.draws.latency.1 46))

/-- The first poll of WriteStatus's and EraseBlock's wait (R193, R194, R151), for any device and in all its outcomes. A status poll:
bit 0 clear sends `S >04 D` and ends OK, bit 0 set ends with DeviceTimeout when POLL_LIMIT = some 1 (R212, R217), else the command
waits. A raw poll: the same with READY_LEVEL, the frame closed when the wait ends. That the wait goes on in the next step is log 1;
what the sample shows of BUSY is log 11, the instant of the status byte log 14. -/
def Obligations.CompletionWaitFirstPoll : Prop :=
  ∀ (i : Instr) (s : State) (frames : List Event) (mode : WaitMode), s.Accepts →
    (∃ v, i = .writeStatus v ∧ mode = s.params.wrsrWait ∧
        frames = opcodeFrameEvents s.params 0x06 ++ dataFrameEvents s.params 0x01 v) ∨
      (∃ a : Addr, i = .eraseBlock a ∧ a.toNat < Config.flashSize ∧ mode = s.params.eraseWait ∧
        frames = opcodeFrameEvents s.params 0x06 ++ addressFrameEvents s.params 0xD8 a) →
    (mode = .pollStatus →
      ∃ r t,
        exec i s = .next t ∧ t.st = r ∧ t.pollcnt = 1 ∧ t.ph = .idle ∧ t.cs = true ∧ t.sck = false ∧
        (s.dev.Dead → r.getLsbD 0 = true) ∧
        (r.getLsbD 0 = false →
          t.opr = none ∧ t.err = .ok ∧
            t.trace = s.trace ++ frames ++ statusFrameEvents s.params r ++ opcodeFrameEvents s.params 0x04) ∧
        (r.getLsbD 0 = true → s.params.pollLimit = some 1 →
          t.opr = none ∧ t.err = .deviceTimeout ∧ t.trace = s.trace ++ frames ++ statusFrameEvents s.params r) ∧
        (r.getLsbD 0 = true → s.params.pollLimit ≠ some 1 →
          t.opr = some i.op ∧ t.trace = s.trace ++ frames ++ statusFrameEvents s.params r)) ∧
    (mode = .waitUntilReady →
      ∃ b t,
        exec i s = .next t ∧ t.pollcnt = 1 ∧ t.st = s.st ∧ t.sck = false ∧
        (s.params.rawPollShowsBusy = true → s.dev.Dead → b ≠ s.params.readyLevel) ∧
        (b = s.params.readyLevel →
          t.opr = none ∧ t.err = .ok ∧ t.ph = .idle ∧ t.cs = true ∧
            t.trace = s.trace ++ frames ++ selectEvents s.params ++ sendEvents 0x05 ++ [.sample b] ++ deselectEvents s.params ++
              opcodeFrameEvents s.params 0x04) ∧
        (b ≠ s.params.readyLevel → s.params.pollLimit = some 1 →
          t.opr = none ∧ t.err = .deviceTimeout ∧ t.ph = .idle ∧ t.cs = true ∧
            t.trace = s.trace ++ frames ++ selectEvents s.params ++ sendEvents 0x05 ++ [.sample b] ++ deselectEvents s.params) ∧
        (b ≠ s.params.readyLevel → s.params.pollLimit ≠ some 1 →
          t.opr = some i.op ∧ t.ph = .dataPhase ∧ t.cs = false ∧
            t.trace = s.trace ++ frames ++ selectEvents s.params ++ sendEvents 0x05 ++ [.sample b]))

/-- The three ways EraseBlock's wait can go well at its first poll (R193): nothing, one raw sample of READY_LEVEL, one status frame
with bit 0 clear. The command then ends OK behind its WriteDisable, DEV ready, the latch clear, the block 0xFF (R191, R81, R77). The
premise is that the busy cycle ends before the poll is answered, 46 events after it began (R84: log 7; the ninth edge of a status
poll: log 14), and R75 for a raw poll (log 11). In mode none the WriteDisable may begin while DEV is busy and is accepted as CS rises
(log 16). -/
def Obligations.EraseBlockCompletes : Prop :=
  ∀ (a : Addr) (s : State) (k : Nat), s.Accepts → a.toNat < Config.flashSize → s.dev.busy = false →
    s.draws.latency.1 = some k → k < 46 → (s.params.eraseWait = .waitUntilReady → s.params.rawPollShowsBusy = true) →
    ∃ (r : Byte) (d : Dev) (w : Draws),
      exec (.eraseBlock a) s = .next { s with
        cs := true, sck := false, di := false, sr := 0, bitcnt := 0, addr := a, bufRef := none, err := .ok, ret := none
        pollcnt := if s.params.eraseWait = .none then s.pollcnt else 1
        st := if s.params.eraseWait = .pollStatus then r else s.st
        trace := s.trace ++ opcodeFrameEvents s.params 0x06 ++ addressFrameEvents s.params 0xD8 a ++
          waitEvents s.params r s.params.eraseWait ++ opcodeFrameEvents s.params 0x04
        dev := d, draws := w } ∧
      busyBit r = false ∧ d.busy = false ∧ d.wel = false ∧ d.srx = s.dev.srx ∧
      ∀ b, d.read b = if b / s.params.blockSize = a.toNat / s.params.blockSize then 0xFF else s.dev.read b

/-- The same for WriteStatus and WRSR_WAIT (R190, R193): logs 7, 11, 14 and 16 as there. -/
def Obligations.WriteStatusCompletes : Prop :=
  ∀ (v : Byte) (s : State) (k : Nat), s.Accepts → s.dev.busy = false →
    (Draws.latency { s.draws with count := s.draws.count + 1 }).1 = some k → k < 46 →
    (s.params.wrsrWait = .waitUntilReady → s.params.rawPollShowsBusy = true) →
    ∃ (r : Byte) (d : Dev) (w : Draws),
      exec (.writeStatus v) s = .next { s with
        cs := true, sck := false, di := false, sr := 0, bitcnt := 0, val := v, bufRef := none, err := .ok, ret := none
        pollcnt := if s.params.wrsrWait = .none then s.pollcnt else 1
        st := if s.params.wrsrWait = .pollStatus then r else s.st
        trace := s.trace ++ opcodeFrameEvents s.params 0x06 ++ dataFrameEvents s.params 0x01 v ++
          waitEvents s.params r s.params.wrsrWait ++ opcodeFrameEvents s.params 0x04
        dev := d, draws := w } ∧
      busyBit r = false ∧ d.busy = false ∧ d.wel = false ∧ ∀ b, d.read b = s.dev.read b

/-- `WriteBlock` with n = 0 (R192): only the closing `S >04 D`, for any device; no byte of the array changes. The latch is cleared
exactly when DEV is not busy as CS rises (log 16). DEV's note of BUSY as CS fell is log 15. -/
def Obligations.WriteBlockEmpty : Prop :=
  ∀ (a : Addr) (r : BufRef) (s : State), s.Accepts → a.toNat < Config.flashSize →
    exec (.writeBlock a r 0) s = .next { s with
      cs := true, sck := false, di := false, sr := 0, bitcnt := 0, addr := a, len := 0, idx := 0
      bufRef := none, err := .ok, ret := none, trace := s.trace ++ opcodeFrameEvents s.params 0x04
      dev := { s.dev.ticks 46 with
        frame := [], heardBusy := (s.dev.ticks 2).busy, wel := if (s.dev.ticks 44).busy then s.dev.wel else false } }

/-- `WriteBlock` of at least one byte up to its first poll (R192, R194), for any device: `S >06 D`, the program frame of buf[0] at
addr, the delay T_PROGRAM and one status frame `S >05 <r D`, first on the trace. Bit 0 of r set ends it with DeviceTimeout when
POLL_LIMIT = some 1, nothing else sent (R212, R217), else it waits; bit 0 clear goes on with the next byte, or ends it behind
`S >04 D`. That the wait goes on in the next step is log 1. -/
def Obligations.WriteBlockFirstByte : Prop :=
  ∀ (a : Addr) (r : BufRef) (n : Len) (s : State), s.Accepts → n ≠ 0 → n.toNat ≤ bufferRoom s.bufs r → a.toNat < Config.flashSize →
    a.toNat + n.toNat ≤ Config.flashSize →
    ∃ (x : Byte) (sent : List Event) (t : State),
      sent = s.trace ++ opcodeFrameEvents s.params 0x06 ++ addressDataFrameEvents s.params 0x02 a (bufferGet s.bufs r 0) ++
        [.delayUs s.params.tProgram] ++ statusFrameEvents s.params x ∧
      exec (.writeBlock a r n) s = .next t ∧ sent <+: t.trace ∧ t.addr = a ∧ t.len = n ∧ t.ph = .idle ∧ t.cs = true ∧
      t.sck = false ∧
      (s.dev.Dead → x.getLsbD 0 = true) ∧
      (x.getLsbD 0 = true → t.idx = 0 ∧ t.val = bufferGet s.bufs r 0 ∧ t.pollcnt = 1 ∧ t.st = x ∧ t.trace = sent) ∧
      (x.getLsbD 0 = true → s.params.pollLimit = some 1 → t.opr = none ∧ t.err = .deviceTimeout) ∧
      (x.getLsbD 0 = true → s.params.pollLimit ≠ some 1 → t.opr = some .writeBlock ∧ t.bufRef = some r) ∧
      (x.getLsbD 0 = false → n = 1 →
        t.opr = none ∧ t.err = .ok ∧ t.idx = 1 ∧ t.trace = sent ++ opcodeFrameEvents s.params 0x04) ∧
      (x.getLsbD 0 = false → n ≠ 1 →
        1 ≤ t.idx.toNat ∧
          sent ++ opcodeFrameEvents s.params 0x06 ++
            addressDataFrameEvents s.params 0x02 (BitVec.ofNat 24 (a.toNat + 1)) (bufferGet s.bufs r 1) ++
            [.delayUs s.params.tProgram] <+: t.trace)

/-- `WriteBlock` (R192, R62) of a ready device whose busy cycles end before their first poll is answered, 47 events after they begin
(R84: log 7; the ninth edge of the poll: log 14): for each byte in turn the two frames of WriteByte at addr + i (R113), the delay,
one status frame with bit 0 clear; then `S >04 D`. Every byte is programmed (R80), no other byte changes, DEV is ready and the latch
clear. -/
def Obligations.WriteBlockProgramsAll : Prop :=
  ∀ (a : Addr) (r : BufRef) (n : Len) (s : State) (ls : List Nat) (more : List (Option Nat)), s.Accepts → s.dev.busy = false →
    n ≠ 0 → n.toNat ≤ bufferRoom s.bufs r → a.toNat < Config.flashSize → a.toNat + n.toNat ≤ Config.flashSize →
    s.draws.latencies = ls.map some ++ more → ls.length = n.toNat → (∀ k ∈ ls, k < 47) →
    ∃ (rs : List Byte) (d : Dev) (w : Draws),
      rs.length = n.toNat ∧ (∀ x ∈ rs, busyBit x = false) ∧
      exec (.writeBlock a r n) s = .next { s with
        cs := true, sck := false, di := false, sr := 0, bitcnt := 0, addr := a, len := n, idx := n
        val := bufferGet s.bufs r (n.toNat - 1), pollcnt := 1, st := rs.getLastD 0, bufRef := none, err := .ok, ret := none
        trace := s.trace ++
          (List.range n.toNat).flatMap (fun i =>
            opcodeFrameEvents s.params 0x06 ++
              addressDataFrameEvents s.params 0x02 (BitVec.ofNat 24 (a.toNat + i)) (bufferGet s.bufs r i) ++
              [.delayUs s.params.tProgram] ++ statusFrameEvents s.params (rs.getD i 0)) ++
          opcodeFrameEvents s.params 0x04
        dev := d, draws := w } ∧
      d.busy = false ∧ d.wel = false ∧ d.srx = s.dev.srx ∧
      ∀ b, d.read b =
        if a.toNat ≤ b ∧ b < a.toNat + n.toNat then programFn (s.dev.read b) (bufferGet s.bufs r (b - a.toNat)) else s.dev.read b

/-- The frame of `WriteBlock` (R192, R67), for any device and any outcome of its waits, at its start and at every step while it
waits (log 1): no byte outside [addr, addr + n) changes, the buffers are only read and their reference is held to the end alone
(R43), and DIR, ADDR, LEN and the parameters stay. -/
def Obligations.WriteBlockFrame : Prop :=
  (∀ (a : Addr) (r : BufRef) (n : Len) (s t : State), exec (.writeBlock a r n) s = .next t →
    t.bufs = s.bufs ∧ t.dir = s.dir ∧ t.params = s.params ∧ t.commands = s.commands ∧ t.addr = a ∧ t.len = n ∧
      t.bufRef = (if t.opr = none then none else some r) ∧
      ∀ b, ¬ (a.toNat ≤ b ∧ b < a.toNat + n.toNat) → t.dev.read b = s.dev.read b) ∧
  (∀ s t : State, s.opr = some .writeBlock → inRange s.addr s.len.toNat = true → step s = .next t →
    t.bufs = s.bufs ∧ t.dir = s.dir ∧ t.params = s.params ∧ t.commands = s.commands ∧ t.addr = s.addr ∧ t.len = s.len ∧
      t.bufRef = (if t.opr = none then none else s.bufRef) ∧ ∀ b, ¬ (s.addr.toNat ≤ b ∧ b < s.addr.toNat + s.len.toNat) → t.dev.read b = s.dev.read b)

/-! ### Waits -/

/-- One more status poll of a command that waits with them (R194, R212, R216): one frame `S >05 <r D`, POLLCNT one more. With bit 0
set: DeviceTimeout when POLL_LIMIT is reached, the bus already deselected and nothing else sent (R217); else the wait goes on. With
bit 0 clear: the closing `S >04 D` and the end, for WriteStatus, EraseBlock and WriteBlock's last byte (with bytes left:
WriteBlockNextByte). That each poll is a step is log 1, the instant of bit 0 log 14, DEV's note of BUSY as CS fell log 15. -/
def Obligations.StatusPollGoesOn : Prop :=
  ∀ (op : Op) (s : State), s.opr = some op →
    ((op = .writeStatus ∧ s.params.wrsrWait = .pollStatus) ∨ (op = .eraseBlock ∧ s.params.eraseWait = .pollStatus) ∨
      op = .writeBlock) →
    ∃ r : Byte,
      r.getLsbD 0 = (s.dev.ticks 44).busy ∧
      (r.getLsbD 0 = true → (∃ l, s.params.pollLimit = some l ∧ l ≤ s.pollcnt + 1) →
        step s = .next { s with
          cs := true, sck := false, di := true, sr := r, bitcnt := 0, st := r, pollcnt := s.pollcnt + 1, ph := .idle
          opr := none, bufRef := none, err := .deviceTimeout, ret := none, trace := s.trace ++ statusFrameEvents s.params r
          dev := { s.dev.ticks 86 with frame := [], heardBusy := (s.dev.ticks 2).busy, status := r }
          draws := (s.draws.srx s.dev.srx).2 }) ∧
      (r.getLsbD 0 = true → (∀ l, s.params.pollLimit = some l → s.pollcnt + 1 < l) →
        step s = .next { s with
          cs := true, sck := false, di := true, sr := r, bitcnt := 0, st := r, pollcnt := s.pollcnt + 1, ph := .idle
          trace := s.trace ++ statusFrameEvents s.params r
          dev := { s.dev.ticks 86 with frame := [], heardBusy := (s.dev.ticks 2).busy, status := r }
          draws := (s.draws.srx s.dev.srx).2 }) ∧
      (r.getLsbD 0 = false → (op = .writeBlock → s.idx.toNat + 1 = s.len.toNat) →
        ∃ d,
          step s = .next { s with
            cs := true, sck := false, di := false, sr := 0, bitcnt := 0, st := r, pollcnt := s.pollcnt + 1, ph := .idle
            idx := if op = .writeBlock then s.idx + 1 else s.idx
            opr := none, bufRef := none, err := .ok, ret := none
            trace := s.trace ++ statusFrameEvents s.params r ++ opcodeFrameEvents s.params 0x04
            dev := d, draws := (s.draws.srx s.dev.srx).2 } ∧
          d.wel = false ∧ d.busy = false ∧ d.mem = s.dev.mem ∧ d.srx = s.dev.srx)

/-- WriteBlock after a poll that shows ready with bytes left (R192): IDX moves on, and the next byte's two frames at addr + IDX and
the delay follow at once, for any POLL_LIMIT and any device. What one step holds is log 1, the instant of the poll log 14. -/
def Obligations.WriteBlockNextByte : Prop :=
  ∀ s : State, s.opr = some .writeBlock → (s.dev.ticks 44).busy = false → inRange s.addr s.len.toNat = true →
    s.idx.toNat + 1 < s.len.toNat →
    ∃ (r : Byte) (t : State),
      r.getLsbD 0 = false ∧ step s = .next t ∧
      s.trace ++ statusFrameEvents s.params r ++ opcodeFrameEvents s.params 0x06 ++
        addressDataFrameEvents s.params 0x02 (BitVec.ofNat 24 (s.addr.toNat + (s.idx.toNat + 1)))
          (bufferGet s.bufs s.bufRef (s.idx.toNat + 1)) ++
        [.delayUs s.params.tProgram] <+: t.trace ∧
      s.idx.toNat < t.idx.toNat ∧ t.idx.toNat ≤ s.len.toNat

/-- One more raw poll of a command that waits with them (R151, R212): one sample and no other event; READY_LEVEL closes the frame and
ends WaitUntilReady; POLL_LIMIT reached closes the frame and ends the command with DeviceTimeout; else the wait goes on. That each
sample is a step is log 1, what it shows of BUSY log 11; the latch after the closing WriteDisable is log 16. -/
def Obligations.RawPollGoesOn : Prop :=
  ∀ (op : Op) (s : State), s.opr = some op → s.cs = false → s.sck = false → s.dev.frame = bitsOfBytes [0x05] →
    (op = .waitUntilReady ∨ (op = .writeStatus ∧ s.params.wrsrWait = .waitUntilReady) ∨
      (op = .eraseBlock ∧ s.params.eraseWait = .waitUntilReady)) →
    ∃ (b : Bool) (w : Draws),
      (s.params.rawPollShowsBusy = true → w = s.draws ∧ (b = s.params.readyLevel ↔ s.dev.tick.busy = false)) ∧
      (s.params.rawPollShowsBusy = false → b = s.draws.level.1 ∧ w = s.draws.level.2) ∧
      (b = s.params.readyLevel → op = .waitUntilReady →
        step s = .next { s with
          cs := true, pollcnt := s.pollcnt + 1, ph := .idle, opr := none, bufRef := none, err := .ok, ret := none
          trace := s.trace ++ [.sample b] ++ deselectEvents s.params, dev := { s.dev.ticks 4 with frame := [] }, draws := w }) ∧
      (b = s.params.readyLevel → op ≠ .waitUntilReady →
        ∃ d,
          step s = .next { s with
            cs := true, di := false, sr := 0, bitcnt := 0, pollcnt := s.pollcnt + 1, ph := .idle, opr := none, bufRef := none, err := .ok, ret := none
            trace := s.trace ++ [.sample b] ++ deselectEvents s.params ++ opcodeFrameEvents s.params 0x04
            dev := d, draws := w } ∧
          d.wel = (if (s.dev.ticks 48).busy then s.dev.wel else false) ∧ d.mem = s.dev.mem) ∧
      (b ≠ s.params.readyLevel → (∃ l, s.params.pollLimit = some l ∧ l ≤ s.pollcnt + 1) →
        step s = .next { s with
          cs := true, pollcnt := s.pollcnt + 1, ph := .idle, opr := none, bufRef := none, err := .deviceTimeout, ret := none
          trace := s.trace ++ [.sample b] ++ deselectEvents s.params, dev := { s.dev.ticks 4 with frame := [] }, draws := w }) ∧
      (b ≠ s.params.readyLevel → (∀ l, s.params.pollLimit = some l → s.pollcnt + 1 < l) →
        step s = .next { s with pollcnt := s.pollcnt + 1, trace := s.trace ++ [.sample b], dev := s.dev.tick, draws := w })

/-- The legacy hang (R213): with POLL_LIMIT = none and a dead device, a status poll never ends. After any number of steps the same
command still runs, and each step was one more frame (one poll a step: log 1). -/
def Obligations.DeadDeviceHangs : Prop :=
  ∀ (op : Op) (s : State), s.opr = some op →
    ((op = .writeStatus ∧ s.params.wrsrWait = .pollStatus) ∨ (op = .eraseBlock ∧ s.params.eraseWait = .pollStatus) ∨
      op = .writeBlock) →
    s.params.pollLimit = none → s.dev.Dead →
    ∀ n, ∃ t, core.run n s = .next t ∧ t.opr = some op ∧ t.pollcnt = s.pollcnt + n ∧ t.trace.length = s.trace.length + 86 * n

/-- The bounded wait (R212): with POLL_LIMIT = some L and a dead device, a command that has made POLLCNT < L status polls ends in
exactly L - POLLCNT steps (one poll a step: log 1), with DeviceTimeout, the bus idle and deselected, POLLCNT = L, and one frame a
poll on the trace. -/
def Obligations.DeadDeviceTimesOut : Prop :=
  ∀ (op : Op) (s : State) (l : Nat), s.opr = some op →
    ((op = .writeStatus ∧ s.params.wrsrWait = .pollStatus) ∨ (op = .eraseBlock ∧ s.params.eraseWait = .pollStatus) ∨
      op = .writeBlock) →
    s.params.pollLimit = some l → s.pollcnt < l → s.dev.Dead →
    ∃ t, core.run (l - s.pollcnt) s = .next t ∧ t.opr = none ∧ t.err = .deviceTimeout ∧ t.ph = .idle ∧ t.cs = true ∧ t.sck = false ∧
      t.pollcnt = l ∧ t.idx = s.idx ∧ t.trace.length = s.trace.length + 86 * (l - s.pollcnt) ∧
      t.dev.mem = s.dev.mem ∧ t.dev.wel = s.dev.wel

/-! ### DEV -/

/-- While DEV is dead busy, no instruction but `disable` changes the array, the latch, SRX or BUSY (R82): not its frames, not
WriteBlock's loop, not its waits. -/
def Obligations.DeadDeviceIgnoresAll : Prop :=
  (∀ (i : Instr) (s t : State), i ≠ .disable → s.dev.Dead → exec i s = .next t →
    t.dev.mem = s.dev.mem ∧ t.dev.wel = s.dev.wel ∧ t.dev.srx = s.dev.srx ∧ t.dev.Dead) ∧
  (∀ (op : Op) (s t : State), s.opr = some op → s.dev.Dead → step s = .next t →
    t.dev.mem = s.dev.mem ∧ t.dev.wel = s.dev.wel ∧ t.dev.srx = s.dev.srx ∧ t.dev.Dead)

/-- The latch persists (R85): but for `disable`, which lets another master in, nothing clears it except a frame 0x04 that DEV takes.
That frame is WriteDisable's own, HOST's own closed by a `deselect`, or the closing one of a WriteStatus, EraseBlock or WriteBlock
that has ended OK. -/
def Obligations.LatchPersists : Prop :=
  (∀ (i : Instr) (s t : State), i ≠ .disable → exec i s = .next t → s.dev.wel = true → t.dev.wel = false →
    i = .writeDisable ∨ (i = .deselect ∧ frameOfBits s.dev.frame = some .writeDisable) ∨
      (((∃ v, i = .writeStatus v) ∨ (∃ a, i = .eraseBlock a) ∨ ∃ a r n, i = .writeBlock a r n) ∧ t.opr = none ∧ t.err = .ok)) ∧
  (∀ (op : Op) (s t : State), s.opr = some op → frameOfBits s.dev.frame ≠ some .writeDisable →
    step s = .next t → s.dev.wel = true → t.dev.wel = false → op ≠ .waitUntilReady ∧ t.opr = none ∧ t.err = .ok)

/-- The status byte (R39): bit 0 is BUSY, bit WEL_BIT the latch, the six other bits the draw. -/
def Obligations.StatusByteBits : Prop :=
  ∀ (p : Params) (busy wel : Bool) (x : Byte),
    (statusByte p busy wel x).getLsbD 0 = busy ∧ (statusByte p busy wel x).getLsbD p.welBit = wel ∧
      ∀ i, i ≠ 0 → i ≠ p.welBit → (statusByte p busy wel x).getLsbD i = x.getLsbD i

/-- "eraseBlock(A) followed by readBlock(A, 256) returns 256 bytes all equal to 0xFF" (R81), for the block's first address, on a
device that is ready when EraseBlock has ended; for every BLOCK_SIZE and every length up to it, the source's 256 among them. -/
def Obligations.EraseThenRead : Prop :=
  ∀ (a : Addr) (n : Len) (r : BufRef) (s t : State), s.Accepts → s.dev.busy = false → a.toNat < Config.flashSize → a.toNat % s.params.blockSize = 0 →
    n.toNat ≤ s.params.blockSize → n.toNat ≤ bufferRoom s.bufs r → exec (.eraseBlock a) s = .next t → t.opr = none → t.err = .ok → t.dev.busy = false →
    ∃ u, exec (.readBlock a n r) t = .next u ∧ bufferBytes u.bufs r n.toNat = List.replicate n.toNat 0xFF

/-- The round trip (R80): on an erased range, `writeBlock(A, data)` of a ready device, its busy cycles over by their first poll (logs 7,
14), followed by `readBlock(A, N)` returns exactly `data`. -/
def Obligations.WriteThenRead : Prop :=
  ∀ (a : Addr) (r q : BufRef) (n : Len) (s t : State) (ls : List Nat) (more : List (Option Nat)), s.Accepts → s.dev.busy = false →
    n ≠ 0 → n.toNat ≤ bufferRoom s.bufs r → n.toNat ≤ bufferRoom s.bufs q → a.toNat < Config.flashSize →
    a.toNat + n.toNat ≤ Config.flashSize → (∀ j, j < n.toNat → s.dev.read (a.toNat + j) = 0xFF) →
    s.draws.latencies = ls.map some ++ more → ls.length = n.toNat → (∀ k ∈ ls, k < 47) → exec (.writeBlock a r n) s = .next t →
    ∃ u, exec (.readBlock a n q) t = .next u ∧ bufferBytes u.bufs q n.toNat = bufferBytes s.bufs r n.toNat

/-- The instructions that store nothing in the array leave every byte of it as it was (R42, R68), whatever DEV does meanwhile. -/
def Obligations.ArrayFrame : Prop :=
  ∀ (i : Instr) (s t : State),
    i = .select ∨ (∃ v, i = .sendByte v) ∨ i = .receiveByte ∨ (∃ n r, i = .receiveBytes n r) ∨ i = .init ∨ i = .readStatus ∨
      i = .waitUntilReady ∨ i = .writeEnable ∨ i = .writeDisable ∨ (∃ a n r, i = .readBlock a n r) ∨ (∃ v, i = .writeStatus v) →
    exec i s = .next t → ∀ b, t.dev.read b = s.dev.read b

/-! ### Encodings -/

/-- The address field (R103): ADDR[23:16], ADDR[15:8] and ADDR[7:0] go out in that order, every bit as it is, and DEV rebuilds
a2 * 65536 + a1 * 256 + a0 from them, which is ADDR again; 0x012345 goes out as 0x01, 0x23, 0x45. -/
def Obligations.AddressField : Prop :=
  (∀ (a : Addr) (s : State),
    (s.sendAddress a).trace =
      s.trace ++ sendEvents (a.extractLsb' 16 8) ++ sendEvents (a.extractLsb' 8 8) ++ sendEvents (a.extractLsb' 0 8)) ∧
  (∀ (op a2 a1 a0 : Byte) (rest : List Byte),
    (frameAddr (bitsOfBytes (op :: a2 :: a1 :: a0 :: rest))).toNat = a2.toNat * 65536 + a1.toNat * 256 + a0.toNat) ∧
  (∀ (a : Addr) (v : Byte),
    decodeFrame [0x02, a.extractLsb' 16 8, a.extractLsb' 8 8, a.extractLsb' 0 8, v] = .ok (.program a v)) ∧
  encodeFrame (.erase 0x012345) = [0xD8, 0x01, 0x23, 0x45]

/-- Decoding what HOST writes for an instruction gives that instruction back, every operand at every value (R109, R111). -/
def Obligations.PortRoundTrip : Prop := ∀ i : Instr, decode (encode i) = .ok i

/-- The port takes exactly the well-formed commands, and reads each as the one instruction that is written so (R109). -/
def Obligations.PortTakesWellFormed : Prop :=
  ∀ p : Presented, (p.wellFormed = true ↔ ∃ i, decode p = .ok i) ∧ ∀ i, decode p = .ok i → encode i = p

/-- The bits of every frame of the wire, with every address, length and byte, are read back as that frame (R101 to R104, R106). -/
def Obligations.WireRoundTrip : Prop :=
  ∀ c : FrameCmd, decodeFrame (encodeFrame c) = .ok c ∧ frameOfBits (bitsOfBytes (encodeFrame c)) = some c

/-- A frame's first byte says it all: the 249 bytes that are no opcode are refused by name whatever follows (R108), and no other
first byte is. -/
def Obligations.ReservedOpcodes : Prop :=
  ∀ (b : Byte) (rest : List Byte),
    decodeFrame (b :: rest) = .error (.reservedOpcode b) ↔
      b ≠ 0x05 ∧ b ≠ 0x06 ∧ b ≠ 0x04 ∧ b ≠ 0x01 ∧ b ≠ 0x03 ∧ b ≠ 0x02 ∧ b ≠ 0xD8

/-- A few words written out from R101 and R106. -/
def Obligations.SanityWords : Prop :=
  decodeFrame [0b00000110] = .ok .writeEnable ∧ decodeFrame [0b00000100] = .ok .writeDisable ∧
    decodeFrame [0b00000001, 0x1C] = .ok (.writeStatus 0x1C) ∧
    decodeFrame [0b00000010, 0x01, 0x23, 0x45, 0xDE] = .ok (.program 0x012345 0xDE) ∧
    decodeFrame [0b11011000, 0x01, 0x23, 0x45] = .ok (.erase 0x012345) ∧
    decodeFrame [0b00000011, 0x01, 0x23, 0x45, 0xFF, 0xFF] = .ok (.read 0x012345 2) ∧
    decodeFrame [0b00000101] = .ok .rawPoll ∧ decodeFrame [0b00000101, 0xFF] = .ok .readStatus

/-! ### The step -/

/-- A step takes HOST's next command: the instruction it decodes to runs, with that command gone from the list; one that decodes to
none is refused (R36, R109). -/
def Obligations.StepRunsCommand : Prop :=
  (∀ (i : Instr) (s : State) (rest : List Presented), s.opr = none → s.commands = encode i :: rest →
    step s = exec i { s with commands := rest }) ∧
  (∀ (p : Presented) (e : DecodeError) (s : State) (rest : List Presented), s.opr = none → s.commands = p :: rest →
    decode p = .error e → step s = .refused (.malformedCommand e)) ∧
  (∀ s : State, s.opr = none → s.commands = [] → step s = .next s)

/-- A word of the opcode table put before the machine is what the next step runs (log 2), the bus held as `init` leaves it. -/
def Obligations.StepRunsTableWord : Prop :=
  ∀ (s : State) (nbits w : Nat) (i : Instr), decodeTableWord nbits w = some i →
    step (s.withFetchWord nbits w) =
      exec i (match s.dir with
        | .master => { s with opr := none }
        | .released => { s with opr := none, dir := .master, cs := true, sck := false })

/-- No command is taken while another runs (R36). -/
def Obligations.OneCommandAtATime : Prop :=
  (∀ (i : Instr) (s : State) (op : Op), s.opr = some op → exec i s = .refused .commandRunning) ∧
  (∀ (s t : State) (op : Op), s.opr = some op → step s = .next t →
    t.commands = s.commands ∧ (t.opr = some op ∨ t.opr = none) ∧ (t.opr = none → t.ph = .idle ∧ t.cs = true ∧ t.sck = false))

/-- The bus invariant (R37, R216): from every state that satisfies the invariant, a command that ends leaves the bus deselected and
idle, with ERR its result class, whether it ended well or with a fault; of HOST's own primitives this is true of `deselect`. -/
def Obligations.CommandEndsIdle : Prop :=
  ∀ (i : Instr) (s t : State), s.Inv → exec i s = .next t → t.opr = none → t.dir = .master →
    i.op.isPrimitive = false ∨ i = .deselect → t.ph = .idle ∧ t.cs = true ∧ t.sck = false ∧ t.bitcnt = 0 ∧ t.dev.frame = []

/-- Every step keeps the invariant: the array's form, no half-moved byte, the bus idle when no command runs and no frame is open
(R37), CS low exactly while a frame is open, FRAME whole bytes, a running command in its wait with polls left (R224), no buffer
reference between commands (R43). That a frame of HOST's own is open between commands is log 27. -/
def Obligations.StepKeepsInv : Prop := ∀ s t : State, s.Inv → step s = .next t → t.Inv
end

