-- ==== Sys2Proof/Laws/Buffers.lean ====
section
/-! SUPPORT. HOST's buffers: reading a byte after writing one, and the room that stays. -/

namespace Sys2Proof.Machine

theorem bufferOf_bufferSet (bufs : List (List Byte)) (r q : Option BufRef) (j : Nat) (v : Byte) :
    bufferOf (bufferSet bufs r j v) q = if r = q then (bufferOf bufs q).set j v else bufferOf bufs q := by
  cases r with
  | none => cases q <;> simp [bufferSet, bufferOf]
  | some r =>
    cases q with
    | none => simp [bufferOf]
    | some q =>
      simp only [bufferSet, bufferOf, Option.bind_some, List.getElem?_modify, Option.some.injEq]
      split
      · cases bufs[q]? <;> simp
      · simp

/-- Writing a byte changes no buffer's length. -/
@[simp] theorem bufferRoom_bufferSet (bufs : List (List Byte)) (r q : Option BufRef) (j : Nat) (v : Byte) :
    bufferRoom (bufferSet bufs r j v) q = bufferRoom bufs q := by
  simp only [bufferRoom, bufferOf_bufferSet]
  split <;> simp

theorem bufferGet_bufferSet_same {bufs : List (List Byte)} {r : Option BufRef} {j : Nat} (h : j < bufferRoom bufs r) (v : Byte) :
    bufferGet (bufferSet bufs r j v) r j = v := by
  simp only [bufferRoom] at h
  simp [bufferGet, bufferOf_bufferSet, h]

theorem bufferGet_bufferSet_other (bufs : List (List Byte)) (r q : Option BufRef) (j k : Nat) (v : Byte) (h : r ≠ q ∨ j ≠ k) :
    bufferGet (bufferSet bufs r j v) q k = bufferGet bufs q k := by
  simp only [bufferGet, bufferOf_bufferSet]
  split
  · rename_i e
    have hk : j ≠ k := h.resolve_left (fun hne => hne e)
    simp [List.getElem?_set_ne hk]
  · rfl

/-- A run of bytes written one after the other. -/
def bufferFill (bufs : List (List Byte)) (r : Option BufRef) (i : Nat) : List Byte → List (List Byte)
  | [] => bufs
  | v :: vs => bufferFill (bufferSet bufs r i v) r (i + 1) vs

theorem modify_twice {α : Type} (l : List α) (i : Nat) (f g : α → α) : (l.modify i f).modify i g = l.modify i (g ∘ f) := by
  apply List.ext_getElem?
  intro j
  simp only [List.getElem?_modify]
  split
  · cases l[j]? <;> simp_all
  · cases l[j]? <;> simp_all

theorem modify_congr_at {α : Type} (l : List α) (i : Nat) (f g : α → α) (h : ∀ a, l[i]? = some a → f a = g a) :
    l.modify i f = l.modify i g := by
  apply List.ext_getElem?
  intro j
  simp only [List.getElem?_modify]
  split
  · rename_i e
    subst e
    cases hb : l[i]? with
    | none => rfl
    | some a => simp [h a hb]
  · rfl

theorem bufferFill_eq (bufs : List (List Byte)) (r : BufRef) (i : Nat) (vs : List Byte) (h : i + vs.length ≤ bufferRoom bufs r) :
    bufferFill bufs (some r) i vs = bufs.modify r fun b => b.take i ++ vs ++ b.drop (i + vs.length) := by
  induction vs generalizing bufs i with
  | nil =>
    simp only [bufferFill, List.append_nil, List.length_nil, Nat.add_zero, List.take_append_drop]
    exact (List.modify_id r bufs).symm
  | cons v vs ih =>
    simp only [List.length_cons] at h
    rw [bufferFill, ih _ _ (by rw [bufferRoom_bufferSet]; omega), bufferSet, modify_twice]
    refine modify_congr_at _ _ _ _ fun b hb => ?_
    have hl : i + (vs.length + 1) ≤ b.length := by simpa [bufferRoom, bufferOf, hb] using h
    have hi : i < b.length := by omega
    have ht : (b.set i v).take (i + 1) = b.take i ++ [v] := by
      rw [List.take_add_one, List.take_set_of_le (Nat.le_refl i)]
      simp [hi]
    have hd : (b.set i v).drop (i + 1 + vs.length) = b.drop (i + (vs.length + 1)) := by
      rw [List.drop_set_of_lt (by omega)]
      congr 1
      omega
    simp only [Function.comp, ht, hd, List.append_assoc, List.cons_append, List.nil_append, List.length_cons]

theorem bufferFill_zero (bufs : List (List Byte)) (r : BufRef) (vs : List Byte) (h : vs.length ≤ bufferRoom bufs r) :
    bufferFill bufs (some r) 0 vs = bufferStore bufs r vs := by
  rw [bufferFill_eq _ _ _ _ (by omega)]
  simp [bufferStore]

@[simp] theorem bufferRoom_bufferFill (bufs : List (List Byte)) (r q : Option BufRef) (i : Nat) (vs : List Byte) :
    bufferRoom (bufferFill bufs r i vs) q = bufferRoom bufs q := by
  induction vs generalizing bufs i with
  | nil => rfl
  | cons v vs ih => rw [bufferFill, ih, bufferRoom_bufferSet]

/-- The bytes stored are read back, and every other byte is as it was. -/
theorem bufferGet_bufferStore {bufs : List (List Byte)} {r : BufRef} {vs : List Byte} (h : vs.length ≤ bufferRoom bufs r)
    (q : BufRef) (k : Nat) :
    bufferGet (bufferStore bufs r vs) q k = if q = r ∧ k < vs.length then vs.getD k 0 else bufferGet bufs q k := by
  simp only [bufferGet, bufferStore, bufferOf, Option.bind_some, List.getElem?_modify]
  by_cases hq : q = r
  · subst hq
    simp only [bufferRoom, bufferOf, Option.bind_some] at h
    cases hb : bufs[q]? with
    | none =>
      simp only [hb, Option.getD_none, List.length_nil] at h
      simp [show ¬ k < vs.length by omega]
    | some b =>
      simp only [hb, Option.getD_some] at h
      by_cases hk : k < vs.length
      · simp [hk, List.getElem?_append_left hk]
      · simp [hk, List.getElem?_append_right (show vs.length ≤ k by omega), show vs.length + (k - vs.length) = k by omega]
  · simp [hq, Ne.symm hq]

end Sys2Proof.Machine
end

