-- ==== Sys2Proof/Laws/Memory.lean ====
section
/-! SUPPORT. The array: reading after writing, and that every operation keeps the canonical form. -/

namespace Sys2Proof.Machine

theorem Memory.get?_set_same (m : Memory) (a : Nat) (v : Byte) : (m.set a v).get? a = some v := by
  induction m with
  | nil => simp [Memory.set, Memory.get?]
  | cons c m ih =>
    obtain ⟨k, w⟩ := c
    simp only [Memory.set]
    split
    · simp [Memory.get?]
    · split
      · simp [Memory.get?]
      · rename_i h
        simp [Memory.get?, Ne.symm h, ih]

theorem Memory.get?_set_other (m : Memory) (a b : Nat) (v : Byte) (h : b ≠ a) : (m.set a v).get? b = m.get? b := by
  induction m with
  | nil => simp [Memory.set, Memory.get?, Ne.symm h]
  | cons c m ih =>
    obtain ⟨k, w⟩ := c
    simp only [Memory.set]
    split
    · simp [Memory.get?, Ne.symm h]
    · split
      · rename_i e
        subst e
        simp [Memory.get?, Ne.symm h]
      · simp [Memory.get?, ih]

theorem Memory.get?_set (m : Memory) (a b : Nat) (v : Byte) :
    (m.set a v).get? b = if b = a then some v else m.get? b := by
  split
  · rename_i h; rw [h, Memory.get?_set_same]
  · rename_i h; exact Memory.get?_set_other m a b v h

theorem Memory.mem_set {m : Memory} {a : Nat} {v : Byte} {c : Host.Cell} (h : c ∈ m.set a v) : c = (a, v) ∨ c ∈ m := by
  induction m with
  | nil => simpa [Memory.set] using h
  | cons d m ih =>
    obtain ⟨k, w⟩ := d
    simp only [Memory.set] at h
    split at h
    · simpa using h
    · split at h
      · rcases List.mem_cons.1 h with h | h
        · exact .inl h
        · exact .inr (List.mem_cons_of_mem _ h)
      · rcases List.mem_cons.1 h with h | h
        · exact .inr (h ▸ List.mem_cons_self)
        · exact (ih h).imp id (List.mem_cons_of_mem _)

theorem Memory.wf_set {m : Memory} (hm : m.wf) {a : Nat} (ha : a < Config.flashSize) (v : Byte) : (m.set a v).wf := by
  refine ⟨?_, fun c hc => ?_⟩
  · obtain ⟨hp, -⟩ := hm
    induction m with
    | nil => simp [Memory.set]
    | cons d m ih =>
      obtain ⟨k, w⟩ := d
      obtain ⟨hk, hm⟩ := List.pairwise_cons.1 hp
      simp only [Memory.set]
      split
      · rename_i h
        refine List.pairwise_cons.2 ⟨fun c hc => ?_, hp⟩
        rcases List.mem_cons.1 hc with rfl | hc
        · exact h
        · exact Nat.lt_trans h (hk c hc)
      · split
        · rename_i h
          exact List.pairwise_cons.2 ⟨fun c hc => by subst h; exact hk c hc, hm⟩
        · refine List.pairwise_cons.2 ⟨fun c hc => ?_, ih hm⟩
          rcases Memory.mem_set hc with rfl | hc
          · show k < a; omega
          · exact hk c hc
  · rcases Memory.mem_set hc with rfl | hc
    · exact ha
    · exact hm.2 c hc

theorem Memory.get?_erase (m : Memory) (base count a : Nat) :
    (m.erase base count).get? a = if base ≤ a ∧ a < base + count then some 0xFF else m.get? a := by
  induction count with
  | zero =>
    rw [if_neg (by omega)]
    rfl
  | succ n ih =>
    rw [Memory.erase, Memory.get?_set, ih]
    split
    · rw [if_pos (by omega)]
    · split
      · rw [if_pos (by omega)]
      · rw [if_neg (by omega)]

theorem Memory.wf_erase {m : Memory} (hm : m.wf) (base : Nat) :
    ∀ count, base + count ≤ Config.flashSize → (m.erase base count).wf
  | 0, _ => hm
  | n + 1, h => Memory.wf_set (Memory.wf_erase hm base n (by omega)) (by omega) _

theorem Memory.wf_writeAll {m : Memory} (hm : m.wf) (ws : List (Nat × Byte)) : (m.writeAll ws).wf := by
  induction ws generalizing m with
  | nil => exact hm
  | cons w ws ih =>
    refine ih ?_
    split
    · rename_i h; exact Memory.wf_set hm h _
    · exact hm

theorem blockSize_pos (p : Params) : 0 < p.blockSize := Nat.two_pow_pos _

/-- The array is a whole number of blocks (20_memory.md R69). -/
theorem blockSize_dvd (p : Params) : p.blockSize ∣ Config.flashSize :=
  show 2 ^ p.blockLog.val ∣ 2 ^ 22 from pow_dvd_pow 2 (Nat.le_of_lt_succ p.blockLog.isLt)

/-- An address lies in a block exactly when it has the block's number (20_memory.md R65). -/
theorem mem_block_iff (p : Params) (a b : Nat) :
    (blockBase p a ≤ b ∧ b < blockBase p a + p.blockSize) ↔ b / p.blockSize = a / p.blockSize := by
  have hp := blockSize_pos p
  have hb : blockBase p a = p.blockSize * (a / p.blockSize) := by
    have := Nat.div_add_mod a p.blockSize
    simp only [blockBase]; omega
  rw [hb, Nat.div_eq_iff hp]
  constructor
  · rintro ⟨h1, h2⟩; rw [Nat.mul_comm] at h1 h2; omega
  · rintro ⟨h1, h2⟩; rw [Nat.mul_comm (p.blockSize)]; omega

/-- The erase block of an address of the array lies in the array (20_memory.md R65). -/
theorem blockBase_le (p : Params) {a : Nat} (h : a < Config.flashSize) : blockBase p a + p.blockSize ≤ Config.flashSize := by
  obtain ⟨k, hk⟩ := blockSize_dvd p
  have hp := blockSize_pos p
  have hb : blockBase p a = p.blockSize * (a / p.blockSize) := by
    have := Nat.div_add_mod a p.blockSize
    simp only [blockBase]; omega
  have hlt : a / p.blockSize < k := Nat.div_lt_of_lt_mul (hk ▸ h)
  rw [hb, hk, ← Nat.mul_succ]
  exact Nat.mul_le_mul_left _ hlt

/-- The byte a program or erase reaches is a byte of the array. -/
theorem Draws.target_lt {d : Draws} {a : Addr} {x : Nat} (h : (d.target a).1 = some x) : x < Config.flashSize := by
  simp only [Draws.target] at h
  split at h
  · injection h with h; omega
  · cases ht : Config.outsideTarget a d.count with
    | none => simp [ht] at h
    | some y =>
      simp only [ht, Option.map_some, Option.some.injEq] at h
      have := y.isLt
      subst h; exact this

theorem Draws.target_inside {a : Addr} (h : a.toNat < Config.flashSize) (d : Draws) : d.target a = (some a.toNat, d) := if_pos h

/-- A program or an erase keeps the canonical form. -/
theorem Dev.wf_programmed {d : Dev} (h : d.mem.wf) {x : Option Nat} (hx : ∀ y, x = some y → y < Config.flashSize) (v : Byte) :
    (d.programmed x v).wf := by
  cases x with
  | none => exact h
  | some y => exact Memory.wf_set h (hx y rfl) _

theorem Dev.wf_erased {d : Dev} (h : d.mem.wf) (p : Params) {x : Option Nat} (hx : ∀ y, x = some y → y < Config.flashSize) :
    (d.erased p x).wf := by
  cases x with
  | none => exact h
  | some y => exact Memory.wf_erase h _ _ (blockBase_le p (hx y rfl))

/-- Reading one byte after writing one. -/
theorem Dev.read_set (d : Dev) (a b : Nat) (v : Byte) :
    Dev.read { d with mem := d.mem.set a v } b = if b = a then v else d.read b := by
  simp only [Dev.read, Memory.get?_set]
  split <;> rfl

/-- Reading one byte after an erase. -/
theorem Dev.read_erase (d : Dev) (base count b : Nat) :
    Dev.read { d with mem := d.mem.erase base count } b = if base ≤ b ∧ b < base + count then 0xFF else d.read b := by
  simp only [Dev.read, Memory.get?_erase]
  split <;> rfl

/-- Reading one byte after the erase of a block (20_memory.md R65, R81). -/
theorem Dev.read_eraseBlock (d : Dev) (p : Params) (a b : Nat) :
    Dev.read { d with mem := d.mem.erase (blockBase p a) p.blockSize } b =
      if b / p.blockSize = a / p.blockSize then 0xFF else d.read b := by
  rw [Dev.read_erase]
  simp only [mem_block_iff]

/-- Reading one byte after a program of the byte reached, if there is one (20_memory.md R80). -/
theorem Dev.read_programmed (d : Dev) (x : Option Nat) (v : Byte) (b : Nat) :
    Dev.read { d with mem := d.programmed x v } b =
      match x with
      | some x => if b = x then programFn (d.read x) v else d.read b
      | none => d.read b := by
  cases x with
  | none => rfl
  | some x => exact Dev.read_set d x b _

/-- Reading one byte after an erase of the block of the byte reached, if there is one (20_memory.md R81). -/
theorem Dev.read_erased (d : Dev) (p : Params) (x : Option Nat) (b : Nat) :
    Dev.read { d with mem := d.erased p x } b =
      match x with
      | some x => if b / p.blockSize = x / p.blockSize then 0xFF else d.read b
      | none => d.read b := by
  cases x with
  | none => rfl
  | some x => exact Dev.read_eraseBlock d p x b

end Sys2Proof.Machine
end

