-- ==== Sys2Proof/Laws/Wire.lean ====
section
/-! SUPPORT. Bits and bytes on the wire: splitting and rebuilding a byte, a list of bytes, an address. -/

namespace Sys2Proof

theorem bitsOfByte_length (v : Byte) : (bitsOfByte v).length = 8 := rfl

theorem shiftIn_getLsbD (b : Byte) (x : Bool) (i : Nat) (hi : i < 8) :
    (shiftIn b x).getLsbD i = if i = 0 then x else b.getLsbD (i - 1) := by
  rcases i with _ | i
  · cases x <;> simp [shiftIn]
  · have h : i < 8 := by omega
    cases x <;> simp [shiftIn, hi, ← BitVec.getLsbD_eq_getElem h]

/-- Eight shifts push out every old bit of the shift register (40_bus_primitives.md R133). -/
theorem foldl_shiftIn_bits (x v : Byte) : (bitsOfByte v).foldl shiftIn x = v := by
  refine BitVec.eq_of_getLsbD_eq fun i hi => ?_
  simp only [bitsOfByte, List.foldl_cons, List.foldl_nil]
  rcases i with _ | _ | _ | _ | _ | _ | _ | _ | i
  all_goals first
    | omega
    | simp (disch := omega) only [shiftIn_getLsbD, Nat.add_one_ne_zero, if_true, if_false, Nat.add_sub_cancel, Nat.zero_add]

theorem byteOfBits_bitsOfByte (v : Byte) : byteOfBits (bitsOfByte v) = v := foldl_shiftIn_bits 0 v

theorem bitsOfBytes_cons (v : Byte) (vs : List Byte) : bitsOfBytes (v :: vs) = bitsOfByte v ++ bitsOfBytes vs := rfl

theorem bitsOfBytes_append (vs ws : List Byte) : bitsOfBytes (vs ++ ws) = bitsOfBytes vs ++ bitsOfBytes ws := by
  simp [bitsOfBytes]

theorem bitsOfBytes_length (vs : List Byte) : (bitsOfBytes vs).length = 8 * vs.length := by
  induction vs with
  | nil => rfl
  | cons v vs ih => rw [bitsOfBytes_cons, List.length_append, ih, bitsOfByte_length, List.length_cons]; omega

/-- Whole bytes are rebuilt from their bits (20_memory.md R60). -/
theorem bytesOfBits_bitsOfBytes (vs : List Byte) : bytesOfBits (bitsOfBytes vs) = some vs := by
  induction vs with
  | nil => rfl
  | cons v vs ih =>
    have h := byteOfBits_bitsOfByte v
    rw [bitsOfBytes_cons]
    simp only [bitsOfByte, List.cons_append, List.nil_append, bytesOfBits, ih, Option.map_some]
    exact congrArg (fun b => some (b :: vs)) h

/-- Bits that are whole bytes are the bits of those bytes. -/
theorem bitsOfBytes_of_bytesOfBits : ∀ {bits : List Bool} {vs : List Byte}, bytesOfBits bits = some vs → bits = bitsOfBytes vs := by
  intro bits
  fun_induction bytesOfBits bits with
  | case1 => intro vs h; cases h; rfl
  | case2 a b c d e f g k rest ih =>
    intro vs h
    cases hr : bytesOfBits rest with
    | none => simp [hr] at h
    | some ws =>
      obtain rfl : byteOfBits [a, b, c, d, e, f, g, k] :: ws = vs := by simpa [hr] using h
      rw [bitsOfBytes_cons, ← ih hr]
      cases a <;> cases b <;> cases c <;> cases d <;> cases e <;> cases f <;> cases g <;> cases k <;> rfl
  | case3 => intro vs h; simp at h

/-- DEV rebuilds the address from its three bytes (30_encoding.md R103). -/
theorem addrOfBytes_addrBytes (a : Addr) :
    addrOfBytes (a.extractLsb' 16 8) (a.extractLsb' 8 8) (a.extractLsb' 0 8) = a := by
  refine BitVec.eq_of_getLsbD_eq fun i hi => ?_
  simp only [addrOfBytes, BitVec.getLsbD_append, BitVec.getLsbD_extractLsb']
  by_cases h0 : i < 8
  · simp [h0]
  · by_cases h1 : i < 16
    · have : i - 8 < 8 := by omega
      simp [h0, this, show 8 + (i - 8) = i by omega]
    · have h2 : ¬ i - 8 < 8 := by omega
      have h3 : i - 8 - 8 < 8 := by omega
      simp [h0, h2, h3, show 16 + (i - 8 - 8) = i by omega]

/-- The bytes of a rebuilt address are the bytes it was rebuilt from (30_encoding.md R103). -/
theorem addrBytes_addrOfBytes (a2 a1 a0 : Byte) : addrBytes (addrOfBytes a2 a1 a0) = [a2, a1, a0] := by
  simp only [addrBytes, addrOfBytes, List.cons.injEq, and_true]
  refine ⟨?_, ?_, ?_⟩ <;>
    (refine BitVec.eq_of_getLsbD_eq fun i hi => ?_
     simp only [BitVec.getLsbD_append, BitVec.getLsbD_extractLsb']
     simp [hi]
     try (have h1 : ¬ 16 + i < 8 := by omega
          have h2 : ¬ 16 + i < 16 := by omega
          have h3 : ¬ 8 + i < 8 := by omega
          have h4 : 16 + i - 8 - 8 = i := by omega
          simp [h1, h2, h3, h4, hi]
          try omega))

namespace Machine

theorem frameByte_bits_cons_zero (v : Byte) (vs : List Byte) : frameByte (bitsOfBytes (v :: vs)) 0 = v := by
  rw [frameByte, bitsOfBytes_cons, Nat.mul_zero, List.drop_zero,
    List.take_left' (bitsOfByte_length v), byteOfBits_bitsOfByte]

theorem frameByte_bits_cons_succ (v : Byte) (vs : List Byte) (k : Nat) :
    frameByte (bitsOfBytes (v :: vs)) (k + 1) = frameByte (bitsOfBytes vs) k := by
  rw [frameByte, bitsOfBytes_cons, show 8 * (k + 1) = (bitsOfByte v).length + 8 * k by rw [bitsOfByte_length]; omega,
    List.drop_length_add_append, frameByte]

/-- A byte of a frame does not change as more bits are clocked in. -/
theorem frameByte_append (bits more : List Bool) (k : Nat) (h : 8 * (k + 1) ≤ bits.length) :
    frameByte (bits ++ more) k = frameByte bits k := by
  rw [frameByte, List.drop_append_of_le_length (by omega), List.take_append_of_le_length (by simp; omega), frameByte]

/-- The address does not change as more bits are clocked in. -/
theorem frameAddr_append (bits more : List Bool) (h : 32 ≤ bits.length) : frameAddr (bits ++ more) = frameAddr bits := by
  simp only [frameAddr]
  rw [frameByte_append _ _ _ (by omega), frameByte_append _ _ _ (by omega), frameByte_append _ _ _ (by omega)]

/-- The address of a frame whose bytes 1 to 3 are the address bytes (20_memory.md R72). -/
theorem frameAddr_bits (op : Byte) (a : Addr) (more : List Byte) :
    frameAddr (bitsOfBytes (op :: (addrBytes a ++ more))) = a := by
  have h : addrBytes a ++ more = a.extractLsb' 16 8 :: a.extractLsb' 8 8 :: a.extractLsb' 0 8 :: more := rfl
  rw [h, frameAddr, show (3 : Nat) = 2 + 1 from rfl, show (2 : Nat) = 1 + 1 from rfl, show (1 : Nat) = 0 + 1 from rfl]
  simp only [frameByte_bits_cons_succ, frameByte_bits_cons_zero]
  exact addrOfBytes_addrBytes a

end Machine

end Sys2Proof
end

