-- ==== Sys2Proof/Laws/Device.lean ====
section
/-! SUPPORT. DEV over time: what one and many Complete steps may change, and what a commit does. -/

namespace Sys2Proof.Machine

/-! ### Complete -/

@[simp] theorem Dev.tick_mem (d : Dev) : d.tick.mem = d.mem := by simp only [Dev.tick]; split <;> [split; skip] <;> rfl
@[simp] theorem Dev.tick_wel (d : Dev) : d.tick.wel = d.wel := by simp only [Dev.tick]; split <;> [split; skip] <;> rfl
@[simp] theorem Dev.tick_srx (d : Dev) : d.tick.srx = d.srx := by simp only [Dev.tick]; split <;> [split; skip] <;> rfl
@[simp] theorem Dev.tick_frame (d : Dev) : d.tick.frame = d.frame := by simp only [Dev.tick]; split <;> [split; skip] <;> rfl
@[simp] theorem Dev.tick_status (d : Dev) : d.tick.status = d.status := by
  simp only [Dev.tick]; split <;> [split; skip] <;> rfl
@[simp] theorem Dev.tick_heardBusy (d : Dev) : d.tick.heardBusy = d.heardBusy := by
  simp only [Dev.tick]; split <;> [split; skip] <;> rfl

/-- A tick does not look at the parts of DEV that a frame in progress changes. -/
theorem Dev.tick_with (d : Dev) (f : List Bool) (r : Byte) (h : Bool) :
    Dev.tick { d with frame := f, status := r, heardBusy := h } =
      { d.tick with frame := f, status := r, heardBusy := h } := by
  simp only [Dev.tick]; split <;> [split; skip] <;> rfl

@[simp] theorem Dev.ticks_zero (d : Dev) : d.ticks 0 = d := rfl
theorem Dev.ticks_succ (d : Dev) (n : Nat) : d.ticks (n + 1) = d.tick.ticks n := rfl

theorem Dev.tick_ticks (d : Dev) (n : Nat) : (d.ticks n).tick = d.ticks (n + 1) := by
  induction n generalizing d with
  | zero => rfl
  | succ n ih => exact ih d.tick

theorem Dev.ticks_ticks (d : Dev) (n m : Nat) : (d.ticks n).ticks m = d.ticks (n + m) := by
  induction n generalizing d with
  | zero => rw [Nat.zero_add]; rfl
  | succ n ih => rw [Dev.ticks_succ, ih, Nat.succ_add]; rfl

@[simp] theorem Dev.ticks_mem (d : Dev) (n : Nat) : (d.ticks n).mem = d.mem := by
  induction n generalizing d with | zero => rfl | succ n ih => rw [Dev.ticks_succ, ih, Dev.tick_mem]
@[simp] theorem Dev.ticks_wel (d : Dev) (n : Nat) : (d.ticks n).wel = d.wel := by
  induction n generalizing d with | zero => rfl | succ n ih => rw [Dev.ticks_succ, ih, Dev.tick_wel]
@[simp] theorem Dev.ticks_srx (d : Dev) (n : Nat) : (d.ticks n).srx = d.srx := by
  induction n generalizing d with | zero => rfl | succ n ih => rw [Dev.ticks_succ, ih, Dev.tick_srx]
@[simp] theorem Dev.ticks_frame (d : Dev) (n : Nat) : (d.ticks n).frame = d.frame := by
  induction n generalizing d with | zero => rfl | succ n ih => rw [Dev.ticks_succ, ih, Dev.tick_frame]
@[simp] theorem Dev.ticks_status (d : Dev) (n : Nat) : (d.ticks n).status = d.status := by
  induction n generalizing d with | zero => rfl | succ n ih => rw [Dev.ticks_succ, ih, Dev.tick_status]
@[simp] theorem Dev.ticks_heardBusy (d : Dev) (n : Nat) : (d.ticks n).heardBusy = d.heardBusy := by
  induction n generalizing d with | zero => rfl | succ n ih => rw [Dev.ticks_succ, ih, Dev.tick_heardBusy]

theorem Dev.ticks_with (d : Dev) (f : List Bool) (r : Byte) (h : Bool) (n : Nat) :
    Dev.ticks { d with frame := f, status := r, heardBusy := h } n =
      { d.ticks n with frame := f, status := r, heardBusy := h } := by
  induction n generalizing d with
  | zero => rfl
  | succ n ih => rw [Dev.ticks_succ, Dev.tick_with, ih]; rfl

theorem Dev.ticks_withFrame (d : Dev) (f : List Bool) (n : Nat) :
    Dev.ticks { d with frame := f } n = { d.ticks n with frame := f } := by
  rw [Dev.ticks_with d f d.status d.heardBusy n]
  simp

/-- A ready DEV does nothing on its own (20_memory.md R84). -/
theorem Dev.ticks_ready {d : Dev} (h : d.busy = false) (n : Nat) : d.ticks n = d := by
  induction n with
  | zero => rfl
  | succ n ih => rw [Dev.ticks_succ, show d.tick = d by simp [Dev.tick, h], ih]

/-- BUSY after `n` events: still 1 exactly when it was 1 and at least `n` events were left (20_memory.md R84). -/
theorem Dev.ticks_busy (d : Dev) (n : Nat) :
    (d.ticks n).busy = (d.busy && stillBusy d.left n) := by
  induction n generalizing d with
  | zero => rw [Dev.ticks_zero]; cases h : d.left <;> simp [stillBusy]
  | succ n ih =>
    rw [Dev.ticks_succ, ih]
    obtain ⟨mem, busy, wel, srx, frame, status, heard, left⟩ := d
    cases busy
    · rfl
    · rcases left with _ | _ | k
      · rfl
      · simp [Dev.tick, stillBusy]
      · simp [Dev.tick, stillBusy]

theorem Dev.ticks_busyFor {d : Dev} {n : Nat} (h : d.BusyFor n) : (d.ticks n).busy = true := by
  rw [Dev.ticks_busy, h.1]
  cases hl : d.left with
  | none => rfl
  | some k => simpa [stillBusy] using h.2 k hl

theorem Dev.ticks_dead {d : Dev} (h : d.Dead) (n : Nat) : d.ticks n = d := by
  induction n with
  | zero => rfl
  | succ n ih => rw [Dev.ticks_succ, show d.tick = d by simp [Dev.tick, h.1, h.2], ih]

/-- BUSY does not come back by itself. -/
theorem Dev.ticks_busy_mono {d : Dev} {n : Nat} (h : d.busy = false) : (d.ticks n).busy = false := by
  rw [Dev.ticks_ready h, h]

theorem Dev.read_ticks (d : Dev) (n a : Nat) : (d.ticks n).read a = d.read a := by simp [Dev.read]

theorem Dev.read_congr {d e : Dev} (h : d.mem = e.mem) (a : Nat) : d.read a = e.read a := by simp [Dev.read, h]

/-! ### A commit -/

/-- An accepted program at an address of the array (20_memory.md R80). -/
theorem State.carryOut_program (s : State) {a : Addr} (h : a.toNat < Config.flashSize) (v : Byte) :
    s.carryOut (.program a v) =
      { s with dev := { s.dev with mem := s.dev.mem.set a.toNat (programFn (s.dev.read a.toNat) v) } }.startBusy := by
  simp only [State.carryOut, Draws.target_inside h, Dev.programmed]

/-- An accepted erase at an address of the array (20_memory.md R81). -/
theorem State.carryOut_erase (s : State) {a : Addr} (h : a.toNat < Config.flashSize) :
    s.carryOut (.erase a) =
      { s with
        dev := { s.dev with mem := s.dev.mem.erase (blockBase s.params a.toNat) s.params.blockSize } }.startBusy := by
  simp only [State.carryOut, Draws.target_inside h, Dev.erased]

/-- What a commit does to DEV, given the frame it holds (20_memory.md R72, R76 to R83). -/
theorem State.commit_of_frame {s : State} {c : FrameCmd} (h : frameOfBits s.dev.frame = some c) :
    s.commit =
      { (if s.dev.accepts c then s.carryOut c else s) with
        dev := { (if s.dev.accepts c then s.carryOut c else s).dev with frame := [] } } := by
  simp only [State.commit, h]

theorem frameOfBits_bytes {vs : List Byte} {c : FrameCmd} (h : decodeFrame vs = .ok c) :
    frameOfBits (bitsOfBytes vs) = some c := by
  simp only [frameOfBits, bytesOfBits_bitsOfBytes, h]; rfl

theorem decodeFrame_writeEnable : decodeFrame [0x06] = .ok .writeEnable := rfl
theorem decodeFrame_writeDisable : decodeFrame [0x04] = .ok .writeDisable := rfl
theorem decodeFrame_readStatus (x : Byte) : decodeFrame [0x05, x] = .ok .readStatus := rfl
theorem decodeFrame_rawPoll : decodeFrame [0x05] = .ok .rawPoll := rfl
theorem decodeFrame_writeStatus (v : Byte) : decodeFrame [0x01, v] = .ok (.writeStatus v) := rfl

theorem decodeFrame_program (a : Addr) (v : Byte) :
    decodeFrame ([0x02] ++ addrBytes a ++ [v]) = .ok (.program a v) := by
  show frameOAW [_, _, _, v] = _
  rw [frameOAW, addrOfBytes_addrBytes]

theorem decodeFrame_erase (a : Addr) : decodeFrame ([0xD8] ++ addrBytes a) = .ok (.erase a) := by
  show frameOA [_, _, _] = _
  rw [frameOA, addrOfBytes_addrBytes]

/-- A read frame commits nothing, whatever its length (20_memory.md R79). -/
theorem decodeFrame_read (a : Addr) (more : List Byte) (h : more.length < 2 ^ 16) :
    decodeFrame ([0x03] ++ addrBytes a ++ more) = .ok (.read a (BitVec.ofNat 16 more.length)) := by
  show frameOAR (_ :: _ :: _ :: more) = _
  rw [frameOAR, if_pos h, addrOfBytes_addrBytes]

end Sys2Proof.Machine
end

