-- ==== Sys2Proof/Laws/State.lean ====
section
/-! SUPPORT. One lemma per field per plain update of State: a later proof never unfolds a record update. -/

namespace Sys2Proof.Machine

@[simp] theorem State.tick_dir (s : State) : s.tick.dir = s.dir := rfl
@[simp] theorem State.tick_cs (s : State) : s.tick.cs = s.cs := rfl
@[simp] theorem State.tick_sck (s : State) : s.tick.sck = s.sck := rfl
@[simp] theorem State.tick_di (s : State) : s.tick.di = s.di := rfl
@[simp] theorem State.tick_sr (s : State) : s.tick.sr = s.sr := rfl
@[simp] theorem State.tick_bitcnt (s : State) : s.tick.bitcnt = s.bitcnt := rfl
@[simp] theorem State.tick_addr (s : State) : s.tick.addr = s.addr := rfl
@[simp] theorem State.tick_len (s : State) : s.tick.len = s.len := rfl
@[simp] theorem State.tick_val (s : State) : s.tick.val = s.val := rfl
@[simp] theorem State.tick_idx (s : State) : s.tick.idx = s.idx := rfl
@[simp] theorem State.tick_pollcnt (s : State) : s.tick.pollcnt = s.pollcnt := rfl
@[simp] theorem State.tick_st (s : State) : s.tick.st = s.st := rfl
@[simp] theorem State.tick_err (s : State) : s.tick.err = s.err := rfl
@[simp] theorem State.tick_ph (s : State) : s.tick.ph = s.ph := rfl
@[simp] theorem State.tick_opr (s : State) : s.tick.opr = s.opr := rfl
@[simp] theorem State.tick_bufRef (s : State) : s.tick.bufRef = s.bufRef := rfl
@[simp] theorem State.tick_ret (s : State) : s.tick.ret = s.ret := rfl
@[simp] theorem State.tick_dev (s : State) : s.tick.dev = s.dev.tick := rfl
@[simp] theorem State.tick_commands (s : State) : s.tick.commands = s.commands := rfl
@[simp] theorem State.tick_bufs (s : State) : s.tick.bufs = s.bufs := rfl
@[simp] theorem State.tick_trace (s : State) : s.tick.trace = s.trace := rfl
@[simp] theorem State.tick_params (s : State) : s.tick.params = s.params := rfl
@[simp] theorem State.tick_draws (s : State) : s.tick.draws = s.draws := rfl

@[simp] theorem State.emit_dir (s : State) (e : Event) : (s.emit e).dir = s.dir := rfl
@[simp] theorem State.emit_cs (s : State) (e : Event) : (s.emit e).cs = s.cs := rfl
@[simp] theorem State.emit_sck (s : State) (e : Event) : (s.emit e).sck = s.sck := rfl
@[simp] theorem State.emit_di (s : State) (e : Event) : (s.emit e).di = s.di := rfl
@[simp] theorem State.emit_sr (s : State) (e : Event) : (s.emit e).sr = s.sr := rfl
@[simp] theorem State.emit_bitcnt (s : State) (e : Event) : (s.emit e).bitcnt = s.bitcnt := rfl
@[simp] theorem State.emit_addr (s : State) (e : Event) : (s.emit e).addr = s.addr := rfl
@[simp] theorem State.emit_len (s : State) (e : Event) : (s.emit e).len = s.len := rfl
@[simp] theorem State.emit_val (s : State) (e : Event) : (s.emit e).val = s.val := rfl
@[simp] theorem State.emit_idx (s : State) (e : Event) : (s.emit e).idx = s.idx := rfl
@[simp] theorem State.emit_pollcnt (s : State) (e : Event) : (s.emit e).pollcnt = s.pollcnt := rfl
@[simp] theorem State.emit_st (s : State) (e : Event) : (s.emit e).st = s.st := rfl
@[simp] theorem State.emit_err (s : State) (e : Event) : (s.emit e).err = s.err := rfl
@[simp] theorem State.emit_ph (s : State) (e : Event) : (s.emit e).ph = s.ph := rfl
@[simp] theorem State.emit_opr (s : State) (e : Event) : (s.emit e).opr = s.opr := rfl
@[simp] theorem State.emit_bufRef (s : State) (e : Event) : (s.emit e).bufRef = s.bufRef := rfl
@[simp] theorem State.emit_ret (s : State) (e : Event) : (s.emit e).ret = s.ret := rfl
@[simp] theorem State.emit_dev (s : State) (e : Event) : (s.emit e).dev = s.dev := rfl
@[simp] theorem State.emit_commands (s : State) (e : Event) : (s.emit e).commands = s.commands := rfl
@[simp] theorem State.emit_bufs (s : State) (e : Event) : (s.emit e).bufs = s.bufs := rfl
@[simp] theorem State.emit_trace (s : State) (e : Event) : (s.emit e).trace = s.trace ++ [e] := rfl
@[simp] theorem State.emit_params (s : State) (e : Event) : (s.emit e).params = s.params := rfl
@[simp] theorem State.emit_draws (s : State) (e : Event) : (s.emit e).draws = s.draws := rfl

@[simp] theorem State.setPhase_dir (s : State) (p : Phase) : (s.setPhase p).dir = s.dir := rfl
@[simp] theorem State.setPhase_cs (s : State) (p : Phase) : (s.setPhase p).cs = s.cs := rfl
@[simp] theorem State.setPhase_sck (s : State) (p : Phase) : (s.setPhase p).sck = s.sck := rfl
@[simp] theorem State.setPhase_di (s : State) (p : Phase) : (s.setPhase p).di = s.di := rfl
@[simp] theorem State.setPhase_sr (s : State) (p : Phase) : (s.setPhase p).sr = s.sr := rfl
@[simp] theorem State.setPhase_bitcnt (s : State) (p : Phase) : (s.setPhase p).bitcnt = s.bitcnt := rfl
@[simp] theorem State.setPhase_addr (s : State) (p : Phase) : (s.setPhase p).addr = s.addr := rfl
@[simp] theorem State.setPhase_len (s : State) (p : Phase) : (s.setPhase p).len = s.len := rfl
@[simp] theorem State.setPhase_val (s : State) (p : Phase) : (s.setPhase p).val = s.val := rfl
@[simp] theorem State.setPhase_idx (s : State) (p : Phase) : (s.setPhase p).idx = s.idx := rfl
@[simp] theorem State.setPhase_pollcnt (s : State) (p : Phase) : (s.setPhase p).pollcnt = s.pollcnt := rfl
@[simp] theorem State.setPhase_st (s : State) (p : Phase) : (s.setPhase p).st = s.st := rfl
@[simp] theorem State.setPhase_err (s : State) (p : Phase) : (s.setPhase p).err = s.err := rfl
@[simp] theorem State.setPhase_ph (s : State) (p : Phase) : (s.setPhase p).ph = p := rfl
@[simp] theorem State.setPhase_opr (s : State) (p : Phase) : (s.setPhase p).opr = s.opr := rfl
@[simp] theorem State.setPhase_bufRef (s : State) (p : Phase) : (s.setPhase p).bufRef = s.bufRef := rfl
@[simp] theorem State.setPhase_ret (s : State) (p : Phase) : (s.setPhase p).ret = s.ret := rfl
@[simp] theorem State.setPhase_dev (s : State) (p : Phase) : (s.setPhase p).dev = s.dev := rfl
@[simp] theorem State.setPhase_commands (s : State) (p : Phase) : (s.setPhase p).commands = s.commands := rfl
@[simp] theorem State.setPhase_bufs (s : State) (p : Phase) : (s.setPhase p).bufs = s.bufs := rfl
@[simp] theorem State.setPhase_trace (s : State) (p : Phase) : (s.setPhase p).trace = s.trace := rfl
@[simp] theorem State.setPhase_params (s : State) (p : Phase) : (s.setPhase p).params = s.params := rfl
@[simp] theorem State.setPhase_draws (s : State) (p : Phase) : (s.setPhase p).draws = s.draws := rfl

@[simp] theorem State.start_dir (s : State) (op : Op) : (s.start op).dir = s.dir := rfl
@[simp] theorem State.start_cs (s : State) (op : Op) : (s.start op).cs = s.cs := rfl
@[simp] theorem State.start_sck (s : State) (op : Op) : (s.start op).sck = s.sck := rfl
@[simp] theorem State.start_di (s : State) (op : Op) : (s.start op).di = s.di := rfl
@[simp] theorem State.start_sr (s : State) (op : Op) : (s.start op).sr = s.sr := rfl
@[simp] theorem State.start_bitcnt (s : State) (op : Op) : (s.start op).bitcnt = s.bitcnt := rfl
@[simp] theorem State.start_addr (s : State) (op : Op) : (s.start op).addr = s.addr := rfl
@[simp] theorem State.start_len (s : State) (op : Op) : (s.start op).len = s.len := rfl
@[simp] theorem State.start_val (s : State) (op : Op) : (s.start op).val = s.val := rfl
@[simp] theorem State.start_idx (s : State) (op : Op) : (s.start op).idx = s.idx := rfl
@[simp] theorem State.start_pollcnt (s : State) (op : Op) : (s.start op).pollcnt = s.pollcnt := rfl
@[simp] theorem State.start_st (s : State) (op : Op) : (s.start op).st = s.st := rfl
@[simp] theorem State.start_err (s : State) (op : Op) : (s.start op).err = s.err := rfl
@[simp] theorem State.start_ph (s : State) (op : Op) : (s.start op).ph = s.ph := rfl
@[simp] theorem State.start_opr (s : State) (op : Op) : (s.start op).opr = some op := rfl
@[simp] theorem State.start_bufRef (s : State) (op : Op) : (s.start op).bufRef = s.bufRef := rfl
@[simp] theorem State.start_ret (s : State) (op : Op) : (s.start op).ret = s.ret := rfl
@[simp] theorem State.start_dev (s : State) (op : Op) : (s.start op).dev = s.dev := rfl
@[simp] theorem State.start_commands (s : State) (op : Op) : (s.start op).commands = s.commands := rfl
@[simp] theorem State.start_bufs (s : State) (op : Op) : (s.start op).bufs = s.bufs := rfl
@[simp] theorem State.start_trace (s : State) (op : Op) : (s.start op).trace = s.trace := rfl
@[simp] theorem State.start_params (s : State) (op : Op) : (s.start op).params = s.params := rfl
@[simp] theorem State.start_draws (s : State) (op : Op) : (s.start op).draws = s.draws := rfl

@[simp] theorem State.finish_dir (s : State) (e : Err) (r : Option Byte) : (s.finish e r).dir = s.dir := rfl
@[simp] theorem State.finish_cs (s : State) (e : Err) (r : Option Byte) : (s.finish e r).cs = s.cs := rfl
@[simp] theorem State.finish_sck (s : State) (e : Err) (r : Option Byte) : (s.finish e r).sck = s.sck := rfl
@[simp] theorem State.finish_di (s : State) (e : Err) (r : Option Byte) : (s.finish e r).di = s.di := rfl
@[simp] theorem State.finish_sr (s : State) (e : Err) (r : Option Byte) : (s.finish e r).sr = s.sr := rfl
@[simp] theorem State.finish_bitcnt (s : State) (e : Err) (r : Option Byte) : (s.finish e r).bitcnt = s.bitcnt := rfl
@[simp] theorem State.finish_addr (s : State) (e : Err) (r : Option Byte) : (s.finish e r).addr = s.addr := rfl
@[simp] theorem State.finish_len (s : State) (e : Err) (r : Option Byte) : (s.finish e r).len = s.len := rfl
@[simp] theorem State.finish_val (s : State) (e : Err) (r : Option Byte) : (s.finish e r).val = s.val := rfl
@[simp] theorem State.finish_idx (s : State) (e : Err) (r : Option Byte) : (s.finish e r).idx = s.idx := rfl
@[simp] theorem State.finish_pollcnt (s : State) (e : Err) (r : Option Byte) : (s.finish e r).pollcnt = s.pollcnt := rfl
@[simp] theorem State.finish_st (s : State) (e : Err) (r : Option Byte) : (s.finish e r).st = s.st := rfl
@[simp] theorem State.finish_err (s : State) (e : Err) (r : Option Byte) : (s.finish e r).err = e := rfl
@[simp] theorem State.finish_ph (s : State) (e : Err) (r : Option Byte) : (s.finish e r).ph = s.ph := rfl
@[simp] theorem State.finish_opr (s : State) (e : Err) (r : Option Byte) : (s.finish e r).opr = none := rfl
@[simp] theorem State.finish_bufRef (s : State) (e : Err) (r : Option Byte) : (s.finish e r).bufRef = none := rfl
@[simp] theorem State.finish_ret (s : State) (e : Err) (r : Option Byte) : (s.finish e r).ret = r := rfl
@[simp] theorem State.finish_dev (s : State) (e : Err) (r : Option Byte) : (s.finish e r).dev = s.dev := rfl
@[simp] theorem State.finish_commands (s : State) (e : Err) (r : Option Byte) : (s.finish e r).commands = s.commands := rfl
@[simp] theorem State.finish_bufs (s : State) (e : Err) (r : Option Byte) : (s.finish e r).bufs = s.bufs := rfl
@[simp] theorem State.finish_trace (s : State) (e : Err) (r : Option Byte) : (s.finish e r).trace = s.trace := rfl
@[simp] theorem State.finish_params (s : State) (e : Err) (r : Option Byte) : (s.finish e r).params = s.params := rfl
@[simp] theorem State.finish_draws (s : State) (e : Err) (r : Option Byte) : (s.finish e r).draws = s.draws := rfl

@[simp] theorem State.raise_dir (s : State) (e : Err) : (s.raise e).dir = s.dir := rfl
@[simp] theorem State.raise_cs (s : State) (e : Err) : (s.raise e).cs = s.cs := rfl
@[simp] theorem State.raise_sck (s : State) (e : Err) : (s.raise e).sck = s.sck := rfl
@[simp] theorem State.raise_di (s : State) (e : Err) : (s.raise e).di = s.di := rfl
@[simp] theorem State.raise_sr (s : State) (e : Err) : (s.raise e).sr = s.sr := rfl
@[simp] theorem State.raise_bitcnt (s : State) (e : Err) : (s.raise e).bitcnt = s.bitcnt := rfl
@[simp] theorem State.raise_addr (s : State) (e : Err) : (s.raise e).addr = s.addr := rfl
@[simp] theorem State.raise_len (s : State) (e : Err) : (s.raise e).len = s.len := rfl
@[simp] theorem State.raise_val (s : State) (e : Err) : (s.raise e).val = s.val := rfl
@[simp] theorem State.raise_idx (s : State) (e : Err) : (s.raise e).idx = s.idx := rfl
@[simp] theorem State.raise_pollcnt (s : State) (e : Err) : (s.raise e).pollcnt = s.pollcnt := rfl
@[simp] theorem State.raise_st (s : State) (e : Err) : (s.raise e).st = s.st := rfl
@[simp] theorem State.raise_err (s : State) (e : Err) : (s.raise e).err = e := rfl
@[simp] theorem State.raise_ph (s : State) (e : Err) : (s.raise e).ph = s.ph := rfl
@[simp] theorem State.raise_opr (s : State) (e : Err) : (s.raise e).opr = none := rfl
@[simp] theorem State.raise_bufRef (s : State) (e : Err) : (s.raise e).bufRef = none := rfl
@[simp] theorem State.raise_ret (s : State) (e : Err) : (s.raise e).ret = none := rfl
@[simp] theorem State.raise_dev (s : State) (e : Err) : (s.raise e).dev = s.dev := rfl
@[simp] theorem State.raise_commands (s : State) (e : Err) : (s.raise e).commands = s.commands := rfl
@[simp] theorem State.raise_bufs (s : State) (e : Err) : (s.raise e).bufs = s.bufs := rfl
@[simp] theorem State.raise_trace (s : State) (e : Err) : (s.raise e).trace = s.trace := rfl
@[simp] theorem State.raise_params (s : State) (e : Err) : (s.raise e).params = s.params := rfl
@[simp] theorem State.raise_draws (s : State) (e : Err) : (s.raise e).draws = s.draws := rfl

@[simp] theorem State.startPolls_dir (s : State) : s.startPolls.dir = s.dir := rfl
@[simp] theorem State.startPolls_cs (s : State) : s.startPolls.cs = s.cs := rfl
@[simp] theorem State.startPolls_sck (s : State) : s.startPolls.sck = s.sck := rfl
@[simp] theorem State.startPolls_di (s : State) : s.startPolls.di = s.di := rfl
@[simp] theorem State.startPolls_sr (s : State) : s.startPolls.sr = s.sr := rfl
@[simp] theorem State.startPolls_bitcnt (s : State) : s.startPolls.bitcnt = s.bitcnt := rfl
@[simp] theorem State.startPolls_addr (s : State) : s.startPolls.addr = s.addr := rfl
@[simp] theorem State.startPolls_len (s : State) : s.startPolls.len = s.len := rfl
@[simp] theorem State.startPolls_val (s : State) : s.startPolls.val = s.val := rfl
@[simp] theorem State.startPolls_idx (s : State) : s.startPolls.idx = s.idx := rfl
@[simp] theorem State.startPolls_pollcnt (s : State) : s.startPolls.pollcnt = 0 := rfl
@[simp] theorem State.startPolls_st (s : State) : s.startPolls.st = s.st := rfl
@[simp] theorem State.startPolls_err (s : State) : s.startPolls.err = s.err := rfl
@[simp] theorem State.startPolls_ph (s : State) : s.startPolls.ph = s.ph := rfl
@[simp] theorem State.startPolls_opr (s : State) : s.startPolls.opr = s.opr := rfl
@[simp] theorem State.startPolls_bufRef (s : State) : s.startPolls.bufRef = s.bufRef := rfl
@[simp] theorem State.startPolls_ret (s : State) : s.startPolls.ret = s.ret := rfl
@[simp] theorem State.startPolls_dev (s : State) : s.startPolls.dev = s.dev := rfl
@[simp] theorem State.startPolls_commands (s : State) : s.startPolls.commands = s.commands := rfl
@[simp] theorem State.startPolls_bufs (s : State) : s.startPolls.bufs = s.bufs := rfl
@[simp] theorem State.startPolls_trace (s : State) : s.startPolls.trace = s.trace := rfl
@[simp] theorem State.startPolls_params (s : State) : s.startPolls.params = s.params := rfl
@[simp] theorem State.startPolls_draws (s : State) : s.startPolls.draws = s.draws := rfl

@[simp] theorem State.nextByte_dir (s : State) : s.nextByte.dir = s.dir := rfl
@[simp] theorem State.nextByte_cs (s : State) : s.nextByte.cs = s.cs := rfl
@[simp] theorem State.nextByte_sck (s : State) : s.nextByte.sck = s.sck := rfl
@[simp] theorem State.nextByte_di (s : State) : s.nextByte.di = s.di := rfl
@[simp] theorem State.nextByte_sr (s : State) : s.nextByte.sr = s.sr := rfl
@[simp] theorem State.nextByte_bitcnt (s : State) : s.nextByte.bitcnt = s.bitcnt := rfl
@[simp] theorem State.nextByte_addr (s : State) : s.nextByte.addr = s.addr := rfl
@[simp] theorem State.nextByte_len (s : State) : s.nextByte.len = s.len := rfl
@[simp] theorem State.nextByte_val (s : State) : s.nextByte.val = s.val := rfl
@[simp] theorem State.nextByte_idx (s : State) : s.nextByte.idx = s.idx + 1 := rfl
@[simp] theorem State.nextByte_pollcnt (s : State) : s.nextByte.pollcnt = s.pollcnt := rfl
@[simp] theorem State.nextByte_st (s : State) : s.nextByte.st = s.st := rfl
@[simp] theorem State.nextByte_err (s : State) : s.nextByte.err = s.err := rfl
@[simp] theorem State.nextByte_ph (s : State) : s.nextByte.ph = s.ph := rfl
@[simp] theorem State.nextByte_opr (s : State) : s.nextByte.opr = s.opr := rfl
@[simp] theorem State.nextByte_bufRef (s : State) : s.nextByte.bufRef = s.bufRef := rfl
@[simp] theorem State.nextByte_ret (s : State) : s.nextByte.ret = s.ret := rfl
@[simp] theorem State.nextByte_dev (s : State) : s.nextByte.dev = s.dev := rfl
@[simp] theorem State.nextByte_commands (s : State) : s.nextByte.commands = s.commands := rfl
@[simp] theorem State.nextByte_bufs (s : State) : s.nextByte.bufs = s.bufs := rfl
@[simp] theorem State.nextByte_trace (s : State) : s.nextByte.trace = s.trace := rfl
@[simp] theorem State.nextByte_params (s : State) : s.nextByte.params = s.params := rfl
@[simp] theorem State.nextByte_draws (s : State) : s.nextByte.draws = s.draws := rfl

@[simp] theorem State.takeByte_dir (s : State) : s.takeByte.dir = s.dir := rfl
@[simp] theorem State.takeByte_cs (s : State) : s.takeByte.cs = s.cs := rfl
@[simp] theorem State.takeByte_sck (s : State) : s.takeByte.sck = s.sck := rfl
@[simp] theorem State.takeByte_di (s : State) : s.takeByte.di = s.di := rfl
@[simp] theorem State.takeByte_sr (s : State) : s.takeByte.sr = s.sr := rfl
@[simp] theorem State.takeByte_bitcnt (s : State) : s.takeByte.bitcnt = s.bitcnt := rfl
@[simp] theorem State.takeByte_addr (s : State) : s.takeByte.addr = s.addr := rfl
@[simp] theorem State.takeByte_len (s : State) : s.takeByte.len = s.len := rfl
@[simp] theorem State.takeByte_val (s : State) : s.takeByte.val = bufferGet s.bufs s.bufRef s.idx.toNat := rfl
@[simp] theorem State.takeByte_idx (s : State) : s.takeByte.idx = s.idx := rfl
@[simp] theorem State.takeByte_pollcnt (s : State) : s.takeByte.pollcnt = s.pollcnt := rfl
@[simp] theorem State.takeByte_st (s : State) : s.takeByte.st = s.st := rfl
@[simp] theorem State.takeByte_err (s : State) : s.takeByte.err = s.err := rfl
@[simp] theorem State.takeByte_ph (s : State) : s.takeByte.ph = s.ph := rfl
@[simp] theorem State.takeByte_opr (s : State) : s.takeByte.opr = s.opr := rfl
@[simp] theorem State.takeByte_bufRef (s : State) : s.takeByte.bufRef = s.bufRef := rfl
@[simp] theorem State.takeByte_ret (s : State) : s.takeByte.ret = s.ret := rfl
@[simp] theorem State.takeByte_dev (s : State) : s.takeByte.dev = s.dev := rfl
@[simp] theorem State.takeByte_commands (s : State) : s.takeByte.commands = s.commands := rfl
@[simp] theorem State.takeByte_bufs (s : State) : s.takeByte.bufs = s.bufs := rfl
@[simp] theorem State.takeByte_trace (s : State) : s.takeByte.trace = s.trace := rfl
@[simp] theorem State.takeByte_params (s : State) : s.takeByte.params = s.params := rfl
@[simp] theorem State.takeByte_draws (s : State) : s.takeByte.draws = s.draws := rfl

@[simp] theorem State.setLatch_cs_dir (s : State) (v : Bool) : (s.setLatch v .cs).dir = s.dir := rfl
@[simp] theorem State.setLatch_cs_cs (s : State) (v : Bool) : (s.setLatch v .cs).cs = v := rfl
@[simp] theorem State.setLatch_cs_sck (s : State) (v : Bool) : (s.setLatch v .cs).sck = s.sck := rfl
@[simp] theorem State.setLatch_cs_di (s : State) (v : Bool) : (s.setLatch v .cs).di = s.di := rfl
@[simp] theorem State.setLatch_cs_sr (s : State) (v : Bool) : (s.setLatch v .cs).sr = s.sr := rfl
@[simp] theorem State.setLatch_cs_bitcnt (s : State) (v : Bool) : (s.setLatch v .cs).bitcnt = s.bitcnt := rfl
@[simp] theorem State.setLatch_cs_addr (s : State) (v : Bool) : (s.setLatch v .cs).addr = s.addr := rfl
@[simp] theorem State.setLatch_cs_len (s : State) (v : Bool) : (s.setLatch v .cs).len = s.len := rfl
@[simp] theorem State.setLatch_cs_val (s : State) (v : Bool) : (s.setLatch v .cs).val = s.val := rfl
@[simp] theorem State.setLatch_cs_idx (s : State) (v : Bool) : (s.setLatch v .cs).idx = s.idx := rfl
@[simp] theorem State.setLatch_cs_pollcnt (s : State) (v : Bool) : (s.setLatch v .cs).pollcnt = s.pollcnt := rfl
@[simp] theorem State.setLatch_cs_st (s : State) (v : Bool) : (s.setLatch v .cs).st = s.st := rfl
@[simp] theorem State.setLatch_cs_err (s : State) (v : Bool) : (s.setLatch v .cs).err = s.err := rfl
@[simp] theorem State.setLatch_cs_ph (s : State) (v : Bool) : (s.setLatch v .cs).ph = s.ph := rfl
@[simp] theorem State.setLatch_cs_opr (s : State) (v : Bool) : (s.setLatch v .cs).opr = s.opr := rfl
@[simp] theorem State.setLatch_cs_bufRef (s : State) (v : Bool) : (s.setLatch v .cs).bufRef = s.bufRef := rfl
@[simp] theorem State.setLatch_cs_ret (s : State) (v : Bool) : (s.setLatch v .cs).ret = s.ret := rfl
@[simp] theorem State.setLatch_cs_dev (s : State) (v : Bool) : (s.setLatch v .cs).dev = s.dev := rfl
@[simp] theorem State.setLatch_cs_commands (s : State) (v : Bool) : (s.setLatch v .cs).commands = s.commands := rfl
@[simp] theorem State.setLatch_cs_bufs (s : State) (v : Bool) : (s.setLatch v .cs).bufs = s.bufs := rfl
@[simp] theorem State.setLatch_cs_trace (s : State) (v : Bool) : (s.setLatch v .cs).trace = s.trace := rfl
@[simp] theorem State.setLatch_cs_params (s : State) (v : Bool) : (s.setLatch v .cs).params = s.params := rfl
@[simp] theorem State.setLatch_cs_draws (s : State) (v : Bool) : (s.setLatch v .cs).draws = s.draws := rfl

@[simp] theorem State.setLatch_sck_dir (s : State) (v : Bool) : (s.setLatch v .sck).dir = s.dir := rfl
@[simp] theorem State.setLatch_sck_cs (s : State) (v : Bool) : (s.setLatch v .sck).cs = s.cs := rfl
@[simp] theorem State.setLatch_sck_sck (s : State) (v : Bool) : (s.setLatch v .sck).sck = v := rfl
@[simp] theorem State.setLatch_sck_di (s : State) (v : Bool) : (s.setLatch v .sck).di = s.di := rfl
@[simp] theorem State.setLatch_sck_sr (s : State) (v : Bool) : (s.setLatch v .sck).sr = s.sr := rfl
@[simp] theorem State.setLatch_sck_bitcnt (s : State) (v : Bool) : (s.setLatch v .sck).bitcnt = s.bitcnt := rfl
@[simp] theorem State.setLatch_sck_addr (s : State) (v : Bool) : (s.setLatch v .sck).addr = s.addr := rfl
@[simp] theorem State.setLatch_sck_len (s : State) (v : Bool) : (s.setLatch v .sck).len = s.len := rfl
@[simp] theorem State.setLatch_sck_val (s : State) (v : Bool) : (s.setLatch v .sck).val = s.val := rfl
@[simp] theorem State.setLatch_sck_idx (s : State) (v : Bool) : (s.setLatch v .sck).idx = s.idx := rfl
@[simp] theorem State.setLatch_sck_pollcnt (s : State) (v : Bool) : (s.setLatch v .sck).pollcnt = s.pollcnt := rfl
@[simp] theorem State.setLatch_sck_st (s : State) (v : Bool) : (s.setLatch v .sck).st = s.st := rfl
@[simp] theorem State.setLatch_sck_err (s : State) (v : Bool) : (s.setLatch v .sck).err = s.err := rfl
@[simp] theorem State.setLatch_sck_ph (s : State) (v : Bool) : (s.setLatch v .sck).ph = s.ph := rfl
@[simp] theorem State.setLatch_sck_opr (s : State) (v : Bool) : (s.setLatch v .sck).opr = s.opr := rfl
@[simp] theorem State.setLatch_sck_bufRef (s : State) (v : Bool) : (s.setLatch v .sck).bufRef = s.bufRef := rfl
@[simp] theorem State.setLatch_sck_ret (s : State) (v : Bool) : (s.setLatch v .sck).ret = s.ret := rfl
@[simp] theorem State.setLatch_sck_dev (s : State) (v : Bool) : (s.setLatch v .sck).dev = s.dev := rfl
@[simp] theorem State.setLatch_sck_commands (s : State) (v : Bool) : (s.setLatch v .sck).commands = s.commands := rfl
@[simp] theorem State.setLatch_sck_bufs (s : State) (v : Bool) : (s.setLatch v .sck).bufs = s.bufs := rfl
@[simp] theorem State.setLatch_sck_trace (s : State) (v : Bool) : (s.setLatch v .sck).trace = s.trace := rfl
@[simp] theorem State.setLatch_sck_params (s : State) (v : Bool) : (s.setLatch v .sck).params = s.params := rfl
@[simp] theorem State.setLatch_sck_draws (s : State) (v : Bool) : (s.setLatch v .sck).draws = s.draws := rfl

@[simp] theorem State.setLatch_di_dir (s : State) (v : Bool) : (s.setLatch v .di).dir = s.dir := rfl
@[simp] theorem State.setLatch_di_cs (s : State) (v : Bool) : (s.setLatch v .di).cs = s.cs := rfl
@[simp] theorem State.setLatch_di_sck (s : State) (v : Bool) : (s.setLatch v .di).sck = s.sck := rfl
@[simp] theorem State.setLatch_di_di (s : State) (v : Bool) : (s.setLatch v .di).di = v := rfl
@[simp] theorem State.setLatch_di_sr (s : State) (v : Bool) : (s.setLatch v .di).sr = s.sr := rfl
@[simp] theorem State.setLatch_di_bitcnt (s : State) (v : Bool) : (s.setLatch v .di).bitcnt = s.bitcnt := rfl
@[simp] theorem State.setLatch_di_addr (s : State) (v : Bool) : (s.setLatch v .di).addr = s.addr := rfl
@[simp] theorem State.setLatch_di_len (s : State) (v : Bool) : (s.setLatch v .di).len = s.len := rfl
@[simp] theorem State.setLatch_di_val (s : State) (v : Bool) : (s.setLatch v .di).val = s.val := rfl
@[simp] theorem State.setLatch_di_idx (s : State) (v : Bool) : (s.setLatch v .di).idx = s.idx := rfl
@[simp] theorem State.setLatch_di_pollcnt (s : State) (v : Bool) : (s.setLatch v .di).pollcnt = s.pollcnt := rfl
@[simp] theorem State.setLatch_di_st (s : State) (v : Bool) : (s.setLatch v .di).st = s.st := rfl
@[simp] theorem State.setLatch_di_err (s : State) (v : Bool) : (s.setLatch v .di).err = s.err := rfl
@[simp] theorem State.setLatch_di_ph (s : State) (v : Bool) : (s.setLatch v .di).ph = s.ph := rfl
@[simp] theorem State.setLatch_di_opr (s : State) (v : Bool) : (s.setLatch v .di).opr = s.opr := rfl
@[simp] theorem State.setLatch_di_bufRef (s : State) (v : Bool) : (s.setLatch v .di).bufRef = s.bufRef := rfl
@[simp] theorem State.setLatch_di_ret (s : State) (v : Bool) : (s.setLatch v .di).ret = s.ret := rfl
@[simp] theorem State.setLatch_di_dev (s : State) (v : Bool) : (s.setLatch v .di).dev = s.dev := rfl
@[simp] theorem State.setLatch_di_commands (s : State) (v : Bool) : (s.setLatch v .di).commands = s.commands := rfl
@[simp] theorem State.setLatch_di_bufs (s : State) (v : Bool) : (s.setLatch v .di).bufs = s.bufs := rfl
@[simp] theorem State.setLatch_di_trace (s : State) (v : Bool) : (s.setLatch v .di).trace = s.trace := rfl
@[simp] theorem State.setLatch_di_params (s : State) (v : Bool) : (s.setLatch v .di).params = s.params := rfl
@[simp] theorem State.setLatch_di_draws (s : State) (v : Bool) : (s.setLatch v .di).draws = s.draws := rfl

end Sys2Proof.Machine
end

