-- ==== Sys2Proof/Laws/BusRun.lean ====
section
/-! SUPPORT. What traffic on the bus can do (said once, as `BusRun`), and what it leaves alone in every operation. -/

namespace Sys2Proof.Machine

/-- A DEV reaction touches DEV and the free values only. -/
theorem State.startBusy_eq (s : State) : s.startBusy = { s with dev := s.startBusy.dev, draws := s.startBusy.draws } := rfl

theorem State.carryOut_eq (s : State) (c : FrameCmd) :
    s.carryOut c = { s with dev := (s.carryOut c).dev, draws := (s.carryOut c).draws } := by
  cases c <;> rfl

theorem State.commit_eq (s : State) : s.commit = { s with dev := s.commit.dev, draws := s.commit.draws } := by
  simp only [State.commit]
  split
  · rfl
  · rename_i c _
    split
    · rw [State.carryOut_eq s c]
    · rfl

theorem State.clockIn_eq (s : State) : s.clockIn = { s with dev := s.clockIn.dev, draws := s.clockIn.draws } := by
  simp only [State.clockIn]; split <;> rfl

theorem State.react_eq (s : State) (l : Line) (v : Bool) :
    s.react l v = { s with dev := (s.react l v).dev, draws := (s.react l v).draws } := by
  cases l <;> cases v <;> simp only [State.react]
  · rfl
  · exact s.commit_eq
  · split
    · rfl
    · exact s.clockIn_eq

theorem State.drive_eq (s : State) (l : Line) (v : Bool) :
    s.drive l v = { s.setLatch v l with
      trace := s.trace ++ [.drive l v], dev := (s.drive l v).dev, draws := (s.drive l v).draws } := by
  conv_lhs => rw [State.drive, State.react_eq]
  cases l <;> rfl

theorem State.afterSample_eq (s : State) :
    s.afterSample = { s with
      trace := s.trace ++ [.sample s.sampled], dev := s.dev.tick, draws := s.afterSample.draws } := by
  simp only [State.afterSample, State.sampled]
  split <;> rfl

/-- `t` is reached from `s` by line events and by writing the registers of the bit-banger, PH and ST. -/
inductive BusRun (s : State) : State → Prop
  | refl : BusRun s s
  | drive {t : State} (h : BusRun s t) (l : Line) (v : Bool) : BusRun s (t.drive l v)
  | delayShort {t : State} (h : BusRun s t) : BusRun s t.delayShort
  | delayUs {t : State} (h : BusRun s t) (n : Nat) : BusRun s (t.delayUs n)
  | afterSample {t : State} (h : BusRun s t) : BusRun s t.afterSample
  | regs {t : State} (h : BusRun s t) (sr : Byte) (bitcnt : BitVec 4) (ph : Phase) (st : Byte) :
    BusRun s { t with sr := sr, bitcnt := bitcnt, ph := ph, st := st }

theorem BusRun.trans {s t u : State} (h : BusRun s t) (k : BusRun t u) : BusRun s u := by
  induction k with
  | refl => exact h
  | drive _ l v ih => exact ih.drive l v
  | delayShort _ ih => exact ih.delayShort
  | delayUs _ n ih => exact ih.delayUs n
  | afterSample _ ih => exact ih.afterSample
  | regs _ a b c d ih => exact ih.regs a b c d

/-- What bus traffic can change: the latches, the registers of the bit-banger, PH, ST, the trace, DEV and the free values. -/
theorem BusRun.eq {s t : State} (h : BusRun s t) :
    t = { s with
      cs := t.cs, sck := t.sck, di := t.di, sr := t.sr, bitcnt := t.bitcnt, ph := t.ph, st := t.st
      trace := t.trace, dev := t.dev, draws := t.draws } := by
  induction h with
  | refl => rfl
  | @drive t _ l v ih =>
    rw [State.drive_eq]
    generalize (t.drive l v).dev = d
    generalize (t.drive l v).draws = w
    cases l <;> (conv_lhs => rw [ih]) <;> rfl
  | @delayShort t _ ih =>
    conv_lhs => rw [ih]
    rfl
  | @delayUs t _ n ih =>
    conv_lhs => rw [ih]
    rfl
  | @afterSample t _ ih =>
    rw [State.afterSample_eq]
    generalize t.afterSample.draws = w
    generalize t.sampled = b
    conv_lhs => rw [ih]
  | @regs t _ a b c d ih => conv_lhs => rw [ih]


theorem BusRun.dir {s t : State} (h : BusRun s t) : t.dir = s.dir := by rw [h.eq]
theorem BusRun.addr {s t : State} (h : BusRun s t) : t.addr = s.addr := by rw [h.eq]
theorem BusRun.len {s t : State} (h : BusRun s t) : t.len = s.len := by rw [h.eq]
theorem BusRun.val {s t : State} (h : BusRun s t) : t.val = s.val := by rw [h.eq]
theorem BusRun.idx {s t : State} (h : BusRun s t) : t.idx = s.idx := by rw [h.eq]
theorem BusRun.pollcnt {s t : State} (h : BusRun s t) : t.pollcnt = s.pollcnt := by rw [h.eq]
theorem BusRun.err {s t : State} (h : BusRun s t) : t.err = s.err := by rw [h.eq]
theorem BusRun.opr {s t : State} (h : BusRun s t) : t.opr = s.opr := by rw [h.eq]
theorem BusRun.bufRef {s t : State} (h : BusRun s t) : t.bufRef = s.bufRef := by rw [h.eq]
theorem BusRun.ret {s t : State} (h : BusRun s t) : t.ret = s.ret := by rw [h.eq]
theorem BusRun.commands {s t : State} (h : BusRun s t) : t.commands = s.commands := by rw [h.eq]
theorem BusRun.bufs {s t : State} (h : BusRun s t) : t.bufs = s.bufs := by rw [h.eq]
theorem BusRun.params {s t : State} (h : BusRun s t) : t.params = s.params := by rw [h.eq]

theorem BusRun.sendBits {s t : State} (h : BusRun s t) : ∀ n, BusRun s (t.sendBits n) := by
  intro n
  induction n generalizing t with
  | zero => exact h
  | succ n ih => exact ih ((((((h.drive _ _).drive _ _).delayShort).drive _ _).delayShort).regs _ _ _ _)

theorem BusRun.receiveBits {s t : State} (h : BusRun s t) : ∀ n, BusRun s (t.receiveBits n) := by
  intro n
  induction n generalizing t with
  | zero => exact h
  | succ n ih =>
    exact ih (((((((h.drive _ _).delayShort).afterSample).regs _ _ _ _).drive _ _).delayShort).regs _ _ _ _)

theorem BusRun.setPhase {s t : State} (h : BusRun s t) (p : Phase) : BusRun s (t.setPhase p) := h.regs _ _ _ _
theorem BusRun.select {s t : State} (h : BusRun s t) : BusRun s t.select :=
  (((h.drive _ _).drive _ _).delayUs _).regs _ _ _ _
theorem BusRun.deselect {s t : State} (h : BusRun s t) : BusRun s t.deselect :=
  ((((h.drive _ _).regs _ _ _ _).drive _ _).delayUs _).regs _ _ _ _
theorem BusRun.sendBit {s t : State} (h : BusRun s t) : BusRun s t.sendBit := h.sendBits 1
theorem BusRun.sendByte {s t : State} (h : BusRun s t) (v : Byte) : BusRun s (t.sendByte v) :=
  (h.regs v 8 t.ph t.st).sendBits 8
theorem BusRun.receiveBit {s t : State} (h : BusRun s t) : BusRun s t.receiveBit := h.receiveBits 1
theorem BusRun.receiveByte {s t : State} (h : BusRun s t) : BusRun s t.receiveByte :=
  (h.regs t.sr 8 t.ph t.st).receiveBits 8
theorem BusRun.sendOpcode {s t : State} (h : BusRun s t) (b : Byte) : BusRun s (t.sendOpcode b) := (h.sendByte b).setPhase _
theorem BusRun.sendAddress {s t : State} (h : BusRun s t) (a : Addr) : BusRun s (t.sendAddress a) :=
  (((h.sendByte _).sendByte _).sendByte _).setPhase _
theorem BusRun.opcodeFrame {s t : State} (h : BusRun s t) (b : Byte) : BusRun s (t.opcodeFrame b) :=
  (h.select.sendOpcode b).deselect
theorem BusRun.dataFrame {s t : State} (h : BusRun s t) (b v : Byte) : BusRun s (t.dataFrame b v) :=
  (((h.select.sendOpcode b).setPhase _).sendByte v).deselect
theorem BusRun.addressFrame {s t : State} (h : BusRun s t) (b : Byte) (a : Addr) : BusRun s (t.addressFrame b a) :=
  ((h.select.sendOpcode b).sendAddress a).deselect
theorem BusRun.addressDataFrame {s t : State} (h : BusRun s t) (b : Byte) (a : Addr) (v : Byte) :
    BusRun s (t.addressDataFrame b a v) :=
  ((((h.select.sendOpcode b).sendAddress a).setPhase _).sendByte v).deselect
theorem BusRun.statusFrame {s t : State} (h : BusRun s t) : BusRun s t.statusFrame :=
  ((((h.select.sendOpcode 0x05).setPhase .dataPhase).receiveByte).regs _ _ _ _).deselect
theorem BusRun.programFrames {s t : State} (h : BusRun s t) (a : Addr) (v : Byte) : BusRun s (t.programFrames a v) :=
  (h.opcodeFrame 0x06).addressDataFrame 0x02 a v

@[simp] theorem State.drive_dir (s : State) (l : Line) (v : Bool) : (s.drive l v).dir = s.dir := (BusRun.refl.drive l v).dir
@[simp] theorem State.drive_addr (s : State) (l : Line) (v : Bool) : (s.drive l v).addr = s.addr := (BusRun.refl.drive l v).addr
@[simp] theorem State.drive_len (s : State) (l : Line) (v : Bool) : (s.drive l v).len = s.len := (BusRun.refl.drive l v).len
@[simp] theorem State.drive_val (s : State) (l : Line) (v : Bool) : (s.drive l v).val = s.val := (BusRun.refl.drive l v).val
@[simp] theorem State.drive_idx (s : State) (l : Line) (v : Bool) : (s.drive l v).idx = s.idx := (BusRun.refl.drive l v).idx
@[simp] theorem State.drive_pollcnt (s : State) (l : Line) (v : Bool) : (s.drive l v).pollcnt = s.pollcnt := (BusRun.refl.drive l v).pollcnt
@[simp] theorem State.drive_err (s : State) (l : Line) (v : Bool) : (s.drive l v).err = s.err := (BusRun.refl.drive l v).err
@[simp] theorem State.drive_opr (s : State) (l : Line) (v : Bool) : (s.drive l v).opr = s.opr := (BusRun.refl.drive l v).opr
@[simp] theorem State.drive_bufRef (s : State) (l : Line) (v : Bool) : (s.drive l v).bufRef = s.bufRef := (BusRun.refl.drive l v).bufRef
@[simp] theorem State.drive_ret (s : State) (l : Line) (v : Bool) : (s.drive l v).ret = s.ret := (BusRun.refl.drive l v).ret
@[simp] theorem State.drive_commands (s : State) (l : Line) (v : Bool) : (s.drive l v).commands = s.commands := (BusRun.refl.drive l v).commands
@[simp] theorem State.drive_bufs (s : State) (l : Line) (v : Bool) : (s.drive l v).bufs = s.bufs := (BusRun.refl.drive l v).bufs
@[simp] theorem State.drive_params (s : State) (l : Line) (v : Bool) : (s.drive l v).params = s.params := (BusRun.refl.drive l v).params

@[simp] theorem State.delayShort_dir (s : State) : s.delayShort.dir = s.dir := (BusRun.refl.delayShort).dir
@[simp] theorem State.delayShort_addr (s : State) : s.delayShort.addr = s.addr := (BusRun.refl.delayShort).addr
@[simp] theorem State.delayShort_len (s : State) : s.delayShort.len = s.len := (BusRun.refl.delayShort).len
@[simp] theorem State.delayShort_val (s : State) : s.delayShort.val = s.val := (BusRun.refl.delayShort).val
@[simp] theorem State.delayShort_idx (s : State) : s.delayShort.idx = s.idx := (BusRun.refl.delayShort).idx
@[simp] theorem State.delayShort_pollcnt (s : State) : s.delayShort.pollcnt = s.pollcnt := (BusRun.refl.delayShort).pollcnt
@[simp] theorem State.delayShort_err (s : State) : s.delayShort.err = s.err := (BusRun.refl.delayShort).err
@[simp] theorem State.delayShort_opr (s : State) : s.delayShort.opr = s.opr := (BusRun.refl.delayShort).opr
@[simp] theorem State.delayShort_bufRef (s : State) : s.delayShort.bufRef = s.bufRef := (BusRun.refl.delayShort).bufRef
@[simp] theorem State.delayShort_ret (s : State) : s.delayShort.ret = s.ret := (BusRun.refl.delayShort).ret
@[simp] theorem State.delayShort_commands (s : State) : s.delayShort.commands = s.commands := (BusRun.refl.delayShort).commands
@[simp] theorem State.delayShort_bufs (s : State) : s.delayShort.bufs = s.bufs := (BusRun.refl.delayShort).bufs
@[simp] theorem State.delayShort_params (s : State) : s.delayShort.params = s.params := (BusRun.refl.delayShort).params

@[simp] theorem State.delayUs_dir (s : State) (n : Nat) : (s.delayUs n).dir = s.dir := (BusRun.refl.delayUs n).dir
@[simp] theorem State.delayUs_addr (s : State) (n : Nat) : (s.delayUs n).addr = s.addr := (BusRun.refl.delayUs n).addr
@[simp] theorem State.delayUs_len (s : State) (n : Nat) : (s.delayUs n).len = s.len := (BusRun.refl.delayUs n).len
@[simp] theorem State.delayUs_val (s : State) (n : Nat) : (s.delayUs n).val = s.val := (BusRun.refl.delayUs n).val
@[simp] theorem State.delayUs_idx (s : State) (n : Nat) : (s.delayUs n).idx = s.idx := (BusRun.refl.delayUs n).idx
@[simp] theorem State.delayUs_pollcnt (s : State) (n : Nat) : (s.delayUs n).pollcnt = s.pollcnt := (BusRun.refl.delayUs n).pollcnt
@[simp] theorem State.delayUs_err (s : State) (n : Nat) : (s.delayUs n).err = s.err := (BusRun.refl.delayUs n).err
@[simp] theorem State.delayUs_opr (s : State) (n : Nat) : (s.delayUs n).opr = s.opr := (BusRun.refl.delayUs n).opr
@[simp] theorem State.delayUs_bufRef (s : State) (n : Nat) : (s.delayUs n).bufRef = s.bufRef := (BusRun.refl.delayUs n).bufRef
@[simp] theorem State.delayUs_ret (s : State) (n : Nat) : (s.delayUs n).ret = s.ret := (BusRun.refl.delayUs n).ret
@[simp] theorem State.delayUs_commands (s : State) (n : Nat) : (s.delayUs n).commands = s.commands := (BusRun.refl.delayUs n).commands
@[simp] theorem State.delayUs_bufs (s : State) (n : Nat) : (s.delayUs n).bufs = s.bufs := (BusRun.refl.delayUs n).bufs
@[simp] theorem State.delayUs_params (s : State) (n : Nat) : (s.delayUs n).params = s.params := (BusRun.refl.delayUs n).params

@[simp] theorem State.afterSample_dir (s : State) : s.afterSample.dir = s.dir := (BusRun.refl.afterSample).dir
@[simp] theorem State.afterSample_addr (s : State) : s.afterSample.addr = s.addr := (BusRun.refl.afterSample).addr
@[simp] theorem State.afterSample_len (s : State) : s.afterSample.len = s.len := (BusRun.refl.afterSample).len
@[simp] theorem State.afterSample_val (s : State) : s.afterSample.val = s.val := (BusRun.refl.afterSample).val
@[simp] theorem State.afterSample_idx (s : State) : s.afterSample.idx = s.idx := (BusRun.refl.afterSample).idx
@[simp] theorem State.afterSample_pollcnt (s : State) : s.afterSample.pollcnt = s.pollcnt := (BusRun.refl.afterSample).pollcnt
@[simp] theorem State.afterSample_err (s : State) : s.afterSample.err = s.err := (BusRun.refl.afterSample).err
@[simp] theorem State.afterSample_opr (s : State) : s.afterSample.opr = s.opr := (BusRun.refl.afterSample).opr
@[simp] theorem State.afterSample_bufRef (s : State) : s.afterSample.bufRef = s.bufRef := (BusRun.refl.afterSample).bufRef
@[simp] theorem State.afterSample_ret (s : State) : s.afterSample.ret = s.ret := (BusRun.refl.afterSample).ret
@[simp] theorem State.afterSample_commands (s : State) : s.afterSample.commands = s.commands := (BusRun.refl.afterSample).commands
@[simp] theorem State.afterSample_bufs (s : State) : s.afterSample.bufs = s.bufs := (BusRun.refl.afterSample).bufs
@[simp] theorem State.afterSample_params (s : State) : s.afterSample.params = s.params := (BusRun.refl.afterSample).params

@[simp] theorem State.select_dir (s : State) : s.select.dir = s.dir := (BusRun.refl.select).dir
@[simp] theorem State.select_addr (s : State) : s.select.addr = s.addr := (BusRun.refl.select).addr
@[simp] theorem State.select_len (s : State) : s.select.len = s.len := (BusRun.refl.select).len
@[simp] theorem State.select_val (s : State) : s.select.val = s.val := (BusRun.refl.select).val
@[simp] theorem State.select_idx (s : State) : s.select.idx = s.idx := (BusRun.refl.select).idx
@[simp] theorem State.select_pollcnt (s : State) : s.select.pollcnt = s.pollcnt := (BusRun.refl.select).pollcnt
@[simp] theorem State.select_err (s : State) : s.select.err = s.err := (BusRun.refl.select).err
@[simp] theorem State.select_opr (s : State) : s.select.opr = s.opr := (BusRun.refl.select).opr
@[simp] theorem State.select_bufRef (s : State) : s.select.bufRef = s.bufRef := (BusRun.refl.select).bufRef
@[simp] theorem State.select_ret (s : State) : s.select.ret = s.ret := (BusRun.refl.select).ret
@[simp] theorem State.select_commands (s : State) : s.select.commands = s.commands := (BusRun.refl.select).commands
@[simp] theorem State.select_bufs (s : State) : s.select.bufs = s.bufs := (BusRun.refl.select).bufs
@[simp] theorem State.select_params (s : State) : s.select.params = s.params := (BusRun.refl.select).params

@[simp] theorem State.deselect_dir (s : State) : s.deselect.dir = s.dir := (BusRun.refl.deselect).dir
@[simp] theorem State.deselect_addr (s : State) : s.deselect.addr = s.addr := (BusRun.refl.deselect).addr
@[simp] theorem State.deselect_len (s : State) : s.deselect.len = s.len := (BusRun.refl.deselect).len
@[simp] theorem State.deselect_val (s : State) : s.deselect.val = s.val := (BusRun.refl.deselect).val
@[simp] theorem State.deselect_idx (s : State) : s.deselect.idx = s.idx := (BusRun.refl.deselect).idx
@[simp] theorem State.deselect_pollcnt (s : State) : s.deselect.pollcnt = s.pollcnt := (BusRun.refl.deselect).pollcnt
@[simp] theorem State.deselect_err (s : State) : s.deselect.err = s.err := (BusRun.refl.deselect).err
@[simp] theorem State.deselect_opr (s : State) : s.deselect.opr = s.opr := (BusRun.refl.deselect).opr
@[simp] theorem State.deselect_bufRef (s : State) : s.deselect.bufRef = s.bufRef := (BusRun.refl.deselect).bufRef
@[simp] theorem State.deselect_ret (s : State) : s.deselect.ret = s.ret := (BusRun.refl.deselect).ret
@[simp] theorem State.deselect_commands (s : State) : s.deselect.commands = s.commands := (BusRun.refl.deselect).commands
@[simp] theorem State.deselect_bufs (s : State) : s.deselect.bufs = s.bufs := (BusRun.refl.deselect).bufs
@[simp] theorem State.deselect_params (s : State) : s.deselect.params = s.params := (BusRun.refl.deselect).params

@[simp] theorem State.sendBit_dir (s : State) : s.sendBit.dir = s.dir := (BusRun.refl.sendBit).dir
@[simp] theorem State.sendBit_addr (s : State) : s.sendBit.addr = s.addr := (BusRun.refl.sendBit).addr
@[simp] theorem State.sendBit_len (s : State) : s.sendBit.len = s.len := (BusRun.refl.sendBit).len
@[simp] theorem State.sendBit_val (s : State) : s.sendBit.val = s.val := (BusRun.refl.sendBit).val
@[simp] theorem State.sendBit_idx (s : State) : s.sendBit.idx = s.idx := (BusRun.refl.sendBit).idx
@[simp] theorem State.sendBit_pollcnt (s : State) : s.sendBit.pollcnt = s.pollcnt := (BusRun.refl.sendBit).pollcnt
@[simp] theorem State.sendBit_err (s : State) : s.sendBit.err = s.err := (BusRun.refl.sendBit).err
@[simp] theorem State.sendBit_opr (s : State) : s.sendBit.opr = s.opr := (BusRun.refl.sendBit).opr
@[simp] theorem State.sendBit_bufRef (s : State) : s.sendBit.bufRef = s.bufRef := (BusRun.refl.sendBit).bufRef
@[simp] theorem State.sendBit_ret (s : State) : s.sendBit.ret = s.ret := (BusRun.refl.sendBit).ret
@[simp] theorem State.sendBit_commands (s : State) : s.sendBit.commands = s.commands := (BusRun.refl.sendBit).commands
@[simp] theorem State.sendBit_bufs (s : State) : s.sendBit.bufs = s.bufs := (BusRun.refl.sendBit).bufs
@[simp] theorem State.sendBit_params (s : State) : s.sendBit.params = s.params := (BusRun.refl.sendBit).params

@[simp] theorem State.sendByte_dir (s : State) (v : Byte) : (s.sendByte v).dir = s.dir := (BusRun.refl.sendByte v).dir
@[simp] theorem State.sendByte_addr (s : State) (v : Byte) : (s.sendByte v).addr = s.addr := (BusRun.refl.sendByte v).addr
@[simp] theorem State.sendByte_len (s : State) (v : Byte) : (s.sendByte v).len = s.len := (BusRun.refl.sendByte v).len
@[simp] theorem State.sendByte_val (s : State) (v : Byte) : (s.sendByte v).val = s.val := (BusRun.refl.sendByte v).val
@[simp] theorem State.sendByte_idx (s : State) (v : Byte) : (s.sendByte v).idx = s.idx := (BusRun.refl.sendByte v).idx
@[simp] theorem State.sendByte_pollcnt (s : State) (v : Byte) : (s.sendByte v).pollcnt = s.pollcnt := (BusRun.refl.sendByte v).pollcnt
@[simp] theorem State.sendByte_err (s : State) (v : Byte) : (s.sendByte v).err = s.err := (BusRun.refl.sendByte v).err
@[simp] theorem State.sendByte_opr (s : State) (v : Byte) : (s.sendByte v).opr = s.opr := (BusRun.refl.sendByte v).opr
@[simp] theorem State.sendByte_bufRef (s : State) (v : Byte) : (s.sendByte v).bufRef = s.bufRef := (BusRun.refl.sendByte v).bufRef
@[simp] theorem State.sendByte_ret (s : State) (v : Byte) : (s.sendByte v).ret = s.ret := (BusRun.refl.sendByte v).ret
@[simp] theorem State.sendByte_commands (s : State) (v : Byte) : (s.sendByte v).commands = s.commands := (BusRun.refl.sendByte v).commands
@[simp] theorem State.sendByte_bufs (s : State) (v : Byte) : (s.sendByte v).bufs = s.bufs := (BusRun.refl.sendByte v).bufs
@[simp] theorem State.sendByte_params (s : State) (v : Byte) : (s.sendByte v).params = s.params := (BusRun.refl.sendByte v).params

@[simp] theorem State.receiveBit_dir (s : State) : s.receiveBit.dir = s.dir := (BusRun.refl.receiveBit).dir
@[simp] theorem State.receiveBit_addr (s : State) : s.receiveBit.addr = s.addr := (BusRun.refl.receiveBit).addr
@[simp] theorem State.receiveBit_len (s : State) : s.receiveBit.len = s.len := (BusRun.refl.receiveBit).len
@[simp] theorem State.receiveBit_val (s : State) : s.receiveBit.val = s.val := (BusRun.refl.receiveBit).val
@[simp] theorem State.receiveBit_idx (s : State) : s.receiveBit.idx = s.idx := (BusRun.refl.receiveBit).idx
@[simp] theorem State.receiveBit_pollcnt (s : State) : s.receiveBit.pollcnt = s.pollcnt := (BusRun.refl.receiveBit).pollcnt
@[simp] theorem State.receiveBit_err (s : State) : s.receiveBit.err = s.err := (BusRun.refl.receiveBit).err
@[simp] theorem State.receiveBit_opr (s : State) : s.receiveBit.opr = s.opr := (BusRun.refl.receiveBit).opr
@[simp] theorem State.receiveBit_bufRef (s : State) : s.receiveBit.bufRef = s.bufRef := (BusRun.refl.receiveBit).bufRef
@[simp] theorem State.receiveBit_ret (s : State) : s.receiveBit.ret = s.ret := (BusRun.refl.receiveBit).ret
@[simp] theorem State.receiveBit_commands (s : State) : s.receiveBit.commands = s.commands := (BusRun.refl.receiveBit).commands
@[simp] theorem State.receiveBit_bufs (s : State) : s.receiveBit.bufs = s.bufs := (BusRun.refl.receiveBit).bufs
@[simp] theorem State.receiveBit_params (s : State) : s.receiveBit.params = s.params := (BusRun.refl.receiveBit).params

@[simp] theorem State.receiveByte_dir (s : State) : s.receiveByte.dir = s.dir := (BusRun.refl.receiveByte).dir
@[simp] theorem State.receiveByte_addr (s : State) : s.receiveByte.addr = s.addr := (BusRun.refl.receiveByte).addr
@[simp] theorem State.receiveByte_len (s : State) : s.receiveByte.len = s.len := (BusRun.refl.receiveByte).len
@[simp] theorem State.receiveByte_val (s : State) : s.receiveByte.val = s.val := (BusRun.refl.receiveByte).val
@[simp] theorem State.receiveByte_idx (s : State) : s.receiveByte.idx = s.idx := (BusRun.refl.receiveByte).idx
@[simp] theorem State.receiveByte_pollcnt (s : State) : s.receiveByte.pollcnt = s.pollcnt := (BusRun.refl.receiveByte).pollcnt
@[simp] theorem State.receiveByte_err (s : State) : s.receiveByte.err = s.err := (BusRun.refl.receiveByte).err
@[simp] theorem State.receiveByte_opr (s : State) : s.receiveByte.opr = s.opr := (BusRun.refl.receiveByte).opr
@[simp] theorem State.receiveByte_bufRef (s : State) : s.receiveByte.bufRef = s.bufRef := (BusRun.refl.receiveByte).bufRef
@[simp] theorem State.receiveByte_ret (s : State) : s.receiveByte.ret = s.ret := (BusRun.refl.receiveByte).ret
@[simp] theorem State.receiveByte_commands (s : State) : s.receiveByte.commands = s.commands := (BusRun.refl.receiveByte).commands
@[simp] theorem State.receiveByte_bufs (s : State) : s.receiveByte.bufs = s.bufs := (BusRun.refl.receiveByte).bufs
@[simp] theorem State.receiveByte_params (s : State) : s.receiveByte.params = s.params := (BusRun.refl.receiveByte).params

@[simp] theorem State.sendOpcode_dir (s : State) (b : Byte) : (s.sendOpcode b).dir = s.dir := (BusRun.refl.sendOpcode b).dir
@[simp] theorem State.sendOpcode_addr (s : State) (b : Byte) : (s.sendOpcode b).addr = s.addr := (BusRun.refl.sendOpcode b).addr
@[simp] theorem State.sendOpcode_len (s : State) (b : Byte) : (s.sendOpcode b).len = s.len := (BusRun.refl.sendOpcode b).len
@[simp] theorem State.sendOpcode_val (s : State) (b : Byte) : (s.sendOpcode b).val = s.val := (BusRun.refl.sendOpcode b).val
@[simp] theorem State.sendOpcode_idx (s : State) (b : Byte) : (s.sendOpcode b).idx = s.idx := (BusRun.refl.sendOpcode b).idx
@[simp] theorem State.sendOpcode_pollcnt (s : State) (b : Byte) : (s.sendOpcode b).pollcnt = s.pollcnt := (BusRun.refl.sendOpcode b).pollcnt
@[simp] theorem State.sendOpcode_err (s : State) (b : Byte) : (s.sendOpcode b).err = s.err := (BusRun.refl.sendOpcode b).err
@[simp] theorem State.sendOpcode_opr (s : State) (b : Byte) : (s.sendOpcode b).opr = s.opr := (BusRun.refl.sendOpcode b).opr
@[simp] theorem State.sendOpcode_bufRef (s : State) (b : Byte) : (s.sendOpcode b).bufRef = s.bufRef := (BusRun.refl.sendOpcode b).bufRef
@[simp] theorem State.sendOpcode_ret (s : State) (b : Byte) : (s.sendOpcode b).ret = s.ret := (BusRun.refl.sendOpcode b).ret
@[simp] theorem State.sendOpcode_commands (s : State) (b : Byte) : (s.sendOpcode b).commands = s.commands := (BusRun.refl.sendOpcode b).commands
@[simp] theorem State.sendOpcode_bufs (s : State) (b : Byte) : (s.sendOpcode b).bufs = s.bufs := (BusRun.refl.sendOpcode b).bufs
@[simp] theorem State.sendOpcode_params (s : State) (b : Byte) : (s.sendOpcode b).params = s.params := (BusRun.refl.sendOpcode b).params

@[simp] theorem State.sendAddress_dir (s : State) (a : Addr) : (s.sendAddress a).dir = s.dir := (BusRun.refl.sendAddress a).dir
@[simp] theorem State.sendAddress_addr (s : State) (a : Addr) : (s.sendAddress a).addr = s.addr := (BusRun.refl.sendAddress a).addr
@[simp] theorem State.sendAddress_len (s : State) (a : Addr) : (s.sendAddress a).len = s.len := (BusRun.refl.sendAddress a).len
@[simp] theorem State.sendAddress_val (s : State) (a : Addr) : (s.sendAddress a).val = s.val := (BusRun.refl.sendAddress a).val
@[simp] theorem State.sendAddress_idx (s : State) (a : Addr) : (s.sendAddress a).idx = s.idx := (BusRun.refl.sendAddress a).idx
@[simp] theorem State.sendAddress_pollcnt (s : State) (a : Addr) : (s.sendAddress a).pollcnt = s.pollcnt := (BusRun.refl.sendAddress a).pollcnt
@[simp] theorem State.sendAddress_err (s : State) (a : Addr) : (s.sendAddress a).err = s.err := (BusRun.refl.sendAddress a).err
@[simp] theorem State.sendAddress_opr (s : State) (a : Addr) : (s.sendAddress a).opr = s.opr := (BusRun.refl.sendAddress a).opr
@[simp] theorem State.sendAddress_bufRef (s : State) (a : Addr) : (s.sendAddress a).bufRef = s.bufRef := (BusRun.refl.sendAddress a).bufRef
@[simp] theorem State.sendAddress_ret (s : State) (a : Addr) : (s.sendAddress a).ret = s.ret := (BusRun.refl.sendAddress a).ret
@[simp] theorem State.sendAddress_commands (s : State) (a : Addr) : (s.sendAddress a).commands = s.commands := (BusRun.refl.sendAddress a).commands
@[simp] theorem State.sendAddress_bufs (s : State) (a : Addr) : (s.sendAddress a).bufs = s.bufs := (BusRun.refl.sendAddress a).bufs
@[simp] theorem State.sendAddress_params (s : State) (a : Addr) : (s.sendAddress a).params = s.params := (BusRun.refl.sendAddress a).params

@[simp] theorem State.opcodeFrame_dir (s : State) (b : Byte) : (s.opcodeFrame b).dir = s.dir := (BusRun.refl.opcodeFrame b).dir
@[simp] theorem State.opcodeFrame_addr (s : State) (b : Byte) : (s.opcodeFrame b).addr = s.addr := (BusRun.refl.opcodeFrame b).addr
@[simp] theorem State.opcodeFrame_len (s : State) (b : Byte) : (s.opcodeFrame b).len = s.len := (BusRun.refl.opcodeFrame b).len
@[simp] theorem State.opcodeFrame_val (s : State) (b : Byte) : (s.opcodeFrame b).val = s.val := (BusRun.refl.opcodeFrame b).val
@[simp] theorem State.opcodeFrame_idx (s : State) (b : Byte) : (s.opcodeFrame b).idx = s.idx := (BusRun.refl.opcodeFrame b).idx
@[simp] theorem State.opcodeFrame_pollcnt (s : State) (b : Byte) : (s.opcodeFrame b).pollcnt = s.pollcnt := (BusRun.refl.opcodeFrame b).pollcnt
@[simp] theorem State.opcodeFrame_err (s : State) (b : Byte) : (s.opcodeFrame b).err = s.err := (BusRun.refl.opcodeFrame b).err
@[simp] theorem State.opcodeFrame_opr (s : State) (b : Byte) : (s.opcodeFrame b).opr = s.opr := (BusRun.refl.opcodeFrame b).opr
@[simp] theorem State.opcodeFrame_bufRef (s : State) (b : Byte) : (s.opcodeFrame b).bufRef = s.bufRef := (BusRun.refl.opcodeFrame b).bufRef
@[simp] theorem State.opcodeFrame_ret (s : State) (b : Byte) : (s.opcodeFrame b).ret = s.ret := (BusRun.refl.opcodeFrame b).ret
@[simp] theorem State.opcodeFrame_commands (s : State) (b : Byte) : (s.opcodeFrame b).commands = s.commands := (BusRun.refl.opcodeFrame b).commands
@[simp] theorem State.opcodeFrame_bufs (s : State) (b : Byte) : (s.opcodeFrame b).bufs = s.bufs := (BusRun.refl.opcodeFrame b).bufs
@[simp] theorem State.opcodeFrame_params (s : State) (b : Byte) : (s.opcodeFrame b).params = s.params := (BusRun.refl.opcodeFrame b).params

@[simp] theorem State.dataFrame_dir (s : State) (b v : Byte) : (s.dataFrame b v).dir = s.dir := (BusRun.refl.dataFrame b v).dir
@[simp] theorem State.dataFrame_addr (s : State) (b v : Byte) : (s.dataFrame b v).addr = s.addr := (BusRun.refl.dataFrame b v).addr
@[simp] theorem State.dataFrame_len (s : State) (b v : Byte) : (s.dataFrame b v).len = s.len := (BusRun.refl.dataFrame b v).len
@[simp] theorem State.dataFrame_val (s : State) (b v : Byte) : (s.dataFrame b v).val = s.val := (BusRun.refl.dataFrame b v).val
@[simp] theorem State.dataFrame_idx (s : State) (b v : Byte) : (s.dataFrame b v).idx = s.idx := (BusRun.refl.dataFrame b v).idx
@[simp] theorem State.dataFrame_pollcnt (s : State) (b v : Byte) : (s.dataFrame b v).pollcnt = s.pollcnt := (BusRun.refl.dataFrame b v).pollcnt
@[simp] theorem State.dataFrame_err (s : State) (b v : Byte) : (s.dataFrame b v).err = s.err := (BusRun.refl.dataFrame b v).err
@[simp] theorem State.dataFrame_opr (s : State) (b v : Byte) : (s.dataFrame b v).opr = s.opr := (BusRun.refl.dataFrame b v).opr
@[simp] theorem State.dataFrame_bufRef (s : State) (b v : Byte) : (s.dataFrame b v).bufRef = s.bufRef := (BusRun.refl.dataFrame b v).bufRef
@[simp] theorem State.dataFrame_ret (s : State) (b v : Byte) : (s.dataFrame b v).ret = s.ret := (BusRun.refl.dataFrame b v).ret
@[simp] theorem State.dataFrame_commands (s : State) (b v : Byte) : (s.dataFrame b v).commands = s.commands := (BusRun.refl.dataFrame b v).commands
@[simp] theorem State.dataFrame_bufs (s : State) (b v : Byte) : (s.dataFrame b v).bufs = s.bufs := (BusRun.refl.dataFrame b v).bufs
@[simp] theorem State.dataFrame_params (s : State) (b v : Byte) : (s.dataFrame b v).params = s.params := (BusRun.refl.dataFrame b v).params

@[simp] theorem State.addressFrame_dir (s : State) (b : Byte) (a : Addr) : (s.addressFrame b a).dir = s.dir := (BusRun.refl.addressFrame b a).dir
@[simp] theorem State.addressFrame_addr (s : State) (b : Byte) (a : Addr) : (s.addressFrame b a).addr = s.addr := (BusRun.refl.addressFrame b a).addr
@[simp] theorem State.addressFrame_len (s : State) (b : Byte) (a : Addr) : (s.addressFrame b a).len = s.len := (BusRun.refl.addressFrame b a).len
@[simp] theorem State.addressFrame_val (s : State) (b : Byte) (a : Addr) : (s.addressFrame b a).val = s.val := (BusRun.refl.addressFrame b a).val
@[simp] theorem State.addressFrame_idx (s : State) (b : Byte) (a : Addr) : (s.addressFrame b a).idx = s.idx := (BusRun.refl.addressFrame b a).idx
@[simp] theorem State.addressFrame_pollcnt (s : State) (b : Byte) (a : Addr) : (s.addressFrame b a).pollcnt = s.pollcnt := (BusRun.refl.addressFrame b a).pollcnt
@[simp] theorem State.addressFrame_err (s : State) (b : Byte) (a : Addr) : (s.addressFrame b a).err = s.err := (BusRun.refl.addressFrame b a).err
@[simp] theorem State.addressFrame_opr (s : State) (b : Byte) (a : Addr) : (s.addressFrame b a).opr = s.opr := (BusRun.refl.addressFrame b a).opr
@[simp] theorem State.addressFrame_bufRef (s : State) (b : Byte) (a : Addr) : (s.addressFrame b a).bufRef = s.bufRef := (BusRun.refl.addressFrame b a).bufRef
@[simp] theorem State.addressFrame_ret (s : State) (b : Byte) (a : Addr) : (s.addressFrame b a).ret = s.ret := (BusRun.refl.addressFrame b a).ret
@[simp] theorem State.addressFrame_commands (s : State) (b : Byte) (a : Addr) : (s.addressFrame b a).commands = s.commands := (BusRun.refl.addressFrame b a).commands
@[simp] theorem State.addressFrame_bufs (s : State) (b : Byte) (a : Addr) : (s.addressFrame b a).bufs = s.bufs := (BusRun.refl.addressFrame b a).bufs
@[simp] theorem State.addressFrame_params (s : State) (b : Byte) (a : Addr) : (s.addressFrame b a).params = s.params := (BusRun.refl.addressFrame b a).params

@[simp] theorem State.addressDataFrame_dir (s : State) (b : Byte) (a : Addr) (v : Byte) : (s.addressDataFrame b a v).dir = s.dir := (BusRun.refl.addressDataFrame b a v).dir
@[simp] theorem State.addressDataFrame_addr (s : State) (b : Byte) (a : Addr) (v : Byte) : (s.addressDataFrame b a v).addr = s.addr := (BusRun.refl.addressDataFrame b a v).addr
@[simp] theorem State.addressDataFrame_len (s : State) (b : Byte) (a : Addr) (v : Byte) : (s.addressDataFrame b a v).len = s.len := (BusRun.refl.addressDataFrame b a v).len
@[simp] theorem State.addressDataFrame_val (s : State) (b : Byte) (a : Addr) (v : Byte) : (s.addressDataFrame b a v).val = s.val := (BusRun.refl.addressDataFrame b a v).val
@[simp] theorem State.addressDataFrame_idx (s : State) (b : Byte) (a : Addr) (v : Byte) : (s.addressDataFrame b a v).idx = s.idx := (BusRun.refl.addressDataFrame b a v).idx
@[simp] theorem State.addressDataFrame_pollcnt (s : State) (b : Byte) (a : Addr) (v : Byte) : (s.addressDataFrame b a v).pollcnt = s.pollcnt := (BusRun.refl.addressDataFrame b a v).pollcnt
@[simp] theorem State.addressDataFrame_err (s : State) (b : Byte) (a : Addr) (v : Byte) : (s.addressDataFrame b a v).err = s.err := (BusRun.refl.addressDataFrame b a v).err
@[simp] theorem State.addressDataFrame_opr (s : State) (b : Byte) (a : Addr) (v : Byte) : (s.addressDataFrame b a v).opr = s.opr := (BusRun.refl.addressDataFrame b a v).opr
@[simp] theorem State.addressDataFrame_bufRef (s : State) (b : Byte) (a : Addr) (v : Byte) : (s.addressDataFrame b a v).bufRef = s.bufRef := (BusRun.refl.addressDataFrame b a v).bufRef
@[simp] theorem State.addressDataFrame_ret (s : State) (b : Byte) (a : Addr) (v : Byte) : (s.addressDataFrame b a v).ret = s.ret := (BusRun.refl.addressDataFrame b a v).ret
@[simp] theorem State.addressDataFrame_commands (s : State) (b : Byte) (a : Addr) (v : Byte) : (s.addressDataFrame b a v).commands = s.commands := (BusRun.refl.addressDataFrame b a v).commands
@[simp] theorem State.addressDataFrame_bufs (s : State) (b : Byte) (a : Addr) (v : Byte) : (s.addressDataFrame b a v).bufs = s.bufs := (BusRun.refl.addressDataFrame b a v).bufs
@[simp] theorem State.addressDataFrame_params (s : State) (b : Byte) (a : Addr) (v : Byte) : (s.addressDataFrame b a v).params = s.params := (BusRun.refl.addressDataFrame b a v).params

@[simp] theorem State.statusFrame_dir (s : State) : s.statusFrame.dir = s.dir := (BusRun.refl.statusFrame).dir
@[simp] theorem State.statusFrame_addr (s : State) : s.statusFrame.addr = s.addr := (BusRun.refl.statusFrame).addr
@[simp] theorem State.statusFrame_len (s : State) : s.statusFrame.len = s.len := (BusRun.refl.statusFrame).len
@[simp] theorem State.statusFrame_val (s : State) : s.statusFrame.val = s.val := (BusRun.refl.statusFrame).val
@[simp] theorem State.statusFrame_idx (s : State) : s.statusFrame.idx = s.idx := (BusRun.refl.statusFrame).idx
@[simp] theorem State.statusFrame_pollcnt (s : State) : s.statusFrame.pollcnt = s.pollcnt := (BusRun.refl.statusFrame).pollcnt
@[simp] theorem State.statusFrame_err (s : State) : s.statusFrame.err = s.err := (BusRun.refl.statusFrame).err
@[simp] theorem State.statusFrame_opr (s : State) : s.statusFrame.opr = s.opr := (BusRun.refl.statusFrame).opr
@[simp] theorem State.statusFrame_bufRef (s : State) : s.statusFrame.bufRef = s.bufRef := (BusRun.refl.statusFrame).bufRef
@[simp] theorem State.statusFrame_ret (s : State) : s.statusFrame.ret = s.ret := (BusRun.refl.statusFrame).ret
@[simp] theorem State.statusFrame_commands (s : State) : s.statusFrame.commands = s.commands := (BusRun.refl.statusFrame).commands
@[simp] theorem State.statusFrame_bufs (s : State) : s.statusFrame.bufs = s.bufs := (BusRun.refl.statusFrame).bufs
@[simp] theorem State.statusFrame_params (s : State) : s.statusFrame.params = s.params := (BusRun.refl.statusFrame).params

@[simp] theorem State.programFrames_dir (s : State) (a : Addr) (v : Byte) : (s.programFrames a v).dir = s.dir := (BusRun.refl.programFrames a v).dir
@[simp] theorem State.programFrames_addr (s : State) (a : Addr) (v : Byte) : (s.programFrames a v).addr = s.addr := (BusRun.refl.programFrames a v).addr
@[simp] theorem State.programFrames_len (s : State) (a : Addr) (v : Byte) : (s.programFrames a v).len = s.len := (BusRun.refl.programFrames a v).len
@[simp] theorem State.programFrames_val (s : State) (a : Addr) (v : Byte) : (s.programFrames a v).val = s.val := (BusRun.refl.programFrames a v).val
@[simp] theorem State.programFrames_idx (s : State) (a : Addr) (v : Byte) : (s.programFrames a v).idx = s.idx := (BusRun.refl.programFrames a v).idx
@[simp] theorem State.programFrames_pollcnt (s : State) (a : Addr) (v : Byte) : (s.programFrames a v).pollcnt = s.pollcnt := (BusRun.refl.programFrames a v).pollcnt
@[simp] theorem State.programFrames_err (s : State) (a : Addr) (v : Byte) : (s.programFrames a v).err = s.err := (BusRun.refl.programFrames a v).err
@[simp] theorem State.programFrames_opr (s : State) (a : Addr) (v : Byte) : (s.programFrames a v).opr = s.opr := (BusRun.refl.programFrames a v).opr
@[simp] theorem State.programFrames_bufRef (s : State) (a : Addr) (v : Byte) : (s.programFrames a v).bufRef = s.bufRef := (BusRun.refl.programFrames a v).bufRef
@[simp] theorem State.programFrames_ret (s : State) (a : Addr) (v : Byte) : (s.programFrames a v).ret = s.ret := (BusRun.refl.programFrames a v).ret
@[simp] theorem State.programFrames_commands (s : State) (a : Addr) (v : Byte) : (s.programFrames a v).commands = s.commands := (BusRun.refl.programFrames a v).commands
@[simp] theorem State.programFrames_bufs (s : State) (a : Addr) (v : Byte) : (s.programFrames a v).bufs = s.bufs := (BusRun.refl.programFrames a v).bufs
@[simp] theorem State.programFrames_params (s : State) (a : Addr) (v : Byte) : (s.programFrames a v).params = s.params := (BusRun.refl.programFrames a v).params

end Sys2Proof.Machine
end

