-- ==== Sys2Proof/Laws/Bus.lean ====
section
/-! SUPPORT. What each bus primitive and each frame does to the lines, the registers of the bit-banger, the trace and DEV. -/

namespace Sys2Proof.Machine

/-! ### Events -/

@[simp] theorem State.drive_trace (s : State) (l : Line) (v : Bool) : (s.drive l v).trace = s.trace ++ [.drive l v] := by
  rw [State.drive_eq]

@[simp] theorem State.drive_sr (s : State) (l : Line) (v : Bool) : (s.drive l v).sr = s.sr := by
  rw [State.drive_eq]; cases l <;> rfl
@[simp] theorem State.drive_bitcnt (s : State) (l : Line) (v : Bool) : (s.drive l v).bitcnt = s.bitcnt := by
  rw [State.drive_eq]; cases l <;> rfl
@[simp] theorem State.drive_ph (s : State) (l : Line) (v : Bool) : (s.drive l v).ph = s.ph := by
  rw [State.drive_eq]; cases l <;> rfl
@[simp] theorem State.drive_st (s : State) (l : Line) (v : Bool) : (s.drive l v).st = s.st := by
  rw [State.drive_eq]; cases l <;> rfl
@[simp] theorem State.drive_cs_cs (s : State) (v : Bool) : (s.drive .cs v).cs = v := by rw [State.drive_eq]; rfl
@[simp] theorem State.drive_cs_sck (s : State) (v : Bool) : (s.drive .cs v).sck = s.sck := by rw [State.drive_eq]; rfl
@[simp] theorem State.drive_cs_di (s : State) (v : Bool) : (s.drive .cs v).di = s.di := by rw [State.drive_eq]; rfl
@[simp] theorem State.drive_sck_cs (s : State) (v : Bool) : (s.drive .sck v).cs = s.cs := by rw [State.drive_eq]; rfl
@[simp] theorem State.drive_sck_sck (s : State) (v : Bool) : (s.drive .sck v).sck = v := by rw [State.drive_eq]; rfl
@[simp] theorem State.drive_sck_di (s : State) (v : Bool) : (s.drive .sck v).di = s.di := by rw [State.drive_eq]; rfl
@[simp] theorem State.drive_di_cs (s : State) (v : Bool) : (s.drive .di v).cs = s.cs := by rw [State.drive_eq]; rfl
@[simp] theorem State.drive_di_sck (s : State) (v : Bool) : (s.drive .di v).sck = s.sck := by rw [State.drive_eq]; rfl
@[simp] theorem State.drive_di_di (s : State) (v : Bool) : (s.drive .di v).di = v := by rw [State.drive_eq]; rfl
@[simp] theorem State.delayShort_cs (s : State) : s.delayShort.cs = s.cs := rfl
@[simp] theorem State.delayShort_sck (s : State) : s.delayShort.sck = s.sck := rfl
@[simp] theorem State.delayShort_di (s : State) : s.delayShort.di = s.di := rfl
@[simp] theorem State.delayShort_sr (s : State) : s.delayShort.sr = s.sr := rfl
@[simp] theorem State.delayShort_bitcnt (s : State) : s.delayShort.bitcnt = s.bitcnt := rfl
@[simp] theorem State.delayShort_ph (s : State) : s.delayShort.ph = s.ph := rfl
@[simp] theorem State.delayShort_st (s : State) : s.delayShort.st = s.st := rfl
@[simp] theorem State.delayShort_draws (s : State) : s.delayShort.draws = s.draws := rfl
@[simp] theorem State.delayShort_dev (s : State) : s.delayShort.dev = s.dev.tick := rfl
@[simp] theorem State.delayShort_trace (s : State) : s.delayShort.trace = s.trace ++ [.delayShort] := rfl
@[simp] theorem State.delayUs_cs (s : State) (n : Nat) : (s.delayUs n).cs = s.cs := rfl
@[simp] theorem State.delayUs_sck (s : State) (n : Nat) : (s.delayUs n).sck = s.sck := rfl
@[simp] theorem State.delayUs_di (s : State) (n : Nat) : (s.delayUs n).di = s.di := rfl
@[simp] theorem State.delayUs_sr (s : State) (n : Nat) : (s.delayUs n).sr = s.sr := rfl
@[simp] theorem State.delayUs_bitcnt (s : State) (n : Nat) : (s.delayUs n).bitcnt = s.bitcnt := rfl
@[simp] theorem State.delayUs_ph (s : State) (n : Nat) : (s.delayUs n).ph = s.ph := rfl
@[simp] theorem State.delayUs_st (s : State) (n : Nat) : (s.delayUs n).st = s.st := rfl
@[simp] theorem State.delayUs_draws (s : State) (n : Nat) : (s.delayUs n).draws = s.draws := rfl
@[simp] theorem State.delayUs_dev (s : State) (n : Nat) : (s.delayUs n).dev = s.dev.tick := rfl
@[simp] theorem State.delayUs_trace (s : State) (n : Nat) : (s.delayUs n).trace = s.trace ++ [.delayUs n] := rfl
@[simp] theorem State.afterSample_cs (s : State) : s.afterSample.cs = s.cs := by rw [State.afterSample_eq]
@[simp] theorem State.afterSample_sck (s : State) : s.afterSample.sck = s.sck := by rw [State.afterSample_eq]
@[simp] theorem State.afterSample_di (s : State) : s.afterSample.di = s.di := by rw [State.afterSample_eq]
@[simp] theorem State.afterSample_sr (s : State) : s.afterSample.sr = s.sr := by rw [State.afterSample_eq]
@[simp] theorem State.afterSample_bitcnt (s : State) : s.afterSample.bitcnt = s.bitcnt := by rw [State.afterSample_eq]
@[simp] theorem State.afterSample_ph (s : State) : s.afterSample.ph = s.ph := by rw [State.afterSample_eq]
@[simp] theorem State.afterSample_st (s : State) : s.afterSample.st = s.st := by rw [State.afterSample_eq]
@[simp] theorem State.afterSample_dev (s : State) : s.afterSample.dev = s.dev.tick := by rw [State.afterSample_eq]
@[simp] theorem State.afterSample_trace (s : State) : s.afterSample.trace = s.trace ++ [.sample s.sampled] := by
  rw [State.afterSample_eq]

/-- The contract gives the level: no free value is taken (20_memory.md R73). -/
theorem State.afterSample_draws_of_level {s : State} {b : Bool} (h : s.tick.doLevel = some b) :
    s.afterSample.draws = s.draws := by simp only [State.afterSample, h]; rfl

theorem State.sampled_of_level {s : State} {b : Bool} (h : s.tick.doLevel = some b) : s.sampled = b := by
  simp only [State.sampled, h]

/-- DO is a draw: the next free level is taken (00_scope.md R9). -/
theorem State.sampled_of_draw {s : State} (h : s.tick.doLevel = none) : s.sampled = s.draws.level.1 := by
  simp only [State.sampled, h]

theorem State.afterSample_draws_of_draw {s : State} (h : s.tick.doLevel = none) :
    s.afterSample.draws = s.draws.level.2 := by simp only [State.afterSample, h]; rfl

/-- The response to a status read starts at the next pulse (20_memory.md R74). -/
abbrev State.Answering (s : State) : Prop := s.dev.frame.length = 8 ∧ byteOfBits s.dev.frame = 0x05

@[simp] theorem State.drive_di_dev (s : State) (v : Bool) : (s.drive .di v).dev = s.dev.tick := rfl
@[simp] theorem State.drive_di_draws (s : State) (v : Bool) : (s.drive .di v).draws = s.draws := rfl
@[simp] theorem State.drive_sck_low_dev (s : State) : (s.drive .sck false).dev = s.dev.tick := rfl
@[simp] theorem State.drive_sck_low_draws (s : State) : (s.drive .sck false).draws = s.draws := rfl
@[simp] theorem State.drive_cs_low_dev (s : State) :
    (s.drive .cs false).dev = { s.dev.tick with frame := [], heardBusy := s.dev.tick.busy } := rfl
@[simp] theorem State.drive_cs_low_draws (s : State) : (s.drive .cs false).draws = s.draws := rfl

theorem State.drive_sck_high_quiet {s : State} (hc : s.cs = false) (hq : ¬ s.Answering) :
    (s.drive .sck true).dev = { s.dev.tick with frame := s.dev.frame ++ [s.di] } ∧ (s.drive .sck true).draws = s.draws := by
  have h : ¬ (s.dev.tick.frame.length = 8 ∧ byteOfBits s.dev.tick.frame = 0x05) := by rwa [Dev.tick_frame]
  have e : s.drive .sck true = ((s.tick.setLatch true .sck).emit (.drive .sck true)).clockIn := by
    simp [State.drive, State.react, hc]
  have k : s.drive .sck true = ((s.tick.setLatch true .sck).emit (.drive .sck true)).takeBit := e.trans (if_neg h)
  rw [k]
  exact ⟨by simp [State.takeBit], rfl⟩

/-- The ninth pulse of a status read: the status byte is fixed, from BUSY and WEL as they then are (20_memory.md R74). -/
theorem State.drive_sck_high_answering {s : State} (hc : s.cs = false) (hq : s.Answering) :
    (s.drive .sck true).dev =
        { s.dev.tick with
          frame := s.dev.frame ++ [s.di]
          status := statusByte s.params s.dev.tick.busy s.dev.wel (s.draws.srx s.dev.srx).1 } ∧
      (s.drive .sck true).draws = (s.draws.srx s.dev.srx).2 := by
  have h : s.dev.tick.frame.length = 8 ∧ byteOfBits s.dev.tick.frame = 0x05 := by rwa [Dev.tick_frame]
  have e : s.drive .sck true = ((s.tick.setLatch true .sck).emit (.drive .sck true)).clockIn := by
    simp [State.drive, State.react, hc]
  have k : s.drive .sck true = ((s.tick.setLatch true .sck).emit (.drive .sck true)).fixStatus.takeBit := e.trans (if_pos h)
  rw [k]
  exact ⟨by simp [State.takeBit, State.fixStatus], by simp [State.takeBit, State.fixStatus]⟩

/-- What an accepted frame does depends on DEV, the parameters and the free values only. -/
theorem State.carryOut_congr {s t : State} (hd : s.dev = t.dev) (hw : s.draws = t.draws) (hp : s.params = t.params) (c : FrameCmd) :
    (s.carryOut c).dev = (t.carryOut c).dev ∧ (s.carryOut c).draws = (t.carryOut c).draws := by
  cases c <;> simp [State.carryOut, State.startBusy, hd, hw, hp]

/-- A commit depends on DEV, the parameters and the free values only. -/
theorem State.commit_congr {s t : State} (hd : s.dev = t.dev) (hw : s.draws = t.draws) (hp : s.params = t.params) :
    s.commit.dev = t.commit.dev ∧ s.commit.draws = t.commit.draws := by
  cases h : frameOfBits t.dev.frame with
  | none => simp [State.commit, hd, h, hw]
  | some c =>
    have k := State.carryOut_congr hd hw hp c
    cases ha : t.dev.accepts c <;> simp [State.commit, hd, h, ha, hw, k]

theorem State.drive_cs_high (s : State) :
    (s.drive .cs true).dev = s.tick.commit.dev ∧ (s.drive .cs true).draws = s.tick.commit.draws :=
  State.commit_congr (s := (s.tick.setLatch true .cs).emit (.drive .cs true)) rfl rfl rfl

/-! ### select and deselect -/

@[simp] theorem State.select_cs (s : State) : s.select.cs = false := by simp [State.select]
@[simp] theorem State.select_sck (s : State) : s.select.sck = false := by simp [State.select]
@[simp] theorem State.select_di (s : State) : s.select.di = s.di := by simp [State.select]
@[simp] theorem State.select_sr (s : State) : s.select.sr = s.sr := by simp [State.select]
@[simp] theorem State.select_bitcnt (s : State) : s.select.bitcnt = s.bitcnt := by simp [State.select]
@[simp] theorem State.select_st (s : State) : s.select.st = s.st := by simp [State.select]
@[simp] theorem State.select_ph (s : State) : s.select.ph = .selected := rfl
@[simp] theorem State.select_draws (s : State) : s.select.draws = s.draws := rfl
@[simp] theorem State.select_trace (s : State) : s.select.trace = s.trace ++ selectEvents s.params := by
  simp [State.select, selectEvents]

theorem State.select_dev (s : State) :
    s.select.dev = { s.dev.ticks 3 with frame := [], heardBusy := (s.dev.ticks 2).busy } := by
  show Dev.tick { s.dev.tick.tick with frame := [], heardBusy := s.dev.tick.tick.busy } = _
  rw [Dev.tick_with _ _ s.dev.tick.tick.status]
  simp [Dev.ticks]

@[simp] theorem State.deselect_cs (s : State) : s.deselect.cs = true := by simp [State.deselect]
@[simp] theorem State.deselect_sck (s : State) : s.deselect.sck = false := by simp [State.deselect]
@[simp] theorem State.deselect_di (s : State) : s.deselect.di = s.di := by simp [State.deselect]
@[simp] theorem State.deselect_sr (s : State) : s.deselect.sr = s.sr := by simp [State.deselect]
@[simp] theorem State.deselect_bitcnt (s : State) : s.deselect.bitcnt = s.bitcnt := by simp [State.deselect]
@[simp] theorem State.deselect_st (s : State) : s.deselect.st = s.st := by simp [State.deselect]
@[simp] theorem State.deselect_ph (s : State) : s.deselect.ph = .idle := rfl
@[simp] theorem State.deselect_trace (s : State) : s.deselect.trace = s.trace ++ deselectEvents s.params := by
  simp [State.deselect, deselectEvents]

/-- CS rises, DEV commits, two more events follow (40_bus_primitives.md R131, 20_memory.md R72). -/
theorem State.deselect_dev (s : State) : s.deselect.dev = s.tick.commit.dev.ticks 2 := by
  simp only [State.deselect, State.delayUs_dev, State.drive_sck_low_dev, s.drive_cs_high.1, Dev.ticks]

theorem State.deselect_draws (s : State) : s.deselect.draws = s.tick.commit.draws := by
  simp only [State.deselect, State.delayUs_draws, State.drive_sck_low_draws, s.drive_cs_high.2]

/-! ### sendByte -/

@[simp] theorem State.sendBit_cs (s : State) : s.sendBit.cs = s.cs := by simp [State.sendBit]
@[simp] theorem State.sendBit_sck (s : State) : s.sendBit.sck = false := by simp [State.sendBit]
@[simp] theorem State.sendBit_di (s : State) : s.sendBit.di = s.sr.getLsbD 7 := by simp [State.sendBit]
@[simp] theorem State.sendBit_sr (s : State) : s.sendBit.sr = shiftIn s.sr false := by simp [State.sendBit]
@[simp] theorem State.sendBit_bitcnt (s : State) : s.sendBit.bitcnt = s.bitcnt - 1 := by simp [State.sendBit]
@[simp] theorem State.sendBit_ph (s : State) : s.sendBit.ph = s.ph := by simp [State.sendBit]
@[simp] theorem State.sendBit_st (s : State) : s.sendBit.st = s.st := by simp [State.sendBit]
@[simp] theorem State.sendBit_trace (s : State) : s.sendBit.trace = s.trace ++ sendBitEvents (s.sr.getLsbD 7) := by
  simp [State.sendBit, sendBitEvents]

/-- The bits `n` turns of the loop send. -/
def topBits (v : Byte) : Nat → List Bool
  | 0 => []
  | n + 1 => v.getLsbD 7 :: topBits (shiftIn v false) n

/-- Bit 7 goes first, and eight shifts empty the register (40_bus_primitives.md R132, 10_state.md R25). -/
theorem topBits_eight (v : Byte) : topBits v 8 = bitsOfByte v := by
  simp (disch := omega) only [topBits, shiftIn_getLsbD, bitsOfByte, Nat.reduceEqDiff, if_false, Nat.reduceSub]

theorem State.sendBits_cs (s : State) (n : Nat) : (s.sendBits n).cs = s.cs := by
  induction n generalizing s with | zero => rfl | succ n ih => simp [State.sendBits, ih]
theorem State.sendBits_ph (s : State) (n : Nat) : (s.sendBits n).ph = s.ph := by
  induction n generalizing s with | zero => rfl | succ n ih => simp [State.sendBits, ih]
theorem State.sendBits_st (s : State) (n : Nat) : (s.sendBits n).st = s.st := by
  induction n generalizing s with | zero => rfl | succ n ih => simp [State.sendBits, ih]
theorem State.sendBits_trace (s : State) (n : Nat) :
    (s.sendBits n).trace = s.trace ++ (topBits s.sr n).flatMap sendBitEvents := by
  induction n generalizing s with
  | zero => simp [State.sendBits, topBits]
  | succ n ih => simp [State.sendBits, topBits, ih]

@[simp] theorem State.sendByte_cs (s : State) (v : Byte) : (s.sendByte v).cs = s.cs := State.sendBits_cs _ 8
@[simp] theorem State.sendByte_ph (s : State) (v : Byte) : (s.sendByte v).ph = s.ph := State.sendBits_ph _ 8
@[simp] theorem State.sendByte_st (s : State) (v : Byte) : (s.sendByte v).st = s.st := State.sendBits_st _ 8
@[simp] theorem State.sendByte_sck (s : State) (v : Byte) : (s.sendByte v).sck = false := by
  simp [State.sendByte, State.sendBits]
@[simp] theorem State.sendByte_bitcnt (s : State) (v : Byte) : (s.sendByte v).bitcnt = 0 := by
  simp [State.sendByte, State.sendBits]
@[simp] theorem State.sendByte_trace (s : State) (v : Byte) : (s.sendByte v).trace = s.trace ++ sendEvents v := by
  rw [State.sendByte, State.sendBits_trace, topBits_eight]; rfl
@[simp] theorem State.sendByte_di (s : State) (v : Byte) : (s.sendByte v).di = v.getLsbD 0 := by
  simp (disch := omega) only [State.sendByte, State.sendBits, State.sendBit_di, State.sendBit_sr, shiftIn_getLsbD,
    Nat.reduceEqDiff, if_false, Nat.reduceSub]
@[simp] theorem State.sendByte_sr (s : State) (v : Byte) : (s.sendByte v).sr = 0 := by
  simp only [State.sendByte, State.sendBits, State.sendBit_sr]
  exact foldl_shiftIn_bits v 0

theorem State.sendBit_quiet {s : State} (hc : s.cs = false) (hq : ¬ s.Answering) :
    s.sendBit.dev = { s.dev.ticks 5 with frame := s.dev.frame ++ [s.sr.getLsbD 7] } ∧ s.sendBit.draws = s.draws := by
  have h := State.drive_sck_high_quiet (s := s.drive .di (s.sr.getLsbD 7)) (by simpa using hc) (by simpa using hq)
  simp only [State.sendBit, State.delayShort_dev, State.drive_sck_low_dev, State.delayShort_draws, State.drive_sck_low_draws,
    h.1, h.2, State.drive_di_dev, State.drive_di_di, State.drive_di_draws, Dev.tick_frame, and_true]
  exact Dev.ticks_withFrame s.dev.tick.tick _ 3

/-- Where no response starts, `n` bits sent are `n` bits clocked in (20_memory.md R72). -/
theorem State.sendBits_quiet {s : State} (hc : s.cs = false) {n : Nat} (hq : ¬ s.Answering)
    (hn : s.dev.frame.length < 8 → s.dev.frame.length + n ≤ 8) :
    (s.sendBits n).dev = { s.dev.ticks (5 * n) with frame := s.dev.frame ++ topBits s.sr n } ∧
      (s.sendBits n).draws = s.draws := by
  induction n generalizing s with
  | zero => simp [State.sendBits, topBits]
  | succ n ih =>
    have h := State.sendBit_quiet hc hq
    by_cases hz : n = 0
    · subst hz
      simpa [State.sendBits, topBits] using h
    have hl : s.sendBit.dev.frame.length = s.dev.frame.length + 1 := by simp [h.1]
    have hq' : ¬ s.sendBit.Answering := fun k => by
      have := k.1
      omega
    have k := ih (s := s.sendBit) (by simpa using hc) hq' (by omega)
    refine ⟨?_, k.2.trans h.2⟩
    rw [State.sendBits, k.1, h.1, Dev.ticks_withFrame, Dev.ticks_ticks, State.sendBit_sr]
    simp [topBits, show 5 + 5 * n = 5 * (n + 1) by omega]

/-- A byte sent in a frame whose bytes so far are `vs` (20_memory.md R72). Only a byte that follows a lone 0x05 starts a
response. -/
theorem State.sendByte_dev {s : State} {vs : List Byte} (hc : s.cs = false) (hf : s.dev.frame = bitsOfBytes vs)
    (hv : vs ≠ [0x05]) (v : Byte) :
    (s.sendByte v).dev = { s.dev.ticks 40 with frame := bitsOfBytes (vs ++ [v]) } ∧ (s.sendByte v).draws = s.draws := by
  have hl : s.dev.frame.length = 8 * vs.length := by rw [hf, bitsOfBytes_length]
  have hq : ¬ s.Answering := by
    rintro ⟨h1, h2⟩
    obtain ⟨b, rfl⟩ : ∃ b, vs = [b] := List.length_eq_one_iff.1 (by omega)
    rw [hf, show bitsOfBytes [b] = bitsOfByte b by simp [bitsOfBytes], byteOfBits_bitsOfByte] at h2
    exact hv (by rw [h2])
  have k := State.sendBits_quiet (s := { s with sr := v, bitcnt := 8 }) (n := 8) hc hq
    (fun h => by have : s.dev.frame.length < 8 := h; show s.dev.frame.length + 8 ≤ 8; omega)
  refine ⟨?_, k.2⟩
  rw [State.sendByte, k.1]
  show ({ s.dev.ticks 40 with frame := s.dev.frame ++ topBits v 8 } : Dev) = _
  rw [topBits_eight, hf, bitsOfBytes_append]
  rfl

end Sys2Proof.Machine
end

