-- ==== Sys2Proof/Laws/Receive.lean ====
section
/-! SUPPORT. Receiving a byte: the trace always, and the value where DEV answers (20_memory.md R73, R74, R79). -/

namespace Sys2Proof.Machine

/-- The level one turn of `receiveByte`'s loop samples. -/
def State.receivedBit (s : State) : Bool := ((s.drive .sck true).delayShort).sampled

@[simp] theorem State.receiveBit_cs (s : State) : s.receiveBit.cs = s.cs := by simp [State.receiveBit]
@[simp] theorem State.receiveBit_sck (s : State) : s.receiveBit.sck = false := by simp [State.receiveBit]
@[simp] theorem State.receiveBit_di (s : State) : s.receiveBit.di = s.di := by simp [State.receiveBit]
@[simp] theorem State.receiveBit_sr (s : State) : s.receiveBit.sr = shiftIn s.sr s.receivedBit := by
  simp [State.receiveBit, State.receivedBit]
@[simp] theorem State.receiveBit_bitcnt (s : State) : s.receiveBit.bitcnt = s.bitcnt - 1 := by simp [State.receiveBit]
@[simp] theorem State.receiveBit_ph (s : State) : s.receiveBit.ph = s.ph := by simp [State.receiveBit]
@[simp] theorem State.receiveBit_st (s : State) : s.receiveBit.st = s.st := by simp [State.receiveBit]
@[simp] theorem State.receiveBit_trace (s : State) :
    s.receiveBit.trace = s.trace ++ receiveBitEvents s.receivedBit := by
  simp [State.receiveBit, State.receivedBit, receiveBitEvents]

/-- The levels `n` turns sample. -/
def State.samples (s : State) : Nat → List Bool
  | 0 => []
  | n + 1 => s.receivedBit :: s.receiveBit.samples n

theorem State.receiveBits_cs (s : State) (n : Nat) : (s.receiveBits n).cs = s.cs := by
  induction n generalizing s with | zero => rfl | succ n ih => simp [State.receiveBits, ih]
theorem State.receiveBits_di (s : State) (n : Nat) : (s.receiveBits n).di = s.di := by
  induction n generalizing s with | zero => rfl | succ n ih => simp [State.receiveBits, ih]
theorem State.receiveBits_ph (s : State) (n : Nat) : (s.receiveBits n).ph = s.ph := by
  induction n generalizing s with | zero => rfl | succ n ih => simp [State.receiveBits, ih]
theorem State.receiveBits_st (s : State) (n : Nat) : (s.receiveBits n).st = s.st := by
  induction n generalizing s with | zero => rfl | succ n ih => simp [State.receiveBits, ih]
theorem State.receiveBits_sr (s : State) (n : Nat) : (s.receiveBits n).sr = (s.samples n).foldl shiftIn s.sr := by
  induction n generalizing s with | zero => rfl | succ n ih => simp [State.receiveBits, State.samples, ih]
theorem State.receiveBits_trace (s : State) (n : Nat) :
    (s.receiveBits n).trace = s.trace ++ (s.samples n).flatMap receiveBitEvents := by
  induction n generalizing s with
  | zero => simp [State.receiveBits, State.samples]
  | succ n ih => simp [State.receiveBits, State.samples, ih]

/-- Eight bits shifted in are the byte's bits (40_bus_primitives.md R133). -/
theorem bitsOfByte_foldl (x : Byte) (a b c d e f g h : Bool) :
    bitsOfByte ([a, b, c, d, e, f, g, h].foldl shiftIn x) = [a, b, c, d, e, f, g, h] := by
  simp (disch := omega) only [bitsOfByte, List.foldl_cons, List.foldl_nil, shiftIn_getLsbD, Nat.reduceEqDiff, if_false,
    if_true, Nat.reduceSub]

@[simp] theorem State.receiveByte_cs (s : State) : s.receiveByte.cs = s.cs := State.receiveBits_cs _ 8
@[simp] theorem State.receiveByte_di (s : State) : s.receiveByte.di = s.di := State.receiveBits_di _ 8
@[simp] theorem State.receiveByte_ph (s : State) : s.receiveByte.ph = s.ph := State.receiveBits_ph _ 8
@[simp] theorem State.receiveByte_st (s : State) : s.receiveByte.st = s.st := State.receiveBits_st _ 8
@[simp] theorem State.receiveByte_sck (s : State) : s.receiveByte.sck = false := by
  simp [State.receiveByte, State.receiveBits]
@[simp] theorem State.receiveByte_bitcnt (s : State) : s.receiveByte.bitcnt = 0 := by
  simp [State.receiveByte, State.receiveBits]
/-- The byte left in SR is the eight samples, the first one bit 7 (40_bus_primitives.md R133). -/
@[simp] theorem State.receiveByte_trace (s : State) : s.receiveByte.trace = s.trace ++ receiveEvents s.receiveByte.sr := by
  rw [State.receiveByte, State.receiveBits_trace, State.receiveBits_sr, receiveEvents]
  simp only [State.samples]
  rw [bitsOfByte_foldl]

/-! ### DEV while a byte is received -/

theorem State.receiveBit_dev (s : State) : s.receiveBit.dev = (s.drive .sck true).dev.ticks 4 := by
  simp only [State.receiveBit, State.delayShort_dev, State.drive_sck_low_dev, State.afterSample_dev, Dev.ticks]

theorem State.receiveBit_draws (s : State) : s.receiveBit.draws = ((s.drive .sck true).delayShort).afterSample.draws := by
  simp only [State.receiveBit, State.delayShort_draws, State.drive_sck_low_draws]

/-- The next bit, where the contract gives its level. -/
theorem State.receiveBit_of_level {s : State} {b : Bool} (h : ((s.drive .sck true).delayShort).tick.doLevel = some b) :
    s.receivedBit = b ∧ s.receiveBit.draws = (s.drive .sck true).draws :=
  ⟨State.sampled_of_level h, by rw [State.receiveBit_draws, State.afterSample_draws_of_level h]; rfl⟩

theorem State.receiveBit_quiet {s : State} (hc : s.cs = false) (hq : ¬ s.Answering) :
    s.receiveBit.dev = { s.dev.ticks 5 with frame := s.dev.frame ++ [s.di] } := by
  rw [State.receiveBit_dev, (State.drive_sck_high_quiet hc hq).1, Dev.ticks_withFrame]
  rfl

/-- What DEV answers after `k` pulses of a response that began behind the bits `f`: bit 8 - k of the byte `r`, as long as the
parts of DEV the answer is made of stay (20_memory.md R73). -/
def Dev.Responds (d : Dev) (p : Params) (f : List Bool) (r : Byte) : Prop :=
  ∀ (t : State) (k : Nat) (x : Bool), t.params = p → t.cs = false → t.sck = true →
    t.dev.frame = f ++ List.replicate k x → t.dev.status = d.status → t.dev.heardBusy = d.heardBusy → t.dev.mem = d.mem →
    1 ≤ k → k ≤ 8 → t.doLevel = some (r.getLsbD (8 - k))

theorem Dev.Responds.congr {d e : Dev} {p : Params} {f : List Bool} {r : Byte} (h : d.Responds p f r)
    (h1 : e.status = d.status) (h2 : e.heardBusy = d.heardBusy) (h3 : e.mem = d.mem) : e.Responds p f r :=
  fun t k x a b c g i j l m n => h t k x a b c g (i.trans h1) (j.trans h2) (l.trans h3) m n

/-- The bits of a response from pulse `k + 1` on. -/
theorem State.receiveBits_responds {s : State} {f : List Bool} {r : Byte} {k n : Nat} (hc : s.cs = false)
    (hf : s.dev.frame = f ++ List.replicate k s.di) (h8 : 8 ≤ f.length) (hq : ¬ s.Answering) (hk : k + n ≤ 8)
    (hr : s.dev.Responds s.params f r) :
    s.samples n = (List.range n).map (fun i => r.getLsbD (7 - k - i)) ∧
      (s.receiveBits n).dev = { s.dev.ticks (5 * n) with frame := f ++ List.replicate (k + n) s.di } ∧
      (s.receiveBits n).draws = s.draws := by
  induction n generalizing s k with
  | zero => exact ⟨rfl, by rw [State.receiveBits, Nat.add_zero, ← hf]; rfl, rfl⟩
  | succ n ih =>
    have hd := State.drive_sck_high_quiet hc hq
    have hfr : s.dev.frame ++ [s.di] = f ++ List.replicate (k + 1) s.di := by
      rw [hf, List.append_assoc, List.replicate_succ']
    have hlev : ((s.drive .sck true).delayShort).tick.doLevel = some (r.getLsbD (8 - (k + 1))) := by
      refine hr _ (k + 1) s.di ?_ ?_ ?_ ?_ ?_ ?_ ?_ (by omega) (by omega)
      · simp
      · simp [hc]
      · simp
      all_goals simp [hd.1, hfr]
    have hb := State.receiveBit_of_level hlev
    have hdev := State.receiveBit_quiet hc hq
    rw [hfr] at hdev
    have hq' : ¬ s.receiveBit.Answering := fun h => by
      have := h.1
      simp only [hdev, List.length_append, List.length_replicate] at this
      omega
    have key := ih (s := s.receiveBit) (k := k + 1) (by simpa using hc) (by rw [hdev]; simp) hq' (by omega)
      (by simpa using hr.congr (e := s.receiveBit.dev) (by simp [hdev]) (by simp [hdev]) (by simp [hdev]))
    refine ⟨?_, ?_, ?_⟩
    · rw [State.samples, key.1, hb.1, List.range_succ_eq_map, List.map_cons, List.map_map]
      congr 1
      · congr 1
        omega
      · refine List.map_congr_left fun i _ => ?_
        show r.getLsbD _ = r.getLsbD _
        congr 1
        simp only [Nat.succ_eq_add_one]
        omega
    · rw [State.receiveBits, key.2.1, hdev, Dev.ticks_withFrame, Dev.ticks_ticks, State.receiveBit_di,
        show 5 + 5 * n = 5 * (n + 1) by omega, show k + 1 + n = k + (n + 1) by omega]
    · rw [State.receiveBits, key.2.2, hb.2, hd.2]

theorem heldByte_bits (b : Bool) : bitsOfByte (heldByte b) = List.replicate 8 b := by cases b <;> rfl

theorem range_bits (r : Byte) : (List.range 8).map (fun i => r.getLsbD (7 - 0 - i)) = bitsOfByte r := rfl

/-- A byte received behind the whole bytes `vs`, where DEV responds with `r` and no status is to be fixed first. -/
theorem State.receiveByte_responds {s : State} {vs : List Byte} {r : Byte} (hc : s.cs = false)
    (hf : s.dev.frame = bitsOfBytes vs) (hl : vs ≠ []) (hv : vs ≠ [0x05]) (hr : s.dev.Responds s.params (bitsOfBytes vs) r) :
    s.receiveByte.sr = r ∧ s.receiveByte.dev = { s.dev.ticks 40 with frame := bitsOfBytes (vs ++ [heldByte s.di]) } ∧
      s.receiveByte.draws = s.draws := by
  have hlen : (bitsOfBytes vs).length = 8 * vs.length := bitsOfBytes_length vs
  have hpos : 0 < vs.length := List.length_pos_iff.2 hl
  have hq : ¬ s.Answering := by
    rintro ⟨h1, h2⟩
    rw [hf] at h1 h2
    obtain ⟨b, rfl⟩ : ∃ b, vs = [b] := List.length_eq_one_iff.1 (by omega)
    rw [show bitsOfBytes [b] = bitsOfByte b by simp [bitsOfBytes], byteOfBits_bitsOfByte] at h2
    exact hv (by rw [h2])
  have key := State.receiveBits_responds (s := { s with bitcnt := 8 }) (f := bitsOfBytes vs) (r := r) (k := 0) (n := 8) hc
    (by simpa using hf) (by omega) hq (by omega) hr
  refine ⟨?_, ?_, key.2.2⟩
  · rw [State.receiveByte, State.receiveBits_sr, key.1, range_bits]
    exact foldl_shiftIn_bits _ _
  · rw [State.receiveByte, key.2.1, bitsOfBytes_append, show bitsOfBytes [heldByte s.di] = List.replicate 8 s.di by
      simp [bitsOfBytes, heldByte_bits]]

/-- DEV answers a status read with the status byte it has fixed (20_memory.md R73, R74). -/
theorem Dev.responds_status (d : Dev) (p : Params) : d.Responds p (bitsOfBytes [0x05]) d.status := by
  intro t k x _ hc hs hf hst _ _ h1 h8
  have hlen : t.dev.frame.length = 8 + k := by rw [hf]; simp [bitsOfBytes_length]
  have hop : frameByte t.dev.frame 0 = 0x05 := by
    rw [hf, frameByte_append _ _ _ (by simp [bitsOfBytes_length]), frameByte_bits_cons_zero]
  simp only [State.doLevel, hlen, hop, hc, hs, hst, responseBit]
  rw [if_neg (by simp), if_pos trivial, if_neg (by omega), if_pos (by simp; omega)]
  congr 2
  omega

/-- DEV answers the j-th byte of a read with MEM[A + j] (20_memory.md R79). -/
theorem Dev.responds_read {d : Dev} (p : Params) {a : Addr} {more : List Byte} (hb : d.heardBusy = false)
    (ha : a.toNat + more.length < Config.flashSize) :
    d.Responds p (bitsOfBytes ([0x03] ++ addrBytes a ++ more)) (d.read (a.toNat + more.length)) := by
  intro t k x _ hc hs hf _ hh hm h1 h8
  have hvs : ([0x03] ++ addrBytes a ++ more : List Byte) = 0x03 :: (addrBytes a ++ more) := by simp
  have hl : (bitsOfBytes ([0x03] ++ addrBytes a ++ more)).length = 32 + 8 * more.length := by
    rw [bitsOfBytes_length, hvs, List.length_cons, List.length_append]
    simp only [addrBytes, List.length_cons, List.length_nil]
    omega
  have hlen : t.dev.frame.length = 32 + 8 * more.length + k := by rw [hf, List.length_append, hl, List.length_replicate]
  have hop : frameByte t.dev.frame 0 = 0x03 := by
    rw [hf, frameByte_append _ _ _ (by omega), hvs, frameByte_bits_cons_zero]
  have hadr : frameAddr t.dev.frame = a := by rw [hf, frameAddr_append _ _ (by omega), hvs, frameAddr_bits]
  have hj : (32 + 8 * more.length + k - 33) / 8 = more.length := by omega
  have hk : 32 + 8 * more.length + k - 32 - 8 * more.length = k := by omega
  simp only [State.doLevel, hlen, hop, hadr, hc, hs, hh, hb, hj, hk, responseBit]
  rw [if_neg (by simp; omega), if_neg (by decide), if_pos trivial, if_pos (by simp; omega), Dev.read_congr hm]

/-- The byte of a status read (20_memory.md R74, 10_state.md R39). -/
theorem State.receiveByte_status {s : State} (hc : s.cs = false) (hf : s.dev.frame = bitsOfBytes [0x05]) :
    s.receiveByte.sr = statusByte s.params s.dev.tick.busy s.dev.wel (s.draws.srx s.dev.srx).1 ∧
      s.receiveByte.dev =
        { s.dev.ticks 40 with frame := bitsOfBytes ([0x05] ++ [heldByte s.di]), status := s.receiveByte.sr } ∧
      s.receiveByte.draws = (s.draws.srx s.dev.srx).2 := by
  have hq : s.Answering := by
    rw [State.Answering, hf]
    exact ⟨rfl, byteOfBits_bitsOfByte 0x05⟩
  have h := State.drive_sck_high_answering (s := { s with bitcnt := 8 }) hc hq
  set u : State := { s with bitcnt := 8 } with hu
  set r := statusByte s.params s.dev.tick.busy s.dev.wel (s.draws.srx s.dev.srx).1 with hrdef
  have hfr : s.dev.frame ++ [s.di] = bitsOfBytes [0x05] ++ List.replicate 1 s.di := by rw [hf]; rfl
  have hdev : u.receiveBit.dev =
      { s.dev.ticks 5 with frame := bitsOfBytes [0x05] ++ List.replicate 1 s.di, status := r } := by
    rw [State.receiveBit_dev, h.1]
    show Dev.ticks { s.dev.tick with frame := s.dev.frame ++ [s.di], status := r, heardBusy := s.dev.tick.heardBusy } 4 = _
    rw [Dev.ticks_with, hfr]
    simp [Dev.ticks]
  have hlev : ((u.drive .sck true).delayShort).tick.doLevel = some (r.getLsbD (8 - 1)) := by
    have hst : ((u.drive .sck true).delayShort).tick.dev.status = r := by simp [h.1, hrdef]
    rw [← hst]
    refine Dev.responds_status _ s.params _ 1 s.di ?_ ?_ ?_ ?_ rfl rfl rfl (by omega) (by omega)
    · simp [hu]
    · simp [hu, hc]
    · simp
    · simp only [State.tick_dev, Dev.tick_frame, State.delayShort_dev, h.1]; exact hfr
  have hb := State.receiveBit_of_level hlev
  have hq' : ¬ u.receiveBit.Answering := fun k => by
    have := k.1
    simp [hdev, bitsOfBytes_length] at this
  have key := State.receiveBits_responds (s := u.receiveBit) (f := bitsOfBytes [0x05]) (r := r) (k := 1) (n := 7)
    (by simpa [hu] using hc) (by rw [hdev]; simp [hu]) (by simp [bitsOfBytes_length]) hq' (by omega)
    (by
      have := Dev.responds_status u.receiveBit.dev u.receiveBit.params
      rwa [show u.receiveBit.dev.status = r by rw [hdev]] at this)
  have hsr : s.receiveByte.sr = r := by
    rw [State.receiveByte, State.receiveBits_sr, State.samples, key.1, hb.1]
    exact foldl_shiftIn_bits _ r
  refine ⟨hsr, ?_, ?_⟩
  · rw [hsr, State.receiveByte, State.receiveBits, key.2.1, hdev, bitsOfBytes_append,
      show bitsOfBytes [heldByte s.di] = List.replicate 8 s.di by simp [bitsOfBytes, heldByte_bits]]
    show ({ Dev.ticks { s.dev.ticks 5 with frame := _, status := r, heardBusy := (s.dev.ticks 5).heardBusy } 35 with frame := _ } : Dev) = _
    rw [Dev.ticks_with, Dev.ticks_ticks]
    simp [hu]
  · rw [State.receiveByte, State.receiveBits, key.2.2, hb.2, h.2]

end Sys2Proof.Machine
end

