-- ==== Sys2Proof/Laws/Frames.lean ====
section
/-! SUPPORT. Whole frames: the lines and the trace after each, and what DEV makes of it (20_memory.md R72, R76 to R83). -/

namespace Sys2Proof.Machine

/-! ### The busy clock -/

/-- Two devices whose busy cycles are equally far. -/
abbrev Dev.SameClock (d e : Dev) : Prop := d.busy = e.busy ∧ d.left = e.left

theorem Dev.SameClock.tick {d e : Dev} (h : d.SameClock e) : d.tick.SameClock e.tick := by
  obtain ⟨h1, h2⟩ := h
  simp only [Dev.tick, h1, h2]
  split
  · split <;> exact ⟨by simp_all, by simp_all⟩
  · exact ⟨h1, h2⟩

theorem Dev.SameClock.ticks {d e : Dev} (h : d.SameClock e) (n : Nat) : (d.ticks n).SameClock (e.ticks n) := by
  induction n generalizing d e with
  | zero => exact h
  | succ n ih => exact ih h.tick

theorem Dev.SameClock.trans {d e f : Dev} (h : d.SameClock e) (k : e.SameClock f) : d.SameClock f :=
  ⟨h.1.trans k.1, h.2.trans k.2⟩

/-- A busy cycle of the given length has just begun. -/
abbrev Dev.StartsBusy (d : Dev) (l : Option Nat) : Prop := d.busy = true ∧ d.left = l

/-! ### Sending -/

/-- `u` is reached from `s` by a select and the bytes `vs` sent. -/
structure Sent (s u : State) (vs : List Byte) : Prop where
  run : BusRun s u
  cs : u.cs = false
  frame : u.dev.frame = bitsOfBytes vs
  clock : u.dev.SameClock (s.dev.ticks (3 + 40 * vs.length))
  heard : u.dev.heardBusy = (s.dev.ticks 2).busy
  mem : u.dev.mem = s.dev.mem
  wel : u.dev.wel = s.dev.wel
  srx : u.dev.srx = s.dev.srx
  status : u.dev.status = s.dev.status
  draws : u.draws = s.draws

theorem Sent.select (s : State) : Sent s s.select [] where
  run := BusRun.refl.select
  cs := s.select_cs
  frame := by rw [State.select_dev]; rfl
  clock := by rw [State.select_dev]; exact ⟨rfl, rfl⟩
  heard := by rw [State.select_dev]
  mem := by simp [State.select_dev]
  wel := by simp [State.select_dev]
  srx := by simp [State.select_dev]
  status := by simp [State.select_dev]
  draws := rfl

theorem Sent.setPhase {s u : State} {vs : List Byte} (h : Sent s u vs) (p : Phase) : Sent s (u.setPhase p) vs where
  run := h.run.setPhase p
  cs := h.cs
  frame := h.frame
  clock := h.clock
  heard := h.heard
  mem := h.mem
  wel := h.wel
  srx := h.srx
  status := h.status
  draws := h.draws

theorem Sent.sendByte {s u : State} {vs : List Byte} (h : Sent s u vs) (hv : vs ≠ [0x05]) (v : Byte) :
    Sent s (u.sendByte v) (vs ++ [v]) := by
  have k := State.sendByte_dev h.cs h.frame hv v
  have hc : (u.dev.ticks 40).SameClock ((s.dev.ticks (3 + 40 * vs.length)).ticks 40) := h.clock.ticks 40
  rw [Dev.ticks_ticks, show 3 + 40 * vs.length + 40 = 3 + 40 * (vs ++ [v]).length by simp; omega] at hc
  exact
    { run := h.run.sendByte v
      cs := by rw [State.sendByte_cs, h.cs]
      frame := by rw [k.1]
      clock := by rw [k.1]; exact hc
      heard := by rw [k.1]; simpa using h.heard
      mem := by rw [k.1]; simpa using h.mem
      wel := by rw [k.1]; simpa using h.wel
      srx := by rw [k.1]; simpa using h.srx
      status := by rw [k.1]; simpa using h.status
      draws := k.2.trans h.draws }

theorem Sent.sendOpcode (s : State) (b : Byte) : Sent s (s.select.sendOpcode b) [b] :=
  ((Sent.select s).sendByte (by simp) b).setPhase _

theorem Sent.sendAddress {s u : State} {b : Byte} (h : Sent s u [b]) (hb : b ≠ 0x05) (a : Addr) :
    Sent s (u.sendAddress a) ([b] ++ addrBytes a) := by
  have h1 := h.sendByte (by simpa using hb) (a.extractLsb' 16 8)
  have h2 := h1.sendByte (by simp) (a.extractLsb' 8 8)
  have h3 := h2.sendByte (by simp) (a.extractLsb' 0 8)
  exact h3.setPhase _

/-! ### Closing -/

/-- A frame DEV does not accept leaves all but FRAME and the clock (20_memory.md R82, R83). -/
structure Ignored (s t : State) (n : Nat) : Prop where
  clock : t.dev.SameClock (s.dev.ticks n)
  mem : t.dev.mem = s.dev.mem
  wel : t.dev.wel = s.dev.wel
  srx : t.dev.srx = s.dev.srx
  draws : t.draws = s.draws

theorem State.commit_frame (s : State) : s.commit.dev.frame = [] := rfl

theorem State.deselect_frame (s : State) : s.deselect.dev.frame = [] := by rw [State.deselect_dev]; simp [State.commit_frame]

theorem Sent.close_eq {s u : State} {vs : List Byte} {c : FrameCmd} (h : Sent s u vs) (hc : decodeFrame vs = .ok c) :
    u.deselect.dev =
        Dev.ticks { (if u.dev.tick.accepts c then u.tick.carryOut c else u.tick).dev with frame := [] } 2 ∧
      u.deselect.draws = (if u.dev.tick.accepts c then u.tick.carryOut c else u.tick).draws := by
  have hf : frameOfBits u.tick.dev.frame = some c := by
    rw [State.tick_dev, Dev.tick_frame, h.frame, frameOfBits_bytes hc]
  rw [State.deselect_dev, State.deselect_draws, State.commit_of_frame hf]
  exact ⟨rfl, rfl⟩

theorem Sent.close_ignored {s u : State} {vs : List Byte} {c : FrameCmd} (h : Sent s u vs) (hc : decodeFrame vs = .ok c)
    (ha : u.dev.tick.accepts c = false) : Ignored s u.deselect (3 + 40 * vs.length + 3) := by
  obtain ⟨hd, hw⟩ := h.close_eq hc
  simp only [ha, Bool.false_eq_true, if_false] at hd hw
  have hk : (u.dev.tick.ticks 2).SameClock (s.dev.ticks (3 + 40 * vs.length + 3)) := by
    have := h.clock.ticks 3
    rwa [Dev.ticks_ticks] at this
  rw [State.tick_dev, Dev.ticks_withFrame] at hd
  exact
    { clock := by rw [hd]; exact hk
      mem := by rw [hd]; simp [h.mem]
      wel := by rw [hd]; simp [h.wel]
      srx := by rw [hd]; simp [h.srx]
      draws := by rw [hw]; exact h.draws }

/-- The clock at the moment CS rises. -/
theorem Sent.busy_at_close {s u : State} {vs : List Byte} (h : Sent s u vs) :
    u.dev.tick.busy = (s.dev.ticks (3 + 40 * vs.length + 1)).busy := by
  have := (h.clock.ticks 1).1
  rwa [Dev.ticks_ticks] at this

theorem Dev.ticks_withWel (d : Dev) (w : Bool) (f : List Bool) (n : Nat) :
    Dev.ticks { d with wel := w, frame := f } n = { d.ticks n with wel := w, frame := f } := by
  induction n generalizing d with
  | zero => rfl
  | succ n ih =>
    have : Dev.tick { d with wel := w, frame := f } = { d.tick with wel := w, frame := f } := by
      simp only [Dev.tick]; split <;> [split; skip] <;> rfl
    rw [Dev.ticks_succ, this, ih]
    rfl

/-- A latch frame that DEV accepts (20_memory.md R76, R77). -/
theorem Sent.close_latch {s u : State} {b : Byte} {c : FrameCmd} {w : Bool} (h : Sent s u [b]) (hc : decodeFrame [b] = .ok c)
    (hw : c = .writeEnable ∧ w = true ∨ c = .writeDisable ∧ w = false) (hb : (s.dev.ticks 44).busy = false) :
    u.deselect.dev.SameClock (s.dev.ticks 46) ∧ u.deselect.dev.mem = s.dev.mem ∧ u.deselect.dev.wel = w ∧
      u.deselect.dev.srx = s.dev.srx ∧ u.deselect.draws = s.draws := by
  have hbusy : u.dev.tick.busy = false := by rw [h.busy_at_close]; exact hb
  have ha : u.dev.tick.accepts c = true := by rcases hw with ⟨rfl, -⟩ | ⟨rfl, -⟩ <;> simp [Dev.accepts, hbusy]
  obtain ⟨hd, hdr⟩ := h.close_eq hc
  simp only [ha, if_true] at hd hdr
  have hk : (u.dev.tick.ticks 2).SameClock (s.dev.ticks 46) := by
    have := h.clock.ticks 3
    rwa [Dev.ticks_ticks] at this
  have e : (u.tick.carryOut c).dev = { u.dev.tick with wel := w } ∧ (u.tick.carryOut c).draws = u.draws := by
    rcases hw with ⟨rfl, rfl⟩ | ⟨rfl, rfl⟩ <;> exact ⟨rfl, rfl⟩
  have hd' : u.deselect.dev = { u.dev.tick.ticks 2 with wel := w, frame := [] } := by
    rw [hd, e.1]; exact Dev.ticks_withWel u.dev.tick w [] 2
  refine ⟨?_, ?_, ?_, ?_, ?_⟩
  · rw [hd']; exact hk
  · rw [hd']; simp [h.mem]
  · rw [hd']
  · rw [hd']; simp [h.srx]
  · rw [hdr, e.2, h.draws]

/-- The clock two events into a fresh busy cycle. -/
theorem Dev.ticks_two_of_starts {d : Dev} {l : Option Nat} (h : d.StartsBusy l) (e : Dev) (he : e.StartsBusy l) (n : Nat) :
    (d.ticks n).SameClock (e.ticks n) :=
  Dev.SameClock.ticks ⟨h.1.trans he.1.symm, h.2.trans he.2.symm⟩ n

/-- A frame that starts a busy cycle, accepted: SRX and the array as the frame says, and a busy cycle of free length, two events
old (20_memory.md R78, R80, R81). -/
theorem Sent.close_write {s u : State} {vs : List Byte} {c : FrameCmd} (h : Sent s u vs) (hc : decodeFrame vs = .ok c)
    (ha : u.dev.tick.accepts c = true) {l : Option Nat} (hs : (u.tick.carryOut c).dev.StartsBusy l)
    (hw : (u.tick.carryOut c).dev.wel = u.dev.tick.wel) :
    u.deselect.dev.SameClock (Dev.ticks { s.dev with busy := true, left := l } 2) ∧
      u.deselect.dev.mem = (u.tick.carryOut c).dev.mem ∧ u.deselect.dev.wel = s.dev.wel ∧
      u.deselect.draws = (u.tick.carryOut c).draws := by
  obtain ⟨hd, hdr⟩ := h.close_eq hc
  simp only [ha, if_true] at hd hdr
  rw [Dev.ticks_withFrame] at hd
  refine ⟨?_, ?_, ?_, hdr⟩
  · rw [hd]
    exact Dev.ticks_two_of_starts hs _ ⟨rfl, rfl⟩ 2
  · rw [hd]; simp
  · rw [hd]; simp [hw, h.wel]

theorem Sent.close_program {s u : State} {a : Addr} {v : Byte} (h : Sent s u ([0x02] ++ addrBytes a ++ [v]))
    (hb : (s.dev.ticks 204).busy = false) (hw : s.dev.wel = true) (hr : a.toNat < Config.flashSize) :
    u.deselect.dev.SameClock (Dev.ticks { s.dev with busy := true, left := s.draws.latency.1 } 2) ∧
      u.deselect.dev.mem = s.dev.mem.set a.toNat (programFn (s.dev.read a.toNat) v) ∧ u.deselect.dev.wel = true ∧
      u.deselect.draws = s.draws.latency.2 := by
  have hbusy : u.dev.tick.busy = false := by rw [h.busy_at_close]; exact hb
  have ha : u.dev.tick.accepts (.program a v) = true := by simp [Dev.accepts, hbusy, h.wel, hw]
  have e := State.carryOut_program u.tick hr v
  obtain ⟨h1, h2, h3, h4⟩ := h.close_write (decodeFrame_program a v) ha (l := s.draws.latency.1)
    (by rw [e]; exact ⟨rfl, by rw [← h.draws]; rfl⟩) (by rw [e]; rfl)
  rw [e] at h2 h4
  refine ⟨h1, h2.trans ?_, h3.trans hw, h4.trans ?_⟩
  · show u.dev.tick.mem.set a.toNat (programFn (u.dev.tick.read a.toNat) v) = _
    rw [Dev.tick_mem, h.mem, Dev.read_congr (d := u.dev.tick) (e := s.dev) ((Dev.tick_mem _).trans h.mem)]
  · rw [← h.draws]; rfl

theorem Sent.close_erase {s u : State} {a : Addr} (h : Sent s u ([0xD8] ++ addrBytes a))
    (hb : (s.dev.ticks 164).busy = false) (hw : s.dev.wel = true) (hr : a.toNat < Config.flashSize) :
    u.deselect.dev.SameClock (Dev.ticks { s.dev with busy := true, left := s.draws.latency.1 } 2) ∧
      u.deselect.dev.mem = s.dev.mem.erase (blockBase s.params a.toNat) s.params.blockSize ∧ u.deselect.dev.wel = true ∧
      u.deselect.draws = s.draws.latency.2 := by
  have hbusy : u.dev.tick.busy = false := by rw [h.busy_at_close]; exact hb
  have ha : u.dev.tick.accepts (.erase a) = true := by simp [Dev.accepts, hbusy, h.wel, hw]
  have e := State.carryOut_erase u.tick hr
  obtain ⟨h1, h2, h3, h4⟩ := h.close_write (decodeFrame_erase a) ha (l := s.draws.latency.1)
    (by rw [e]; exact ⟨rfl, by rw [← h.draws]; rfl⟩) (by rw [e]; rfl)
  rw [e] at h2 h4
  refine ⟨h1, h2.trans ?_, h3.trans hw, h4.trans ?_⟩
  · show u.dev.tick.mem.erase (blockBase u.params a.toNat) u.params.blockSize = _
    rw [Dev.tick_mem, h.mem, h.run.params]
  · rw [← h.draws]; rfl

/-- An accepted status write: the array stays, SRX is a free value of the byte written (20_memory.md R78). -/
theorem Sent.close_writeStatus {s u : State} {v : Byte} (h : Sent s u [0x01, v]) (hb : (s.dev.ticks 84).busy = false)
    (hw : s.dev.wel = true) :
    u.deselect.dev.SameClock
        (Dev.ticks { s.dev with busy := true, left := (Draws.latency { s.draws with count := s.draws.count + 1 }).1 } 2) ∧
      u.deselect.dev.mem = s.dev.mem ∧ u.deselect.dev.wel = true ∧
      u.deselect.draws = (Draws.latency { s.draws with count := s.draws.count + 1 }).2 := by
  have hbusy : u.dev.tick.busy = false := by rw [h.busy_at_close]; exact hb
  have ha : u.dev.tick.accepts (.writeStatus v) = true := by simp [Dev.accepts, hbusy, h.wel, hw]
  obtain ⟨h1, h2, h3, h4⟩ := h.close_write (decodeFrame_writeStatus v) ha
    (l := (Draws.latency { s.draws with count := s.draws.count + 1 }).1) ⟨rfl, by rw [← h.draws]; rfl⟩ rfl
  refine ⟨h1, h2.trans ?_, h3.trans hw, h4.trans ?_⟩
  · exact (Dev.tick_mem _).trans h.mem
  · rw [← h.draws]; rfl

end Sys2Proof.Machine
end

