-- ==== Sys2Proof/Laws/FrameFields.lean ====
section
/-! SUPPORT. The lines, the registers of the bit-banger and the trace after each whole frame (30_encoding.md R101, 40_bus_primitives.md
R139), and the status frame. -/

namespace Sys2Proof.Machine

@[simp] theorem State.sendOpcode_cs (s : State) (b : Byte) : (s.sendOpcode b).cs = s.cs := by simp [State.sendOpcode]
@[simp] theorem State.sendOpcode_sck (s : State) (b : Byte) : (s.sendOpcode b).sck = false := by simp [State.sendOpcode]
@[simp] theorem State.sendOpcode_di (s : State) (b : Byte) : (s.sendOpcode b).di = b.getLsbD 0 := by simp [State.sendOpcode]
@[simp] theorem State.sendOpcode_sr (s : State) (b : Byte) : (s.sendOpcode b).sr = 0 := by simp [State.sendOpcode]
@[simp] theorem State.sendOpcode_bitcnt (s : State) (b : Byte) : (s.sendOpcode b).bitcnt = 0 := by simp [State.sendOpcode]
@[simp] theorem State.sendOpcode_st (s : State) (b : Byte) : (s.sendOpcode b).st = s.st := by simp [State.sendOpcode]
@[simp] theorem State.sendOpcode_ph (s : State) (b : Byte) : (s.sendOpcode b).ph = .opcodeSent := rfl
@[simp] theorem State.sendOpcode_trace (s : State) (b : Byte) : (s.sendOpcode b).trace = s.trace ++ sendEvents b := by
  simp [State.sendOpcode]

@[simp] theorem State.sendAddress_cs (s : State) (a : Addr) : (s.sendAddress a).cs = s.cs := by simp [State.sendAddress]
@[simp] theorem State.sendAddress_sck (s : State) (a : Addr) : (s.sendAddress a).sck = false := by simp [State.sendAddress]
@[simp] theorem State.sendAddress_di (s : State) (a : Addr) : (s.sendAddress a).di = (a.extractLsb' 0 8).getLsbD 0 := by simp [State.sendAddress]
@[simp] theorem State.sendAddress_sr (s : State) (a : Addr) : (s.sendAddress a).sr = 0 := by simp [State.sendAddress]
@[simp] theorem State.sendAddress_bitcnt (s : State) (a : Addr) : (s.sendAddress a).bitcnt = 0 := by simp [State.sendAddress]
@[simp] theorem State.sendAddress_st (s : State) (a : Addr) : (s.sendAddress a).st = s.st := by simp [State.sendAddress]
@[simp] theorem State.sendAddress_ph (s : State) (a : Addr) : (s.sendAddress a).ph = .addressSent := rfl
@[simp] theorem State.sendAddress_trace (s : State) (a : Addr) : (s.sendAddress a).trace = s.trace ++ addressEvents a := by
  simp [State.sendAddress, addressEvents, addrBytes]

@[simp] theorem State.opcodeFrame_cs (s : State) (b : Byte) : (s.opcodeFrame b).cs = true := by simp [State.opcodeFrame]
@[simp] theorem State.opcodeFrame_sck (s : State) (b : Byte) : (s.opcodeFrame b).sck = false := by simp [State.opcodeFrame]
@[simp] theorem State.opcodeFrame_di (s : State) (b : Byte) : (s.opcodeFrame b).di = b.getLsbD 0 := by simp [State.opcodeFrame]
@[simp] theorem State.opcodeFrame_sr (s : State) (b : Byte) : (s.opcodeFrame b).sr = 0 := by simp [State.opcodeFrame]
@[simp] theorem State.opcodeFrame_bitcnt (s : State) (b : Byte) : (s.opcodeFrame b).bitcnt = 0 := by simp [State.opcodeFrame]
@[simp] theorem State.opcodeFrame_st (s : State) (b : Byte) : (s.opcodeFrame b).st = s.st := by simp [State.opcodeFrame]
@[simp] theorem State.opcodeFrame_ph (s : State) (b : Byte) : (s.opcodeFrame b).ph = .idle := rfl
@[simp] theorem State.opcodeFrame_trace (s : State) (b : Byte) : (s.opcodeFrame b).trace = s.trace ++ opcodeFrameEvents s.params b := by
  simp [State.opcodeFrame, opcodeFrameEvents]
@[simp] theorem State.opcodeFrame_frame (s : State) (b : Byte) : (s.opcodeFrame b).dev.frame = [] := State.deselect_frame _

@[simp] theorem State.dataFrame_cs (s : State) (b v : Byte) : (s.dataFrame b v).cs = true := by simp [State.dataFrame]
@[simp] theorem State.dataFrame_sck (s : State) (b v : Byte) : (s.dataFrame b v).sck = false := by simp [State.dataFrame]
@[simp] theorem State.dataFrame_di (s : State) (b v : Byte) : (s.dataFrame b v).di = v.getLsbD 0 := by simp [State.dataFrame]
@[simp] theorem State.dataFrame_sr (s : State) (b v : Byte) : (s.dataFrame b v).sr = 0 := by simp [State.dataFrame]
@[simp] theorem State.dataFrame_bitcnt (s : State) (b v : Byte) : (s.dataFrame b v).bitcnt = 0 := by simp [State.dataFrame]
@[simp] theorem State.dataFrame_st (s : State) (b v : Byte) : (s.dataFrame b v).st = s.st := by simp [State.dataFrame]
@[simp] theorem State.dataFrame_ph (s : State) (b v : Byte) : (s.dataFrame b v).ph = .idle := rfl
@[simp] theorem State.dataFrame_trace (s : State) (b v : Byte) : (s.dataFrame b v).trace = s.trace ++ dataFrameEvents s.params b v := by
  simp [State.dataFrame, dataFrameEvents]
@[simp] theorem State.dataFrame_frame (s : State) (b v : Byte) : (s.dataFrame b v).dev.frame = [] := State.deselect_frame _

@[simp] theorem State.addressFrame_cs (s : State) (b : Byte) (a : Addr) : (s.addressFrame b a).cs = true := by simp [State.addressFrame]
@[simp] theorem State.addressFrame_sck (s : State) (b : Byte) (a : Addr) : (s.addressFrame b a).sck = false := by simp [State.addressFrame]
@[simp] theorem State.addressFrame_di (s : State) (b : Byte) (a : Addr) : (s.addressFrame b a).di = (a.extractLsb' 0 8).getLsbD 0 := by simp [State.addressFrame]
@[simp] theorem State.addressFrame_sr (s : State) (b : Byte) (a : Addr) : (s.addressFrame b a).sr = 0 := by simp [State.addressFrame]
@[simp] theorem State.addressFrame_bitcnt (s : State) (b : Byte) (a : Addr) : (s.addressFrame b a).bitcnt = 0 := by simp [State.addressFrame]
@[simp] theorem State.addressFrame_st (s : State) (b : Byte) (a : Addr) : (s.addressFrame b a).st = s.st := by simp [State.addressFrame]
@[simp] theorem State.addressFrame_ph (s : State) (b : Byte) (a : Addr) : (s.addressFrame b a).ph = .idle := rfl
@[simp] theorem State.addressFrame_trace (s : State) (b : Byte) (a : Addr) : (s.addressFrame b a).trace = s.trace ++ addressFrameEvents s.params b a := by
  simp [State.addressFrame, addressFrameEvents]
@[simp] theorem State.addressFrame_frame (s : State) (b : Byte) (a : Addr) : (s.addressFrame b a).dev.frame = [] := State.deselect_frame _

@[simp] theorem State.addressDataFrame_cs (s : State) (b : Byte) (a : Addr) (v : Byte) : (s.addressDataFrame b a v).cs = true := by simp [State.addressDataFrame]
@[simp] theorem State.addressDataFrame_sck (s : State) (b : Byte) (a : Addr) (v : Byte) : (s.addressDataFrame b a v).sck = false := by simp [State.addressDataFrame]
@[simp] theorem State.addressDataFrame_di (s : State) (b : Byte) (a : Addr) (v : Byte) : (s.addressDataFrame b a v).di = v.getLsbD 0 := by simp [State.addressDataFrame]
@[simp] theorem State.addressDataFrame_sr (s : State) (b : Byte) (a : Addr) (v : Byte) : (s.addressDataFrame b a v).sr = 0 := by simp [State.addressDataFrame]
@[simp] theorem State.addressDataFrame_bitcnt (s : State) (b : Byte) (a : Addr) (v : Byte) : (s.addressDataFrame b a v).bitcnt = 0 := by simp [State.addressDataFrame]
@[simp] theorem State.addressDataFrame_st (s : State) (b : Byte) (a : Addr) (v : Byte) : (s.addressDataFrame b a v).st = s.st := by simp [State.addressDataFrame]
@[simp] theorem State.addressDataFrame_ph (s : State) (b : Byte) (a : Addr) (v : Byte) : (s.addressDataFrame b a v).ph = .idle := rfl
@[simp] theorem State.addressDataFrame_trace (s : State) (b : Byte) (a : Addr) (v : Byte) : (s.addressDataFrame b a v).trace = s.trace ++ addressDataFrameEvents s.params b a v := by
  simp [State.addressDataFrame, addressDataFrameEvents]
@[simp] theorem State.addressDataFrame_frame (s : State) (b : Byte) (a : Addr) (v : Byte) : (s.addressDataFrame b a v).dev.frame = [] := State.deselect_frame _

@[simp] theorem State.programFrames_cs (s : State) (a : Addr) (v : Byte) : (s.programFrames a v).cs = true := by simp [State.programFrames]
@[simp] theorem State.programFrames_sck (s : State) (a : Addr) (v : Byte) : (s.programFrames a v).sck = false := by simp [State.programFrames]
@[simp] theorem State.programFrames_di (s : State) (a : Addr) (v : Byte) : (s.programFrames a v).di = v.getLsbD 0 := by simp [State.programFrames]
@[simp] theorem State.programFrames_sr (s : State) (a : Addr) (v : Byte) : (s.programFrames a v).sr = 0 := by simp [State.programFrames]
@[simp] theorem State.programFrames_bitcnt (s : State) (a : Addr) (v : Byte) : (s.programFrames a v).bitcnt = 0 := by simp [State.programFrames]
@[simp] theorem State.programFrames_st (s : State) (a : Addr) (v : Byte) : (s.programFrames a v).st = s.st := by simp [State.programFrames]
@[simp] theorem State.programFrames_ph (s : State) (a : Addr) (v : Byte) : (s.programFrames a v).ph = .idle := rfl
@[simp] theorem State.programFrames_trace (s : State) (a : Addr) (v : Byte) : (s.programFrames a v).trace = s.trace ++ programEvents s.params a v := by
  simp [State.programFrames, programEvents]
@[simp] theorem State.programFrames_frame (s : State) (a : Addr) (v : Byte) : (s.programFrames a v).dev.frame = [] := State.deselect_frame _

/-! ### The status frame -/

@[simp] theorem State.statusFrame_cs (s : State) : s.statusFrame.cs = true := by simp [State.statusFrame]
@[simp] theorem State.statusFrame_sck (s : State) : s.statusFrame.sck = false := by simp [State.statusFrame]
@[simp] theorem State.statusFrame_di (s : State) : s.statusFrame.di = true := by simp [State.statusFrame]
@[simp] theorem State.statusFrame_bitcnt (s : State) : s.statusFrame.bitcnt = 0 := by simp [State.statusFrame]
@[simp] theorem State.statusFrame_ph (s : State) : s.statusFrame.ph = .idle := rfl
@[simp] theorem State.statusFrame_frame (s : State) : s.statusFrame.dev.frame = [] := State.deselect_frame _
theorem State.statusFrame_sr (s : State) : s.statusFrame.sr = s.statusFrame.st := by simp [State.statusFrame]
/-- ST is the byte received (41_basic_commands.md R150). -/
@[simp] theorem State.statusFrame_trace (s : State) :
    s.statusFrame.trace = s.trace ++ statusFrameEvents s.params s.statusFrame.st := by
  simp [State.statusFrame, statusFrameEvents]

/-- The status byte of a status frame: BUSY as it is when the response starts, 44 events after the frame began (20_memory.md R74,
10_state.md R39). -/
theorem State.statusFrame_st (s : State) :
    s.statusFrame.st = statusByte s.params (s.dev.ticks 44).busy s.dev.wel (s.draws.srx s.dev.srx).1 := by
  have h := (Sent.sendOpcode s 0x05).setPhase .dataPhase
  have k := (State.receiveByte_status h.cs h.frame).1
  have hb := h.busy_at_close
  simp only [State.statusFrame, State.deselect_st]
  rw [k, hb, h.wel, h.draws, h.srx, h.run.params]
  simp only [List.length_singleton, Nat.mul_one, Nat.reduceAdd]

/-- A status frame changes nothing in DEV but the clock (20_memory.md R68, R74). -/
theorem State.statusFrame_dev (s : State) :
    s.statusFrame.dev.SameClock (s.dev.ticks 86) ∧ s.statusFrame.dev.mem = s.dev.mem ∧
      s.statusFrame.dev.wel = s.dev.wel ∧ s.statusFrame.dev.srx = s.dev.srx ∧
      s.statusFrame.draws = (s.draws.srx s.dev.srx).2 := by
  have h := (Sent.sendOpcode s 0x05).setPhase .dataPhase
  set u := (s.select.sendOpcode 0x05).setPhase .dataPhase with hu
  obtain ⟨-, hd, hw⟩ := State.receiveByte_status h.cs h.frame
  obtain ⟨t, ht⟩ : ∃ t : State, t = { u.receiveByte with st := u.receiveByte.sr } := ⟨_, rfl⟩
  have htd : t.dev = u.receiveByte.dev := by rw [ht]
  have htw : t.draws = u.receiveByte.draws := by rw [ht]
  have hf : frameOfBits t.tick.dev.frame = some .readStatus := by
    rw [State.tick_dev, Dev.tick_frame, htd, hd]
    exact frameOfBits_bytes (decodeFrame_readStatus _)
  have hc := State.commit_of_frame hf
  have ha : t.tick.dev.accepts .readStatus = false := rfl
  simp only [ha, Bool.false_eq_true, if_false] at hc
  have hk : (t.dev.tick.ticks 2).SameClock (s.dev.ticks 86) := by
    have hu40 : t.dev.SameClock (u.dev.ticks 40) := by
      rw [htd, hd]
      constructor <;> simp only
    have h2 := hu40.ticks 3
    rw [Dev.ticks_ticks] at h2
    have h3 := h.clock.ticks 43
    rw [Dev.ticks_ticks] at h3
    exact Dev.SameClock.trans h2 h3
  have e : s.statusFrame = t.deselect := by rw [ht]; rfl
  have ed : t.deselect.dev = Dev.ticks { t.dev.tick with frame := [] } 2 := by rw [State.deselect_dev, hc, State.tick_dev]
  rw [Dev.ticks_withFrame] at ed
  refine ⟨?_, ?_, ?_, ?_, ?_⟩
  · rw [e, ed]; exact hk
  · rw [e, ed]; simp [htd, hd, h.mem]
  · rw [e, ed]; simp [htd, hd, h.wel]
  · rw [e, ed]; simp [htd, hd, h.srx]
  · rw [e, State.deselect_draws, hc]
    simp only [State.tick_draws]
    rw [htw, hw, h.draws, h.srx]

end Sys2Proof.Machine
end

