-- ==== Sys2Proof/Laws/Clocked.lean ====
section
/-! SUPPORT. What clocking bits does to DEV whatever the frame is: bits are appended, the busy clock runs, the array, the latch and
SRX stay (20_memory.md R68, R72, R84). Then `receiveBytes` and the read frame, for any device. -/

namespace Sys2Proof.Machine

/-- From `s` to `u`, `n` events pass with CS as it is and the bits `bs` are clocked in. -/
structure Clocked (s u : State) (n : Nat) (bs : List Bool) : Prop where
  clock : u.dev.SameClock (s.dev.ticks n)
  frame : u.dev.frame = s.dev.frame ++ bs
  heard : u.dev.heardBusy = s.dev.heardBusy
  mem : u.dev.mem = s.dev.mem
  wel : u.dev.wel = s.dev.wel
  srx : u.dev.srx = s.dev.srx
  cs : u.cs = s.cs

theorem Clocked.refl (s : State) : Clocked s s 0 [] := ⟨⟨rfl, rfl⟩, by simp, rfl, rfl, rfl, rfl, rfl⟩

theorem Clocked.trans {s t u : State} {m n : Nat} {as bs : List Bool} (h : Clocked s t m as) (k : Clocked t u n bs) :
    Clocked s u (m + n) (as ++ bs) where
  clock := by
    have := h.clock.ticks n
    rw [Dev.ticks_ticks] at this
    exact k.clock.trans this
  frame := by rw [k.frame, h.frame, List.append_assoc]
  heard := k.heard.trans h.heard
  mem := k.mem.trans h.mem
  wel := k.wel.trans h.wel
  srx := k.srx.trans h.srx
  cs := k.cs.trans h.cs

/-- What an event that clocks no bit does. -/
theorem Clocked.of_tick {s u : State} (hd : u.dev = s.dev.tick) (hc : u.cs = s.cs) : Clocked s u 1 [] := by
  constructor <;> simp [hd, hc, Dev.ticks, Dev.SameClock]

theorem Clocked.of_dev {s t u : State} {n : Nat} {bs : List Bool} (h : Clocked s t n bs) (hd : u.dev = t.dev) (hc : u.cs = t.cs) :
    Clocked s u n bs := by
  constructor <;> simp only [hd, hc]
  · exact h.clock
  · exact h.frame
  · exact h.heard
  · exact h.mem
  · exact h.wel
  · exact h.srx
  · exact h.cs

theorem Clocked.from_dev {s t u : State} {n : Nat} {bs : List Bool} (h : Clocked t u n bs) (hd : t.dev = s.dev) (hc : t.cs = s.cs) :
    Clocked s u n bs := by
  constructor <;> simp only [← hd, ← hc]
  · exact h.clock
  · exact h.frame
  · exact h.heard
  · exact h.mem
  · exact h.wel
  · exact h.srx
  · exact h.cs

theorem State.drive_sck_high_clocked {s : State} (hc : s.cs = false) : Clocked s (s.drive .sck true) 1 [s.di] := by
  by_cases hq : s.Answering
  · have h := (State.drive_sck_high_answering hc hq).1
    constructor <;> simp [h, Dev.ticks, Dev.SameClock]
  · have h := (State.drive_sck_high_quiet hc hq).1
    constructor <;> simp [h, Dev.ticks, Dev.SameClock]

theorem State.sendBit_clocked {s : State} (hc : s.cs = false) : Clocked s s.sendBit 5 [s.sr.getLsbD 7] := by
  have h1 : Clocked s (s.drive .di (s.sr.getLsbD 7)) 1 [] := .of_tick rfl (by simp)
  have h2 := State.drive_sck_high_clocked (s := s.drive .di (s.sr.getLsbD 7)) (by simpa using hc)
  rw [State.drive_di_di] at h2
  obtain ⟨t, ht⟩ : ∃ t, t = (s.drive .di (s.sr.getLsbD 7)).drive .sck true := ⟨_, rfl⟩
  have h3 : Clocked t t.delayShort 1 [] := .of_tick rfl rfl
  have h4 : Clocked t.delayShort (t.delayShort.drive .sck false) 1 [] := .of_tick rfl (by simp)
  have h5 : Clocked (t.delayShort.drive .sck false) (t.delayShort.drive .sck false).delayShort 1 [] := .of_tick rfl rfl
  rw [← ht] at h2
  have := (((h1.trans h2).trans h3).trans h4).trans h5
  simp only [List.nil_append, List.append_nil, Nat.reduceAdd] at this
  exact this.of_dev (by rw [ht]; rfl) (by rw [ht]; rfl)

theorem State.sendBits_clocked {s : State} (hc : s.cs = false) (n : Nat) : Clocked s (s.sendBits n) (5 * n) (topBits s.sr n) := by
  induction n generalizing s with
  | zero => exact .refl s
  | succ n ih =>
    have h := (State.sendBit_clocked hc).trans (ih (s := s.sendBit) (by simpa using hc))
    rwa [State.sendBit_sr, show 5 + 5 * n = 5 * (n + 1) by omega] at h

/-- A byte sent is clocked in, whatever the frame is (20_memory.md R72). -/
theorem State.sendByte_clocked {s : State} (hc : s.cs = false) (v : Byte) : Clocked s (s.sendByte v) 40 (bitsOfByte v) := by
  have h := State.sendBits_clocked (s := { s with sr := v, bitcnt := 8 }) hc 8
  rw [topBits_eight] at h
  exact h.from_dev rfl rfl

theorem State.receiveBit_clocked {s : State} (hc : s.cs = false) : Clocked s s.receiveBit 5 [s.di] := by
  have h := State.drive_sck_high_clocked hc
  have hd := State.receiveBit_dev s
  constructor <;> simp only [hd, Dev.ticks_frame, Dev.ticks_heardBusy, Dev.ticks_mem, Dev.ticks_wel, Dev.ticks_srx, State.receiveBit_cs]
  · have := h.clock.ticks 4
    rwa [Dev.ticks_ticks] at this
  · exact h.frame
  · exact h.heard
  · exact h.mem
  · exact h.wel
  · exact h.srx

theorem State.receiveBits_clocked {s : State} (hc : s.cs = false) (n : Nat) :
    Clocked s (s.receiveBits n) (5 * n) (List.replicate n s.di) := by
  induction n generalizing s with
  | zero => exact .refl s
  | succ n ih =>
    have h := (State.receiveBit_clocked hc).trans (ih (s := s.receiveBit) (by simpa using hc))
    rwa [State.receiveBit_di, show 5 + 5 * n = 5 * (n + 1) by omega] at h

/-- While SEQ receives a byte, DEV clocks in eight times the level DI keeps (10_state.md R22). -/
theorem State.receiveByte_clocked {s : State} (hc : s.cs = false) : Clocked s s.receiveByte 40 (bitsOfByte (heldByte s.di)) := by
  rw [heldByte_bits]
  exact (State.receiveBits_clocked (s := { s with bitcnt := 8 }) hc 8).from_dev rfl rfl

/-! ### receiveBytes -/

/-- From `s` to `t`, the bytes `rs` are received into the running command's buffer from IDX on (40_bus_primitives.md R134). -/
structure Received (s t : State) (rs : List Byte) : Prop where
  eq : t = { s with
    sck := t.sck, sr := t.sr, bitcnt := t.bitcnt, trace := s.trace ++ rs.flatMap receiveEvents, dev := t.dev, draws := t.draws
    idx := s.idx + BitVec.ofNat 16 rs.length, bufs := bufferFill s.bufs s.bufRef s.idx.toNat rs }
  sck : s.sck = false → t.sck = false
  sr : t.sr = (s.sr :: rs).getLast (by simp)
  bitcnt : rs ≠ [] → t.bitcnt = 0
  bitcntNil : rs = [] → t.bitcnt = s.bitcnt
  clocked : s.cs = false → Clocked s t (40 * rs.length) (bitsOfBytes (List.replicate rs.length (heldByte s.di)))

theorem Received.refl (s : State) : Received s s [] where
  eq := by simp [bufferFill]
  sck := id
  sr := rfl
  bitcnt h := absurd rfl h
  bitcntNil _ := rfl
  clocked _ := .refl s

theorem State.receiveInto_eq (s : State) :
    s.receiveInto = { s with
      sck := false, sr := s.receiveByte.sr, bitcnt := 0, trace := s.trace ++ receiveEvents s.receiveByte.sr
      dev := s.receiveByte.dev, draws := s.receiveByte.draws
      bufs := bufferSet s.bufs s.bufRef s.idx.toNat s.receiveByte.sr, idx := s.idx + 1 } := by
  have h := (BusRun.refl (s := s)).receiveByte.eq
  simp only [State.receiveByte_cs, State.receiveByte_sck, State.receiveByte_di, State.receiveByte_bitcnt, State.receiveByte_ph,
    State.receiveByte_st, State.receiveByte_trace] at h
  simp only [State.receiveInto]
  rw [h]

theorem Received.step {s t : State} {rs : List Byte} (h : Received s.receiveInto t rs) (hn : s.idx.toNat + rs.length + 1 < 2 ^ 16) :
    Received s t (s.receiveByte.sr :: rs) := by
  have e := s.receiveInto_eq
  have hi : (s.idx + 1).toNat = s.idx.toNat + 1 := by
    rw [BitVec.toNat_add]
    simp
    omega
  obtain ⟨u, hu⟩ : ∃ u, u = s.receiveInto := ⟨_, rfl⟩
  rw [← hu] at h e
  have hidx : u.idx = s.idx + 1 := by rw [e]
  refine ⟨?_, fun _ => h.sck (by rw [e]), ?_, fun _ => ?_, fun k => by simp at k, fun hc => ?_⟩
  · rw [h.eq]
    rw [hidx, hi]
    rw [e]
    simp only [List.flatMap_cons, List.append_assoc, List.length_cons, bufferFill]
    congr 1
    apply BitVec.eq_of_toNat_eq
    simp [BitVec.toNat_add]
    omega
  · rw [h.sr]
    have : u.sr = s.receiveByte.sr := by rw [e]
    rw [this]
    rfl
  · by_cases hr : rs = []
    · rw [h.bitcntNil hr, e]
    · exact h.bitcnt hr
  · have k := (State.receiveByte_clocked hc).trans ((h.clocked (by rw [e]; exact hc)).from_dev (s := s.receiveByte) (by rw [e])
      (by rw [e]; simp))
    have hdi : u.di = s.di := by rw [e]
    rw [hdi, show 40 + 40 * rs.length = 40 * (s.receiveByte.sr :: rs).length by simp; omega] at k
    rwa [List.length_cons, List.replicate_succ, bitsOfBytes_cons]

theorem State.receiveTurns_zero (s : State) : s.receiveTurns 0 = s := rfl
theorem turns_succ (body : State → State) (n : Nat) (s : State) : turns body (n + 1) s = turns body n (body s) := rfl
theorem State.receiveTurns_succ (s : State) (n : Nat) : s.receiveTurns (n + 1) = s.receiveInto.receiveTurns n :=
  turns_succ State.receiveInto n s

/-- `n` turns of `receiveBytes`' loop receive some `n` bytes. -/
theorem State.receiveTurns_received (s : State) (n : Nat) (hn : s.idx.toNat + n < 2 ^ 16) :
    ∃ rs, rs.length = n ∧ Received s (s.receiveTurns n) rs := by
  induction n generalizing s with
  | zero => exact ⟨[], rfl, .refl s⟩
  | succ n ih =>
    have hi : s.receiveInto.idx.toNat = s.idx.toNat + 1 := by
      rw [s.receiveInto_eq]
      simp [BitVec.toNat_add]
      omega
    obtain ⟨rs, hl, h⟩ := ih s.receiveInto (by omega)
    rw [State.receiveTurns_succ]
    exact ⟨s.receiveByte.sr :: rs, by simp [hl], h.step (by omega)⟩

end Sys2Proof.Machine
end

