-- ==== Sys2Proof/Laws/FrameDev.lean ====
section
/-! SUPPORT. What each frame leaves in DEV, exactly (20_memory.md R72 to R83). -/

namespace Sys2Proof.Machine

/-- DEV with a frame sent but not closed. -/
theorem Sent.dev_eq {s u : State} {vs : List Byte} (h : Sent s u vs) :
    u.dev = { s.dev.ticks (3 + 40 * vs.length) with frame := bitsOfBytes vs, heardBusy := (s.dev.ticks 2).busy } := by
  obtain ⟨h1, h2⟩ := h.clock
  have h3 := h.mem
  have h4 := h.wel
  have h5 := h.srx
  have h6 := h.status
  have h7 := h.frame
  have h8 := h.heard
  revert h1 h2 h3 h4 h5 h6 h7 h8
  cases u.dev
  simp only
  rintro rfl rfl rfl rfl rfl rfl rfl rfl
  simp

theorem Dev.ticks_withHeard (d : Dev) (f : List Bool) (h : Bool) (n : Nat) :
    Dev.ticks { d with frame := f, heardBusy := h } n = { d.ticks n with frame := f, heardBusy := h } := by
  rw [Dev.ticks_with d f d.status h n]
  simp

/-- DEV at the moment CS rises, before it commits. -/
theorem Sent.tick_dev_eq {s u : State} {vs : List Byte} (h : Sent s u vs) :
    u.tick.dev = { s.dev.ticks (3 + 40 * vs.length + 1) with frame := bitsOfBytes vs, heardBusy := (s.dev.ticks 2).busy } := by
  have k := Dev.ticks_withHeard (s.dev.ticks (3 + 40 * vs.length)) (bitsOfBytes vs) (s.dev.ticks 2).busy 1
  rw [Dev.ticks_ticks] at k
  rw [State.tick_dev, h.dev_eq]
  exact k

/-- A frame DEV does not accept leaves FRAME empty and nothing else changed but the clock (20_memory.md R82, R83). -/
theorem Sent.close_ignored_dev {s u : State} {vs : List Byte} {c : FrameCmd} (h : Sent s u vs) (hc : decodeFrame vs = .ok c)
    (ha : u.tick.dev.accepts c = false) :
    u.deselect.dev = { s.dev.ticks (3 + 40 * vs.length + 3) with frame := [], heardBusy := (s.dev.ticks 2).busy } ∧
      u.deselect.draws = s.draws := by
  obtain ⟨hd, hw⟩ := h.close_eq hc
  rw [State.tick_dev] at ha
  simp only [ha, Bool.false_eq_true, if_false] at hd hw
  refine ⟨?_, hw.trans h.draws⟩
  rw [hd, h.tick_dev_eq]
  have k := Dev.ticks_withHeard (s.dev.ticks (3 + 40 * vs.length + 1)) [] (s.dev.ticks 2).busy 2
  rw [Dev.ticks_ticks] at k
  exact k

/-- BUSY at the moment CS rises. -/
theorem Sent.accepts_busy {s u : State} {vs : List Byte} (h : Sent s u vs) :
    u.tick.dev.busy = (s.dev.ticks (3 + 40 * vs.length + 1)).busy := by rw [h.tick_dev_eq]

theorem Sent.tick_wel {s u : State} {vs : List Byte} (h : Sent s u vs) : u.tick.dev.wel = s.dev.wel := by
  rw [h.tick_dev_eq]; simp

/-- An accepted frame that starts a busy cycle (20_memory.md R78, R80, R81). -/
theorem Sent.close_accepted_dev {s u : State} {vs : List Byte} {c : FrameCmd} (h : Sent s u vs) (hc : decodeFrame vs = .ok c)
    (ha : u.tick.dev.accepts c = true) :
    u.deselect.dev = Dev.ticks { (u.tick.carryOut c).dev with frame := [] } 2 ∧
      u.deselect.draws = (u.tick.carryOut c).draws := by
  rw [State.tick_dev] at ha
  simpa only [ha, if_true] using h.close_eq hc

/-- A frame of format F-O that writes the latch, in every case (20_memory.md R76, R77, R82). -/
theorem Sent.close_latch_dev {s u : State} {b : Byte} {c : FrameCmd} {w : Bool} (h : Sent s u [b]) (hc : decodeFrame [b] = .ok c)
    (hw : c = .writeEnable ∧ w = true ∨ c = .writeDisable ∧ w = false) :
    u.deselect.dev =
        { s.dev.ticks 46 with
          frame := [], heardBusy := (s.dev.ticks 2).busy, wel := if (s.dev.ticks 44).busy then s.dev.wel else w } ∧
      u.deselect.draws = s.draws := by
  have hb := h.accepts_busy
  have ht := h.tick_dev_eq
  simp only [List.length_singleton, Nat.mul_one, Nat.reduceAdd] at hb ht
  cases hk : (s.dev.ticks 44).busy
  · have ha : u.tick.dev.accepts c = true := by
      rcases hw with ⟨rfl, -⟩ | ⟨rfl, -⟩ <;> simp only [Dev.accepts, hb, hk, Bool.not_false]
    obtain ⟨hd, hdr⟩ := h.close_accepted_dev hc ha
    have e : (u.tick.carryOut c).dev = { u.tick.dev with wel := w } ∧ (u.tick.carryOut c).draws = u.draws := by
      rcases hw with ⟨rfl, rfl⟩ | ⟨rfl, rfl⟩ <;> exact ⟨rfl, rfl⟩
    refine ⟨?_, by rw [hdr, e.2, h.draws]⟩
    rw [hd, e.1]
    refine (Dev.ticks_withWel u.tick.dev w [] 2).trans ?_
    have k := Dev.ticks_withHeard (s.dev.ticks 44) (bitsOfBytes [b]) (s.dev.ticks 2).busy 2
    rw [Dev.ticks_ticks] at k
    rw [ht, k]
    simp
  · have ha : u.tick.dev.accepts c = false := by
      rcases hw with ⟨rfl, -⟩ | ⟨rfl, -⟩ <;> simp only [Dev.accepts, hb, hk, Bool.not_true]
    have k := h.close_ignored_dev hc ha
    simp only [List.length_singleton, Nat.mul_one, Nat.reduceAdd] at k
    refine ⟨?_, k.2⟩
    rw [k.1]
    simp

theorem State.writeEnableFrame (s : State) :
    (s.opcodeFrame 0x06).dev =
        { s.dev.ticks 46 with
          frame := [], heardBusy := (s.dev.ticks 2).busy, wel := if (s.dev.ticks 44).busy then s.dev.wel else true } ∧
      (s.opcodeFrame 0x06).draws = s.draws :=
  (Sent.sendOpcode s _).close_latch_dev decodeFrame_writeEnable (.inl ⟨rfl, rfl⟩)

theorem State.writeDisableFrame (s : State) :
    (s.opcodeFrame 0x04).dev =
        { s.dev.ticks 46 with
          frame := [], heardBusy := (s.dev.ticks 2).busy, wel := if (s.dev.ticks 44).busy then s.dev.wel else false } ∧
      (s.opcodeFrame 0x04).draws = s.draws :=
  (Sent.sendOpcode s _).close_latch_dev decodeFrame_writeDisable (.inr ⟨rfl, rfl⟩)

theorem Sent.program_accepted {s u : State} {a : Addr} {v : Byte} (h : Sent s u ([0x02] ++ addrBytes a ++ [v]))
    (hb : (s.dev.ticks 204).busy = false) (hw : s.dev.wel = true) (hr : a.toNat < Config.flashSize) :
    u.deselect.dev =
        Dev.ticks
          { s.dev.ticks 204 with
            frame := [], heardBusy := (s.dev.ticks 2).busy, mem := s.dev.mem.set a.toNat (programFn (s.dev.read a.toNat) v)
            busy := true, left := s.draws.latency.1 } 2 ∧
      u.deselect.draws = s.draws.latency.2 := by
  have hbusy : u.tick.dev.busy = false := by rw [h.accepts_busy]; exact hb
  have ha : u.tick.dev.accepts (.program a v) = true := by simp only [Dev.accepts, hbusy, h.tick_wel, hw]; rfl
  obtain ⟨h1, h2⟩ := h.close_accepted_dev (decodeFrame_program a v) ha
  have hd : u.tick.draws = s.draws := h.draws
  rw [State.carryOut_program u.tick hr v] at h1 h2
  refine ⟨h1.trans ?_, h2.trans (by simp only [State.startBusy, hd])⟩
  have hm : u.tick.dev.mem = s.dev.mem := by rw [h.tick_dev_eq, Dev.ticks_mem]
  simp only [State.startBusy, hd, Dev.read_congr hm, hm]
  have ht := h.tick_dev_eq
  rw [show ([0x02] ++ addrBytes a ++ [v] : List Byte).length = 5 from rfl] at ht
  simp only [Nat.reduceMul, Nat.reduceAdd] at ht
  rw [ht]

theorem Sent.erase_accepted {s u : State} {a : Addr} (h : Sent s u ([0xD8] ++ addrBytes a))
    (hb : (s.dev.ticks 164).busy = false) (hw : s.dev.wel = true) (hr : a.toNat < Config.flashSize) :
    u.deselect.dev =
        Dev.ticks
          { s.dev.ticks 164 with
            frame := [], heardBusy := (s.dev.ticks 2).busy, mem := s.dev.mem.erase (blockBase s.params a.toNat) s.params.blockSize
            busy := true, left := s.draws.latency.1 } 2 ∧
      u.deselect.draws = s.draws.latency.2 := by
  have hbusy : u.tick.dev.busy = false := by rw [h.accepts_busy]; exact hb
  have ha : u.tick.dev.accepts (.erase a) = true := by simp only [Dev.accepts, hbusy, h.tick_wel, hw]; rfl
  obtain ⟨h1, h2⟩ := h.close_accepted_dev (decodeFrame_erase a) ha
  have hd : u.tick.draws = s.draws := h.draws
  rw [State.carryOut_erase u.tick hr] at h1 h2
  refine ⟨h1.trans ?_, h2.trans (by simp only [State.startBusy, hd])⟩
  have ht := h.tick_dev_eq
  rw [show ([0xD8] ++ addrBytes a : List Byte).length = 4 from rfl] at ht
  simp only [Nat.reduceMul, Nat.reduceAdd] at ht
  have hp : u.tick.params = s.params := h.run.params
  simp only [State.startBusy, ht, hd, hp, Dev.ticks_mem]

theorem Sent.writeStatus_accepted {s u : State} {v : Byte} (h : Sent s u [0x01, v]) (hb : (s.dev.ticks 84).busy = false)
    (hw : s.dev.wel = true) :
    u.deselect.dev =
        Dev.ticks
          { s.dev.ticks 84 with
            frame := [], heardBusy := (s.dev.ticks 2).busy, srx := Config.freeSrxAfterWrite v s.draws.count
            busy := true, left := (Draws.latency { s.draws with count := s.draws.count + 1 }).1 } 2 ∧
      u.deselect.draws = (Draws.latency { s.draws with count := s.draws.count + 1 }).2 := by
  have hbusy : u.tick.dev.busy = false := by rw [h.accepts_busy]; exact hb
  have ha : u.tick.dev.accepts (.writeStatus v) = true := by simp only [Dev.accepts, hbusy, h.tick_wel, hw]; rfl
  obtain ⟨h1, h2⟩ := h.close_accepted_dev (decodeFrame_writeStatus v) ha
  have hd : u.tick.draws = s.draws := h.draws
  refine ⟨h1.trans ?_, h2.trans (by simp only [State.carryOut, State.startBusy, hd])⟩
  simp only [State.carryOut, State.startBusy, hd, h.tick_dev_eq]
  rfl

/-! ### The frames of the commands -/

theorem Sent.programFrame (s : State) (a : Addr) (v : Byte) :
    Sent s (((((s.select.sendOpcode 0x02).sendAddress a).setPhase .dataPhase)).sendByte v) ([0x02] ++ addrBytes a ++ [v]) :=
  (((Sent.sendOpcode s 0x02).sendAddress (by decide) a).setPhase _).sendByte (by simp [addrBytes]) v

theorem Sent.eraseFrame (s : State) (a : Addr) :
    Sent s ((s.select.sendOpcode 0xD8).sendAddress a) ([0xD8] ++ addrBytes a) :=
  (Sent.sendOpcode s 0xD8).sendAddress (by decide) a

theorem Sent.writeStatusFrame (s : State) (v : Byte) :
    Sent s (((s.select.sendOpcode 0x01).setPhase .dataPhase).sendByte v) [0x01, v] :=
  ((Sent.sendOpcode s 0x01).setPhase _).sendByte (by decide) v

/-- The status frame leaves DEV as it was but for the clock and the status byte it answered (20_memory.md R74). -/
theorem State.statusFrame_dev_eq (s : State) :
    s.statusFrame.dev =
        { s.dev.ticks 86 with frame := [], heardBusy := (s.dev.ticks 2).busy, status := s.statusFrame.st } ∧
      s.statusFrame.draws = (s.draws.srx s.dev.srx).2 := by
  have hdr := s.statusFrame_dev.2.2.2.2
  refine ⟨?_, hdr⟩
  have h := (Sent.sendOpcode s 0x05).setPhase .dataPhase
  obtain ⟨u, hu⟩ : ∃ u, u = (s.select.sendOpcode 0x05).setPhase .dataPhase := ⟨_, rfl⟩
  rw [← hu] at h
  obtain ⟨-, hd, hw⟩ := State.receiveByte_status h.cs h.frame
  obtain ⟨t, ht⟩ : ∃ t : State, t = { u.receiveByte with st := u.receiveByte.sr } := ⟨_, rfl⟩
  have htd : t.dev = u.receiveByte.dev := by rw [ht]
  have hf : frameOfBits t.tick.dev.frame = some .readStatus := by
    rw [State.tick_dev, Dev.tick_frame, htd, hd]
    exact frameOfBits_bytes (decodeFrame_readStatus _)
  have hc := State.commit_of_frame hf
  have ha : t.tick.dev.accepts .readStatus = false := rfl
  simp only [ha, Bool.false_eq_true, if_false] at hc
  have e : s.statusFrame = t.deselect := by rw [ht, hu, State.statusFrame]
  have hst : s.statusFrame.st = u.receiveByte.sr := by rw [e, State.deselect_st, ht]
  rw [hst, e, State.deselect_dev, hc]
  have k2 := Dev.ticks_withHeard (s.dev.ticks 43) (bitsOfBytes [0x05]) (s.dev.ticks 2).busy 40
  rw [Dev.ticks_ticks] at k2
  have hue := h.dev_eq
  simp only [List.length_singleton, Nat.mul_one, Nat.reduceAdd] at hue
  rw [← hue] at k2
  have k3 : t.dev = { s.dev.ticks 83 with
      frame := bitsOfBytes ([0x05] ++ [heldByte u.di]), heardBusy := (s.dev.ticks 2).busy, status := u.receiveByte.sr } := by
    rw [htd, hd, k2]
  have k4 := Dev.ticks_with (s.dev.ticks 83) (bitsOfBytes ([0x05] ++ [heldByte u.di])) u.receiveByte.sr (s.dev.ticks 2).busy 1
  have k5 := Dev.ticks_with (s.dev.ticks 84) [] u.receiveByte.sr (s.dev.ticks 2).busy 2
  rw [Dev.ticks_ticks] at k4 k5
  have k6 : t.tick.dev = { s.dev.ticks 84 with
      frame := bitsOfBytes ([0x05] ++ [heldByte u.di]), heardBusy := (s.dev.ticks 2).busy, status := u.receiveByte.sr } := by
    rw [State.tick_dev, k3]
    exact k4
  simp only [Nat.reduceAdd] at k5
  rw [k6, k5]

end Sys2Proof.Machine
end

