-- ==== Sys2Proof/Laws/ReadFrame.lean ====
section
/-! SUPPORT. The read frame (42_data_commands.md R170, 20_memory.md R79): what it leaves for any device, and the bytes of the array
where DEV answers. -/

namespace Sys2Proof.Machine

theorem State.receiveBits_quiet {s : State} (hc : s.cs = false) (hl : 9 ≤ s.dev.frame.length) (n : Nat) :
    (s.receiveBits n).dev = { s.dev.ticks (5 * n) with frame := s.dev.frame ++ List.replicate n s.di } := by
  induction n generalizing s with
  | zero => simp [State.receiveBits]
  | succ n ih =>
    have h := State.receiveBit_quiet hc (fun k => by have := k.1; omega)
    have k := ih (s := s.receiveBit) (by simpa using hc) (by rw [h]; simp; omega)
    rw [State.receiveBits, k, h, Dev.ticks_withFrame, Dev.ticks_ticks, State.receiveBit_di, List.append_assoc]
    simp [List.replicate_succ, show 5 + 5 * n = 5 * (n + 1) by omega]

/-- A byte received behind at least two bytes: DEV clocks in eight times the level DI keeps. -/
theorem State.receiveByte_quiet {s : State} {vs : List Byte} (hc : s.cs = false) (hf : s.dev.frame = bitsOfBytes vs)
    (hl : 2 ≤ vs.length) : s.receiveByte.dev = { s.dev.ticks 40 with frame := bitsOfBytes (vs ++ [heldByte s.di]) } := by
  have h8 : (bitsOfBytes vs).length = 8 * vs.length := bitsOfBytes_length vs
  have h := State.receiveBits_quiet (s := { s with bitcnt := 8 }) hc (by show 9 ≤ s.dev.frame.length; rw [hf]; omega) 8
  rw [State.receiveByte, h]
  simp [hf, bitsOfBytes, heldByte_bits]

theorem State.receiveTurns_dev {s : State} {vs : List Byte} (hc : s.cs = false) (hf : s.dev.frame = bitsOfBytes vs)
    (hl : 2 ≤ vs.length) (n : Nat) :
    (s.receiveTurns n).dev =
      { s.dev.ticks (40 * n) with frame := bitsOfBytes (vs ++ List.replicate n (heldByte s.di)) } := by
  induction n generalizing s vs with
  | zero => rw [State.receiveTurns_zero]; simp [← hf]
  | succ n ih =>
    have h := State.receiveByte_quiet hc hf hl
    have hd : s.receiveInto.dev = s.receiveByte.dev := rfl
    have k := ih (s := s.receiveInto) (vs := vs ++ [heldByte s.di]) (by rw [s.receiveInto_eq]; exact hc) (by rw [hd, h])
      (by simp; omega)
    have hdi : s.receiveInto.di = s.di := by rw [s.receiveInto_eq]
    rw [State.receiveTurns_succ, k, hd, h, Dev.ticks_withFrame, Dev.ticks_ticks, hdi]
    simp [List.replicate_succ, show 40 + 40 * n = 40 * (n + 1) by omega]

/-- The bytes of an answered read (20_memory.md R79). -/
def Dev.bytes (d : Dev) (a : Nat) (n : Nat) : List Byte := (List.range n).map fun j => d.read (a + j)

theorem Dev.bytes_succ (d : Dev) (a n : Nat) : d.bytes a (n + 1) = d.read a :: d.bytes (a + 1) n := by
  simp [Dev.bytes, List.range_succ_eq_map, Function.comp_def, Nat.add_assoc, Nat.add_comm 1]

theorem Dev.bytes_congr {d e : Dev} (h : d.mem = e.mem) (a n : Nat) : d.bytes a n = e.bytes a n := by
  simp only [Dev.bytes, Dev.read_congr h]

/-- `n` bytes of a read that DEV answers. -/
theorem State.receiveTurns_answered {s : State} {a : Addr} {more : List Byte} (hc : s.cs = false)
    (hf : s.dev.frame = bitsOfBytes ([0x03] ++ addrBytes a ++ more)) (hb : s.dev.heardBusy = false) (n : Nat)
    (hr : a.toNat + more.length + n ≤ Config.flashSize) (hn : s.idx.toNat + n < 2 ^ 16) :
    Received s (s.receiveTurns n) (s.dev.bytes (a.toNat + more.length) n) ∧ (s.receiveTurns n).draws = s.draws := by
  induction n generalizing s more with
  | zero => exact ⟨.refl s, rfl⟩
  | succ n ih =>
    obtain ⟨h1, h2, h3⟩ := State.receiveByte_responds hc hf (by simp) (by simp [addrBytes])
      (Dev.responds_read s.params hb (by omega))
    have hi : s.receiveInto.idx.toNat = s.idx.toNat + 1 := by
      rw [s.receiveInto_eq]
      simp [BitVec.toNat_add]
      omega
    have hd : s.receiveInto.dev = s.receiveByte.dev := rfl
    obtain ⟨k1, k2⟩ := ih (s := s.receiveInto) (more := more ++ [heldByte s.di]) (by rw [s.receiveInto_eq]; exact hc)
      (by rw [hd, h2]; simp) (by rw [hd, h2]; simpa using hb) (by simp; omega) (by omega)
    have hm : s.receiveInto.dev.mem = s.dev.mem := by rw [hd, h2]; simp
    have hl : (more ++ [heldByte s.di]).length = more.length + 1 := by simp
    rw [hl, Dev.bytes_congr hm] at k1
    rw [Dev.bytes_succ]
    have hlen : (s.dev.bytes (a.toNat + (more.length + 1)) n).length = n := by simp [Dev.bytes]
    have k3 := k1.step (by rw [hlen]; omega)
    rw [h1] at k3
    refine ⟨k3, k2.trans ?_⟩
    rw [← h3]
    rfl

/-- A frame with its opcode, its address and its received bytes, before it is closed. -/
def State.readBody (s : State) (a : Addr) (n : Nat) : State :=
  let t := (s.select.sendOpcode 0x03).sendAddress a
  (if 0 < n then t.setPhase .dataPhase else t).receiveBytes n

theorem State.readFrame_eq (s : State) (a : Addr) (n : Nat) : s.readFrame a n = (s.readBody a n).deselect := rfl

/-- The state a read frame is in before its first byte is received. -/
def State.readOpen (s : State) (a : Addr) (n : Nat) : State :=
  let t := (s.select.sendOpcode 0x03).sendAddress a
  { (if 0 < n then t.setPhase .dataPhase else t) with idx := 0 }

theorem State.readOpen_eq (s : State) (a : Addr) (n : Nat) :
    s.readOpen a n = { s with
      cs := false, sck := false, di := (a.extractLsb' 0 8).getLsbD 0, sr := 0, bitcnt := 0, idx := 0
      ph := if 0 < n then .dataPhase else .addressSent
      trace := s.trace ++ selectEvents s.params ++ sendEvents 0x03 ++ addressEvents a
      dev := { s.dev.ticks 163 with frame := bitsOfBytes ([0x03] ++ addrBytes a), heardBusy := (s.dev.ticks 2).busy } } := by
  have h := (Sent.sendOpcode s 0x03).sendAddress (by decide) a
  obtain ⟨u, hu⟩ : ∃ u, u = (s.select.sendOpcode 0x03).sendAddress a := ⟨_, rfl⟩
  have hd := h.dev_eq
  rw [show ([0x03] ++ addrBytes a : List Byte).length = 4 from rfl] at hd
  simp only [Nat.reduceMul, Nat.reduceAdd] at hd
  have he := h.run.eq
  have h1 : u.cs = false := by simp [hu]
  have h2 : u.sck = false := by simp [hu]
  have h3 : u.di = (a.extractLsb' 0 8).getLsbD 0 := by simp only [hu, State.sendAddress_di]
  have h4 : u.sr = 0 := by simp [hu]
  have h5 : u.bitcnt = 0 := by simp [hu]
  have h6 : u.st = s.st := by simp [hu]
  have h7 : u.ph = .addressSent := by simp [hu]
  have h8 : u.trace = s.trace ++ selectEvents s.params ++ sendEvents 0x03 ++ addressEvents a := by simp [hu]
  have h9 : u.draws = s.draws := by rw [hu]; exact h.draws
  rw [← hu] at hd he
  simp only [State.readOpen, ← hu]
  split
  · simp only [State.setPhase]
    rw [he, hd, h1, h2, h3, h4, h5, h6, h8, h9]
  · rw [he, hd, h1, h2, h3, h4, h5, h6, h7, h8, h9]

/-- The read frame, for any device: some `n` bytes are received into the buffer; DEV keeps all but the clock (42_data_commands.md
R170, 20_memory.md R68, R79). -/
theorem State.readFrame_run (s : State) (a : Addr) (n : Nat) (hn : n < 2 ^ 16) (rs : List Byte) (hl : rs.length = n)
    (h : Received (s.readOpen a n) ((s.readOpen a n).receiveTurns n) rs) :
    s.readFrame a n = { s with
        cs := true, sck := false, di := (a.extractLsb' 0 8).getLsbD 0, sr := (0 :: rs).getLast (by simp), bitcnt := 0, ph := .idle
        trace := s.trace ++ readFrameEvents s.params a rs
        idx := BitVec.ofNat 16 n, bufs := bufferFill s.bufs s.bufRef 0 rs
        dev := { s.dev.ticks (166 + 40 * n) with frame := [], heardBusy := (s.dev.ticks 2).busy }
        draws := ((s.readOpen a n).receiveTurns n).draws } := by
  obtain ⟨u, hu⟩ : ∃ u, u = s.readOpen a n := ⟨_, rfl⟩
  have hue : u = s.readOpen a n := hu
  obtain ⟨t, ht⟩ : ∃ t, t = u.receiveTurns n := ⟨_, rfl⟩
  rw [← hu] at h
  have hdev := State.receiveTurns_dev (s := u) (vs := [0x03] ++ addrBytes a) (by rw [hue, s.readOpen_eq]) (by rw [hue, s.readOpen_eq])
    (by simp [addrBytes]) n
  have e : s.readFrame a n = t.deselect := by rw [ht, hu]; rfl
  have hf : frameOfBits t.tick.dev.frame = some (.read a (BitVec.ofNat 16 n)) := by
    rw [State.tick_dev, Dev.tick_frame, ht, hdev]
    refine frameOfBits_bytes ?_
    have := decodeFrame_read a (List.replicate n (heldByte u.di)) (by simpa using hn)
    simpa using this
  have hcm := State.commit_of_frame hf
  have ha : t.tick.dev.accepts (.read a (BitVec.ofNat 16 n)) = false := rfl
  simp only [ha, Bool.false_eq_true, if_false] at hcm
  have hdd : t.deselect.dev = { s.dev.ticks (166 + 40 * n) with frame := [], heardBusy := (s.dev.ticks 2).busy } := by
    rw [State.deselect_dev, hcm, State.tick_dev, ht, hdev]
    have hud : u.dev = { s.dev.ticks 163 with
        frame := bitsOfBytes ([0x03] ++ addrBytes a), heardBusy := (s.dev.ticks 2).busy } := by rw [hue, s.readOpen_eq]
    have k1 := Dev.ticks_withHeard (s.dev.ticks 163) (bitsOfBytes ([0x03] ++ addrBytes a)) (s.dev.ticks 2).busy (40 * n)
    have k2 := Dev.ticks_withHeard (s.dev.ticks (163 + 40 * n))
      (bitsOfBytes ([0x03] ++ addrBytes a ++ List.replicate n (heldByte u.di))) (s.dev.ticks 2).busy 1
    have k3 := Dev.ticks_withHeard (s.dev.ticks (163 + 40 * n + 1)) [] (s.dev.ticks 2).busy 2
    rw [Dev.ticks_ticks] at k1 k2 k3
    rw [hud, k1]
    rw [show 166 + 40 * n = 163 + 40 * n + 1 + 2 by omega, ← k3]
    exact congrArg (fun d : Dev => Dev.ticks { d with frame := [] } 2) k2
  have hdr : t.deselect.draws = t.draws := by rw [State.deselect_draws, hcm]; rfl
  have hte : t = _ := (ht.trans h.eq)
  have hsck : t.sck = false := by rw [ht]; exact h.sck (by rw [hue, s.readOpen_eq])
  have hsr : t.sr = (0 :: rs).getLast (by simp) := by
    rw [ht, h.sr]
    have : u.sr = 0 := by rw [hue, s.readOpen_eq]
    simp only [this]
  have hbc : t.bitcnt = 0 := by
    rw [ht]
    by_cases hr : rs = []
    · rw [h.bitcntNil hr, hue, s.readOpen_eq]
    · exact h.bitcnt hr
  have hrun := (BusRun.refl (s := t)).deselect.eq
  simp only [State.deselect_cs, State.deselect_sck, State.deselect_di, State.deselect_sr, State.deselect_bitcnt, State.deselect_ph,
    State.deselect_st, State.deselect_trace] at hrun
  rw [e, hrun, hdd, hdr, hsr, hbc]
  rw [← hue, ← ht]
  have f1 : t.di = (a.extractLsb' 0 8).getLsbD 0 := by rw [hte]; show u.di = _; rw [hue, s.readOpen_eq]
  have f2 : t.trace = s.trace ++ selectEvents s.params ++ sendEvents 0x03 ++ addressEvents a ++ rs.flatMap receiveEvents := by
    rw [hte]; show u.trace ++ _ = _; rw [hue, s.readOpen_eq]
  rw [f1, f2]
  have f3 : t.params = s.params := by rw [hte]; show u.params = _; rw [hue, s.readOpen_eq]
  rw [f3, hte, hl]
  have hz : (0 : Len) + BitVec.ofNat 16 n = BitVec.ofNat 16 n := by simp
  rw [hue, s.readOpen_eq]
  simp [readFrameEvents]

end Sys2Proof.Machine
end

