-- ==== Sys2Proof/Laws/DevRun.lean ====
section
/-! SUPPORT. What any instruction but `disable` can do to DEV: a chain of events (`DevRun`). From it: the array keeps its form, and a
dead device keeps everything (20_memory.md R82). -/

namespace Sys2Proof.Machine

/-- `t` is reached from `s` by line events and by writes that leave DEV alone. -/
inductive DevRun (s : State) : State → Prop
  | refl : DevRun s s
  | drive {t : State} (h : DevRun s t) (l : Line) (v : Bool) : DevRun s (t.drive l v)
  | tick {t : State} (h : DevRun s t) : DevRun s t.tick
  | keep {t u : State} (h : DevRun s t) (hd : u.dev = t.dev) : DevRun s u

theorem BusRun.devRun {s t : State} (h : BusRun s t) : DevRun s t := by
  induction h with
  | refl => exact .refl
  | drive _ l v ih => exact ih.drive l v
  | delayShort _ ih => exact ih.tick.keep rfl
  | delayUs _ n ih => exact ih.tick.keep rfl
  | afterSample _ ih => exact ih.tick.keep (by rw [State.afterSample_dev]; rfl)
  | regs _ a b c d ih => exact ih.keep rfl

theorem DevRun.trans {s t u : State} (h : DevRun s t) (k : DevRun t u) : DevRun s u := by
  induction k with
  | refl => exact h
  | drive _ l v ih => exact ih.drive l v
  | tick _ ih => exact ih.tick
  | keep _ hd ih => exact ih.keep hd

theorem DevRun.bus {s t u : State} (h : DevRun s t) (k : BusRun t u) : DevRun s u := h.trans k.devRun

theorem DevRun.finish {s t : State} (h : DevRun s t) (e : Err) (r : Option Byte) : DevRun s (t.finish e r) := h.keep rfl
theorem DevRun.raise {s t : State} (h : DevRun s t) (e : Err) : DevRun s (t.raise e) := h.keep rfl
theorem DevRun.start {s t : State} (h : DevRun s t) (o : Op) : DevRun s (t.start o) := h.keep rfl
theorem DevRun.setPhase {s t : State} (h : DevRun s t) (p : Phase) : DevRun s (t.setPhase p) := h.keep rfl
theorem DevRun.startPolls {s t : State} (h : DevRun s t) : DevRun s t.startPolls := h.keep rfl
theorem DevRun.nextByte {s t : State} (h : DevRun s t) : DevRun s t.nextByte := h.keep rfl
theorem DevRun.takeByte {s t : State} (h : DevRun s t) : DevRun s t.takeByte := h.keep rfl
theorem DevRun.waitDone {s t : State} (h : DevRun s t) : DevRun s t.waitDone := h.keep rfl
theorem DevRun.counted {s t : State} (h : DevRun s t) (n : Nat) : DevRun s { t with pollcnt := n } := h.keep rfl

theorem DevRun.turns {s : State} {body : State → State} (hb : ∀ t, DevRun t (body t)) :
    ∀ (n : Nat) {t : State}, DevRun s t → DevRun s (turns body n t)
  | 0, _, h => h
  | n + 1, t, h => DevRun.turns hb n (h.trans (hb t))

theorem State.receiveInto_devRun (s : State) : DevRun s s.receiveInto :=
  (BusRun.refl.receiveByte).devRun.keep rfl

theorem State.receiveTurns_devRun (s : State) (n : Nat) : DevRun s (s.receiveTurns n) :=
  DevRun.turns State.receiveInto_devRun n .refl

/-! ### Commands -/

theorem State.readFrame_devRun (s : State) (a : Addr) (n : Nat) : DevRun s (s.readFrame a n) := by
  have h1 : DevRun s (s.readOpen a n) := by
    have h := (((BusRun.refl (s := s)).select.sendOpcode 0x03).sendAddress a).devRun
    refine h.keep ?_
    simp only [State.readOpen]
    generalize (s.select.sendOpcode 0x03).sendAddress a = t
    split <;> rfl
  rw [State.readFrame_eq]
  exact (h1.trans (State.receiveTurns_devRun (s.readOpen a n) n)).bus (BusRun.refl.deselect)

theorem State.rawSample_devRun (s : State) : DevRun s s.rawSample := (BusRun.refl.afterSample).devRun.counted _

theorem State.rawPoll_devRun (s : State) : DevRun s s.rawPoll.2 := by
  simp only [State.rawPoll]
  split
  · exact s.rawSample_devRun
  · exact s.rawSample_devRun.bus (BusRun.refl.deselect)

theorem State.statusPoll_devRun (s : State) : DevRun s s.statusPoll.2 :=
  (BusRun.refl.statusFrame).devRun.counted _

theorem State.openRawPoll_devRun (s : State) : DevRun s s.openRawPoll :=
  (((BusRun.refl.select).sendOpcode _).setPhase _).devRun.startPolls

theorem DevRun.afterPoll {s : State} {rest : State → State} (hr : ∀ t, DevRun s t → DevRun s (rest t)) {p : Poll × State}
    (h : DevRun s p.2) : DevRun s (afterPoll rest p) := by
  obtain ⟨_ | _ | _, t⟩ := p
  · exact hr t h
  · exact h
  · exact h.raise _

theorem DevRun.closing {s t : State} (h : DevRun s t) : DevRun s t.closing := (h.bus (BusRun.refl.opcodeFrame 0x04)).finish _ _

theorem DevRun.completionWait {s t : State} (h : DevRun s t) (mode : WaitMode) :
    DevRun s (t.completionWait mode State.closing) := by
  cases mode
  · exact h.closing
  · exact DevRun.afterPoll (fun _ k => k.closing) ((h.trans t.openRawPoll_devRun).trans (State.rawPoll_devRun _))
  · exact DevRun.afterPoll (fun _ k => k.closing) (h.startPolls.trans (State.statusPoll_devRun _))

theorem DevRun.continueWait {s t : State} (h : DevRun s t) (mode : WaitMode) :
    DevRun s (t.continueWait mode State.closing) := by
  cases mode
  · exact h.closing
  · exact DevRun.afterPoll (fun _ k => k.closing) (h.trans (State.rawPoll_devRun _))
  · exact DevRun.afterPoll (fun _ k => k.closing) (h.trans (State.statusPoll_devRun _))

theorem DevRun.blockByte {s t : State} (h : DevRun s t) : DevRun s t.blockByte :=
  (h.takeByte.bus ((BusRun.refl.programFrames _ _).delayUs _)).startPolls

theorem DevRun.blockLoop {s : State} (k : Nat) : ∀ {t : State}, DevRun s t → DevRun s (State.blockLoop k t) := by
  induction k with
  | zero => exact fun h => h.closing
  | succ k ih =>
    intro t h
    rw [State.blockLoop]
    split
    · exact DevRun.afterPoll (fun u hu => ih (t := u.nextByte) hu.nextByte) (h.blockByte.trans (State.statusPoll_devRun _))
    · exact h.takeByte.raise _

/-! ### What follows from it -/

theorem runUnless_next {b : Option Refusal} {t u : State} (h : runUnless b t = .next u) : b = none ∧ u = t := by
  cases b with
  | none => exact ⟨rfl, by simpa [runUnless] using h.symm⟩
  | some r => simp [runUnless] at h

/-- Every instruction but `disable` reaches DEV by events alone. -/
theorem exec_devRun {i : Instr} {s t : State} (hi : i ≠ .disable) (h : exec i s = .next t) : DevRun s t := by
  cases i with
  | select =>
    obtain ⟨-, rfl⟩ := runUnless_next h
    exact ((DevRun.refl (s := s)).keep (u := s.start .select) rfl |>.bus BusRun.refl.select).finish _ _
  | deselect =>
    obtain ⟨-, rfl⟩ := runUnless_next h
    exact ((DevRun.refl (s := s)).keep (u := s.start .deselect) rfl |>.bus BusRun.refl.deselect).finish _ _
  | sendByte v =>
    obtain ⟨-, rfl⟩ := runUnless_next h
    exact (((DevRun.refl (s := s)).start .sendByte |>.bus (BusRun.refl.sendByte v)).setPhase _).finish _ _
  | receiveByte =>
    obtain ⟨-, rfl⟩ := runUnless_next h
    exact (((DevRun.refl (s := s)).start .receiveByte |>.bus BusRun.refl.receiveByte).setPhase _).finish _ _
  | receiveBytes n r =>
    simp only [exec, execReceiveBytes] at h
    obtain ⟨u, hu⟩ : ∃ u, u = (State.receiveBytes { s.start .receiveBytes with bufRef := some r } n.toNat) := ⟨_, rfl⟩
    have k : DevRun s u := by
      rw [hu]
      exact ((DevRun.refl (s := s)).keep (u := { s.start .receiveBytes with bufRef := some r, idx := 0 }) rfl).trans
        (State.receiveTurns_devRun _ _)
    rw [← hu] at h
    split at h
    · obtain ⟨-, rfl⟩ := runUnless_next h
      exact k.finish _ _
    · obtain ⟨-, rfl⟩ := runUnless_next h
      exact (k.setPhase _).finish _ _
  | init =>
    obtain ⟨-, rfl⟩ := runUnless_next h
    exact (DevRun.refl (s := s)).tick.keep rfl
  | disable => exact absurd rfl hi
  | readStatus =>
    obtain ⟨-, rfl⟩ := runUnless_next h
    exact ((DevRun.refl (s := s)).keep (u := s.start .readStatus) rfl |>.bus BusRun.refl.statusFrame).finish _ _
  | waitUntilReady =>
    obtain ⟨-, rfl⟩ := runUnless_next h
    exact DevRun.afterPoll (rest := State.waitDone) (fun _ k => k.waitDone)
      (((DevRun.refl (s := s)).keep (u := s.start .waitUntilReady) rfl).trans (State.openRawPoll_devRun _) |>.trans
        (State.rawPoll_devRun _))
  | writeEnable =>
    obtain ⟨-, rfl⟩ := runUnless_next h
    exact ((DevRun.refl (s := s)).keep (u := s.start .writeEnable) rfl |>.bus (BusRun.refl.opcodeFrame _)).finish _ _
  | writeDisable =>
    obtain ⟨-, rfl⟩ := runUnless_next h
    exact ((DevRun.refl (s := s)).keep (u := s.start .writeDisable) rfl |>.bus (BusRun.refl.opcodeFrame _)).finish _ _
  | readBlock a n r =>
    obtain ⟨-, rfl⟩ := runUnless_next h
    split
    · exact (((DevRun.refl (s := s)).keep (u := { s.start .readBlock with addr := a, len := n, bufRef := some r }) rfl).trans
        (State.readFrame_devRun _ _ _)).finish _ _
    · exact DevRun.refl.keep rfl
  | writeByte a v =>
    obtain ⟨-, rfl⟩ := runUnless_next h
    split
    · exact (((DevRun.refl (s := s)).keep (u := { s.start .writeByte with addr := a, val := v }) rfl).bus
        (BusRun.refl.programFrames _ _)).finish _ _
    · exact DevRun.refl.keep rfl
  | writeStatus v =>
    obtain ⟨-, rfl⟩ := runUnless_next h
    exact DevRun.completionWait (((DevRun.refl (s := s)).keep (u := { s.start .writeStatus with val := v }) rfl).bus
      ((BusRun.refl.opcodeFrame _).dataFrame _ _)) _
  | eraseBlock a =>
    obtain ⟨-, rfl⟩ := runUnless_next h
    split
    · exact DevRun.completionWait (((DevRun.refl (s := s)).keep (u := { s.start .eraseBlock with addr := a }) rfl).bus
        ((BusRun.refl.opcodeFrame _).addressFrame _ _)) _
    · exact DevRun.refl.keep rfl
  | writeBlock a r n =>
    obtain ⟨-, rfl⟩ := runUnless_next h
    split
    · exact DevRun.blockLoop _ (DevRun.refl.keep rfl)
    · exact DevRun.refl.keep rfl

theorem resume_devRun {op : Op} {s t : State} (h : s.resume op = .next t) : DevRun s t := by
  cases op <;> simp only [State.resume, Host.Outcome.next.injEq, reduceCtorEq] at h
  · subst h
    exact DevRun.afterPoll (rest := State.waitDone) (fun _ k => k.waitDone) s.rawPoll_devRun
  · subst h
    exact DevRun.refl.continueWait _
  · subst h
    exact DevRun.refl.continueWait _
  · subst h
    exact DevRun.afterPoll (rest := State.blockGoesOn) (fun u k => DevRun.blockLoop _ k.nextByte) s.statusPoll_devRun

theorem State.carryOut_wf {s : State} (h : s.dev.mem.wf) (c : FrameCmd) : (s.carryOut c).dev.mem.wf := by
  cases c with
  | program a d => exact Dev.wf_programmed h (fun _ hx => Draws.target_lt hx) d
  | erase a => exact Dev.wf_erased h s.params fun _ hx => Draws.target_lt hx
  | _ => exact h

theorem State.commit_wf {s : State} (h : s.dev.mem.wf) : s.commit.dev.mem.wf := by
  simp only [State.commit]
  split
  · exact h
  · split
    · exact State.carryOut_wf h _
    · exact h

/-- Every event keeps the canonical form of the array. -/
theorem DevRun.wf {s t : State} (h : DevRun s t) (hw : s.dev.mem.wf) : t.dev.mem.wf := by
  induction h with
  | refl => exact hw
  | @drive t _ l v ih =>
    cases l <;> cases v
    · simpa using ih
    · rw [(State.drive_cs_high t).1]
      exact State.commit_wf (by simpa using ih)
    · simpa using ih
    · cases hc : t.cs
      · have := (State.drive_sck_high_clocked hc).mem
        rw [this]; exact ih
      · have : (t.drive .sck true).dev = t.dev.tick := by simp [State.drive, State.react, hc]
        rw [this, Dev.tick_mem]; exact ih
    · simpa using ih
    · simpa using ih
  | tick _ ih => simpa using ih
  | keep _ hd ih => rw [hd]; exact ih

/-- What a dead device keeps for ever (20_memory.md R82). -/
structure Dev.Same (d e : Dev) : Prop where
  mem : e.mem = d.mem
  wel : e.wel = d.wel
  srx : e.srx = d.srx
  dead : e.Dead

theorem Dev.tick_dead {d : Dev} (h : d.Dead) : d.tick = d := Dev.ticks_dead h 1

theorem Dev.accepts_busy {d : Dev} (h : d.busy = true) (c : FrameCmd) : d.accepts c = false := by cases c <;> simp [Dev.accepts, h]

theorem State.commit_busy {s : State} (h : s.dev.busy = true) : s.commit.dev = { s.dev with frame := [] } := by
  simp only [State.commit]
  split
  · rfl
  · rw [if_neg (by simp [Dev.accepts_busy h])]

/-- A dead device ignores everything on the bus (20_memory.md R82, R84). -/
theorem DevRun.dead {s t : State} (h : DevRun s t) (hd : s.dev.Dead) : s.dev.Same t.dev := by
  induction h with
  | refl => exact ⟨rfl, rfl, rfl, hd⟩
  | @drive t _ l v ih =>
    obtain ⟨h1, h2, h3, h4⟩ := ih
    cases l <;> cases v
    · rw [State.drive_cs_low_dev, Dev.tick_dead h4]; exact ⟨h1, h2, h3, h4⟩
    · rw [(State.drive_cs_high t).1, State.commit_busy (by rw [State.tick_dev, Dev.tick_dead h4]; exact h4.1), State.tick_dev,
        Dev.tick_dead h4]
      exact ⟨h1, h2, h3, h4⟩
    · rw [State.drive_sck_low_dev, Dev.tick_dead h4]; exact ⟨h1, h2, h3, h4⟩
    · cases hc : t.cs
      · have k := State.drive_sck_high_clocked hc
        have kc := k.clock
        rw [Dev.ticks_dead h4] at kc
        exact ⟨k.mem.trans h1, k.wel.trans h2, k.srx.trans h3, kc.1.trans h4.1, kc.2.trans h4.2⟩
      · have : (t.drive .sck true).dev = t.dev.tick := by simp [State.drive, State.react, hc]
        rw [this, Dev.tick_dead h4]; exact ⟨h1, h2, h3, h4⟩
    · rw [State.drive_di_dev, Dev.tick_dead h4]; exact ⟨h1, h2, h3, h4⟩
    · rw [State.drive_di_dev, Dev.tick_dead h4]; exact ⟨h1, h2, h3, h4⟩
  | tick _ ih => rw [State.tick_dev, Dev.tick_dead ih.dead]; exact ih
  | keep _ hk ih => rw [hk]; exact ih

end Sys2Proof.Machine
end

