-- ==== Sys2Proof/Laws/Waits.lean ====
section
/-! SUPPORT. One poll of each kind, exactly (41_basic_commands.md R151, 43_composite_commands.md R194). -/

namespace Sys2Proof.Machine

/-! ### The status frame and the status poll -/

/-- The byte a status frame that begins in this state answers (10_state.md R39, 20_memory.md R74). -/
def State.statusNow (s : State) : Byte := statusByte s.params (s.dev.ticks 44).busy s.dev.wel (s.draws.srx s.dev.srx).1

theorem State.statusFrame_eq (s : State) :
    s.statusFrame = { s with
      cs := true, sck := false, di := true, sr := s.statusNow, bitcnt := 0, ph := .idle, st := s.statusNow
      trace := s.trace ++ statusFrameEvents s.params s.statusNow
      dev := { s.dev.ticks 86 with frame := [], heardBusy := (s.dev.ticks 2).busy, status := s.statusNow }
      draws := (s.draws.srx s.dev.srx).2 } := by
  have h := (BusRun.refl (s := s)).statusFrame.eq
  have hd := s.statusFrame_dev_eq
  have hs : s.statusFrame.st = s.statusNow := s.statusFrame_st
  have hr : s.statusFrame.sr = s.statusNow := s.statusFrame_sr.trans hs
  rw [hs] at hd
  simp only [State.statusFrame_cs, State.statusFrame_sck, State.statusFrame_di, State.statusFrame_bitcnt, State.statusFrame_ph,
    State.statusFrame_trace, hs, hr, hd.1, hd.2] at h
  exact h

/-- Bit 0 of the status byte is BUSY (10_state.md R39). -/
@[simp] theorem busyBit_statusByte (p : Params) (b w : Bool) (x : Byte) : busyBit (statusByte p b w x) = b := by
  have hw : p.welBit = p.welIndex.val + 1 := rfl
  simp only [busyBit, statusByte, hw]
  cases b <;> cases w <;> simp

/-- Bit WEL_BIT of the status byte is the latch (10_state.md R39). -/
@[simp] theorem welBit_statusByte (p : Params) (b w : Bool) (x : Byte) : (statusByte p b w x).getLsbD p.welBit = w := by
  have hw : p.welBit = p.welIndex.val + 1 := rfl
  have h7 := p.welIndex.isLt
  have h8 : p.welBit < 8 := by omega
  have h0 : p.welBit ≠ 0 := by omega
  cases b <;> cases w <;> simp [statusByte, h8, h0]

/-- The other bits are the draw (10_state.md R39). -/
theorem drawnBit_statusByte (p : Params) (b w : Bool) (x : Byte) (i : Nat) (h0 : i ≠ 0) (hi : i ≠ p.welBit) :
    (statusByte p b w x).getLsbD i = x.getLsbD i := by
  by_cases h8 : i < 8
  · by_cases hl : i < p.welBit
    · cases b <;> cases w <;> simp [statusByte, h8, h0, hl]
    · have h1 : ¬ i - p.welBit = 0 := by omega
      cases b <;> cases w <;> simp [statusByte, h8, h0, hl, h1]
  · simp [BitVec.getLsbD_of_ge _ _ (by omega : 8 ≤ i)]

@[simp] theorem State.busyBit_statusNow (s : State) : busyBit s.statusNow = (s.dev.ticks 44).busy := busyBit_statusByte _ _ _ _

theorem State.statusPoll_eq (s : State) :
    s.statusPoll =
      ((if (s.dev.ticks 44).busy = false then .ready else if limitReached s.params (s.pollcnt + 1) then .timedOut else .busy),
        { s.statusFrame with pollcnt := s.pollcnt + 1 }) := by
  have h1 : s.statusFrame.st = s.statusNow := s.statusFrame_st
  have h2 : s.statusFrame.pollcnt = s.pollcnt := by simp
  have h3 : s.statusFrame.params = s.params := by simp
  simp only [State.statusPoll, State.statusSample, State.judge, h1, h2, h3, State.busyBit_statusNow, Bool.not_eq_true']

/-! ### The raw poll -/

theorem State.openRawPoll_eq (s : State) :
    s.openRawPoll = { s with
      cs := false, sck := false, di := true, sr := 0, bitcnt := 0, ph := .dataPhase, pollcnt := 0
      trace := s.trace ++ selectEvents s.params ++ sendEvents 0x05
      dev := { s.dev.ticks 43 with frame := bitsOfByte 0x05, heardBusy := (s.dev.ticks 2).busy } } := by
  have h := (Sent.sendOpcode s 0x05).setPhase .dataPhase
  have he := h.run.eq
  have hd := h.dev_eq
  have hw := h.draws
  simp only [List.length_singleton, Nat.mul_one, Nat.reduceAdd] at hd
  have hb : bitsOfBytes [0x05] = bitsOfByte 0x05 := by simp [bitsOfBytes]
  rw [hb] at hd
  obtain ⟨u, hu⟩ : ∃ u, u = (s.select.sendOpcode 0x05).setPhase .dataPhase := ⟨_, rfl⟩
  have h1 : u.cs = false := by simp [hu]
  have h2 : u.sck = false := by simp [hu]
  have h3 : u.di = true := by rw [hu]; simp
  have h4 : u.sr = 0 := by simp [hu]
  have h5 : u.bitcnt = 0 := by simp [hu]
  have h6 : u.st = s.st := by simp [hu]
  have h7 : u.ph = .dataPhase := by simp [hu]
  have h8 : u.trace = s.trace ++ selectEvents s.params ++ sendEvents 0x05 := by simp [hu]
  rw [← hu] at he hd hw
  simp only [State.openRawPoll, State.startPolls, ← hu]
  rw [he, hd, hw, h1, h2, h3, h4, h5, h6, h7, h8]

/-- The free values after the sample of a raw poll. -/
def State.rawDraws (s : State) : Draws := if s.params.rawPollShowsBusy then s.draws else s.draws.level.2

/-- The level the sample of a raw poll reads: BUSY under the premise of 20_memory.md R75, else a draw. -/
def State.rawLevel (s : State) : Bool :=
  if s.params.rawPollShowsBusy then rawPollLevel s.params s.dev.tick.busy else s.draws.level.1

theorem State.doLevel_raw {s : State} (hc : s.cs = false) (hk : s.sck = false) (hf : s.dev.frame = bitsOfByte 0x05) :
    s.doLevel = if s.params.rawPollShowsBusy then some (rawPollLevel s.params s.dev.busy) else none := by
  have hl : (bitsOfByte 0x05).length = 8 := rfl
  have hb : frameByte (bitsOfByte 0x05) 0 = 0x05 := by
    have := frameByte_bits_cons_zero 0x05 []
    simpa [bitsOfBytes] using this
  simp only [State.doLevel, hc, hk, hf, hl, hb]
  simp

theorem State.rawSample_eq {s : State} (hc : s.cs = false) (hk : s.sck = false) (hf : s.dev.frame = bitsOfByte 0x05) :
    s.sampled = s.rawLevel ∧
      s.rawSample = { s with
        pollcnt := s.pollcnt + 1, trace := s.trace ++ [.sample s.rawLevel], dev := s.dev.tick, draws := s.rawDraws } := by
  have h := State.doLevel_raw (s := s.tick) hc hk (by rw [State.tick_dev, Dev.tick_frame, hf])
  have e := s.afterSample_eq
  simp only [State.tick_params, State.tick_dev] at h
  cases hp : s.params.rawPollShowsBusy
  · simp only [hp, Bool.false_eq_true, if_false] at h
    have hs := State.sampled_of_draw h
    have hd := State.afterSample_draws_of_draw h
    rw [hs, hd] at e
    refine ⟨by rw [hs]; simp [State.rawLevel, hp], ?_⟩
    rw [State.rawSample, e]
    simp [State.rawLevel, State.rawDraws, hp]
  · simp only [hp, if_true] at h
    have hs := State.sampled_of_level h
    have hd := State.afterSample_draws_of_level h
    rw [hs, hd] at e
    refine ⟨by rw [hs]; simp [State.rawLevel, hp], ?_⟩
    rw [State.rawSample, e]
    simp [State.rawLevel, State.rawDraws, hp]

/-- A raw poll's frame is closed and DEV makes nothing of it (20_memory.md R72, R75). -/
theorem State.deselect_rawPoll {s : State} (hf : s.dev.frame = bitsOfByte 0x05) :
    s.deselect = { s with
      cs := true, sck := false, ph := .idle, trace := s.trace ++ deselectEvents s.params
      dev := { s.dev.ticks 3 with frame := [] } } := by
  have hfr : frameOfBits s.tick.dev.frame = some .rawPoll := by
    rw [State.tick_dev, Dev.tick_frame, hf]
    have := frameOfBits_bytes decodeFrame_rawPoll
    simpa [bitsOfBytes] using this
  have hcm := State.commit_of_frame hfr
  have ha : s.tick.dev.accepts .rawPoll = false := rfl
  simp only [ha, Bool.false_eq_true, if_false] at hcm
  have h := (BusRun.refl (s := s)).deselect.eq
  have hd : s.deselect.dev = { s.dev.ticks 3 with frame := [] } := by
    rw [State.deselect_dev, hcm]
    exact Dev.ticks_withFrame s.dev.tick [] 2
  have hw : s.deselect.draws = s.draws := by rw [State.deselect_draws, hcm]; rfl
  simp only [State.deselect_cs, State.deselect_sck, State.deselect_di, State.deselect_sr, State.deselect_bitcnt, State.deselect_ph,
    State.deselect_st, State.deselect_trace, hd, hw] at h
  exact h

/-- What a poll with this outcome means for the wait. -/
def State.verdict (s : State) (ready : Bool) : Poll :=
  if ready then .ready else if limitReached s.params (s.pollcnt + 1) then .timedOut else .busy

/-- One raw poll, exactly (41_basic_commands.md R151). -/
theorem State.rawPoll_eq {s : State} (hc : s.cs = false) (hk : s.sck = false) (hf : s.dev.frame = bitsOfByte 0x05) :
    s.rawPoll =
      (s.verdict (s.rawLevel == s.params.readyLevel),
        match s.verdict (s.rawLevel == s.params.readyLevel) with
        | .busy => { s with
            pollcnt := s.pollcnt + 1, trace := s.trace ++ [.sample s.rawLevel], dev := s.dev.tick, draws := s.rawDraws }
        | _ => { s with
            cs := true, sck := false, ph := .idle, pollcnt := s.pollcnt + 1
            trace := s.trace ++ [.sample s.rawLevel] ++ deselectEvents s.params
            dev := { s.dev.ticks 4 with frame := [] }, draws := s.rawDraws }) := by
  obtain ⟨h1, h2⟩ := State.rawSample_eq hc hk hf
  have hfr : s.rawSample.dev.frame = bitsOfByte 0x05 := by rw [h2]; simpa using hf
  have hj : s.rawSample.judge (showsReady s.params s.sampled) = s.verdict (s.rawLevel == s.params.readyLevel) := by
    rw [h1, h2]; rfl
  have hd : s.rawSample.deselect = { s with
      cs := true, sck := false, ph := .idle, pollcnt := s.pollcnt + 1
      trace := s.trace ++ [.sample s.rawLevel] ++ deselectEvents s.params
      dev := { s.dev.ticks 4 with frame := [] }, draws := s.rawDraws } := by
    rw [State.deselect_rawPoll hfr, h2]
    rfl
  simp only [State.rawPoll, hj]
  cases hv : s.verdict (s.rawLevel == s.params.readyLevel)
  · simp only [hd]
  · simp only [h2]
  · simp only [hd]

end Sys2Proof.Machine
end

