-- ==== Sys2Proof/Laws/Commands.lean ====
section
/-! SUPPORT. What a command can touch in SEQ (`CmdRun`), and what its frames make of DEV (20_memory.md R76 to R83). -/

namespace Sys2Proof.Machine

/-! ### The registers a command without a buffer to fill can touch -/

/-- From `s` to `t`, only the latches, the bit-banger, VAL, IDX, POLLCNT, ST, PH, the buffer reference, the result, the trace,
DEV and the free values change: DIR, ADDR, LEN, the buffers, the commands and the parameters stay. -/
def CmdRun (s t : State) : Prop :=
  t = { s with
    cs := t.cs, sck := t.sck, di := t.di, sr := t.sr, bitcnt := t.bitcnt, val := t.val, idx := t.idx, pollcnt := t.pollcnt
    st := t.st, err := t.err, ph := t.ph, opr := t.opr, bufRef := t.bufRef, ret := t.ret, dev := t.dev, trace := t.trace, draws := t.draws }

theorem CmdRun.refl (s : State) : CmdRun s s := rfl

theorem CmdRun.trans {s t u : State} (h : CmdRun s t) (k : CmdRun t u) : CmdRun s u := by
  unfold CmdRun at h k ⊢
  rw [k, h]

theorem BusRun.cmdRun {s t : State} (h : BusRun s t) : CmdRun s t := by
  have e := h.eq
  unfold CmdRun
  rw [e]

theorem CmdRun.bus {s t u : State} (h : CmdRun s t) (k : BusRun t u) : CmdRun s u := h.trans k.cmdRun
theorem CmdRun.finish {s t : State} (h : CmdRun s t) (e : Err) (r : Option Byte) : CmdRun s (t.finish e r) := h.trans rfl
theorem CmdRun.raise {s t : State} (h : CmdRun s t) (e : Err) : CmdRun s (t.raise e) := h.trans rfl
theorem CmdRun.start {s t : State} (h : CmdRun s t) (o : Op) : CmdRun s (t.start o) := h.trans rfl
theorem CmdRun.startPolls {s t : State} (h : CmdRun s t) : CmdRun s t.startPolls := h.trans rfl
theorem CmdRun.nextByte {s t : State} (h : CmdRun s t) : CmdRun s t.nextByte := h.trans rfl
theorem CmdRun.takeByte {s t : State} (h : CmdRun s t) : CmdRun s t.takeByte := h.trans rfl
theorem CmdRun.counted {s t : State} (h : CmdRun s t) (n : Nat) : CmdRun s { t with pollcnt := n } := h.trans rfl

theorem CmdRun.params {s t : State} (h : CmdRun s t) : t.params = s.params := by rw [h]
theorem CmdRun.dir {s t : State} (h : CmdRun s t) : t.dir = s.dir := by rw [h]
theorem CmdRun.bufs {s t : State} (h : CmdRun s t) : t.bufs = s.bufs := by rw [h]
theorem CmdRun.addr {s t : State} (h : CmdRun s t) : t.addr = s.addr := by rw [h]
theorem CmdRun.len {s t : State} (h : CmdRun s t) : t.len = s.len := by rw [h]

theorem State.rawPoll_cmdRun (s : State) : CmdRun s s.rawPoll.2 := by
  have h : CmdRun s s.rawSample := (BusRun.refl.afterSample).cmdRun.counted _
  simp only [State.rawPoll]
  split
  · exact h
  · exact h.bus BusRun.refl.deselect

theorem State.statusPoll_cmdRun (s : State) : CmdRun s s.statusPoll.2 := (BusRun.refl.statusFrame).cmdRun.counted _

theorem State.openRawPoll_cmdRun (s : State) : CmdRun s s.openRawPoll :=
  (((BusRun.refl.select).sendOpcode _).setPhase _).cmdRun.startPolls

theorem CmdRun.afterPoll {s : State} {rest : State → State} (hr : ∀ t, CmdRun s t → CmdRun s (rest t)) {p : Poll × State}
    (h : CmdRun s p.2) : CmdRun s (afterPoll rest p) := by
  obtain ⟨_ | _ | _, t⟩ := p
  · exact hr t h
  · exact h
  · exact h.raise _

theorem CmdRun.closing {s t : State} (h : CmdRun s t) : CmdRun s t.closing := (h.bus (BusRun.refl.opcodeFrame 0x04)).finish _ _

theorem CmdRun.completionWait {s t : State} (h : CmdRun s t) (mode : WaitMode) :
    CmdRun s (t.completionWait mode State.closing) := by
  cases mode
  · exact h.closing
  · exact CmdRun.afterPoll (fun _ k => k.closing) ((h.trans t.openRawPoll_cmdRun).trans (State.rawPoll_cmdRun _))
  · exact CmdRun.afterPoll (fun _ k => k.closing) (h.startPolls.trans (State.statusPoll_cmdRun _))

theorem CmdRun.continueWait {s t : State} (h : CmdRun s t) (mode : WaitMode) :
    CmdRun s (t.continueWait mode State.closing) := by
  cases mode
  · exact h.closing
  · exact CmdRun.afterPoll (fun _ k => k.closing) (h.trans (State.rawPoll_cmdRun _))
  · exact CmdRun.afterPoll (fun _ k => k.closing) (h.trans (State.statusPoll_cmdRun _))

theorem CmdRun.blockByte {s t : State} (h : CmdRun s t) : CmdRun s t.blockByte :=
  (h.takeByte.bus ((BusRun.refl.programFrames _ _).delayUs _)).startPolls

theorem CmdRun.blockLoop {s : State} (k : Nat) : ∀ {t : State}, CmdRun s t → CmdRun s (State.blockLoop k t) := by
  induction k with
  | zero => exact fun h => h.closing
  | succ k ih =>
    intro t h
    rw [State.blockLoop]
    split
    · exact CmdRun.afterPoll (fun u hu => ih (t := u.nextByte) hu.nextByte) (h.blockByte.trans (State.statusPoll_cmdRun _))
    · exact h.takeByte.raise _

/-- A command that waits, going on, touches nothing else (10_state.md R36). -/
theorem resume_cmdRun {op : Op} {s t : State} (h : s.resume op = .next t) : CmdRun s t := by
  cases op <;> simp only [State.resume, Host.Outcome.next.injEq, reduceCtorEq] at h
  · subst h
    exact CmdRun.afterPoll (rest := State.waitDone) (fun _ k => k.finish _ _) s.rawPoll_cmdRun
  · subst h
    exact (CmdRun.refl s).continueWait _
  · subst h
    exact (CmdRun.refl s).continueWait _
  · subst h
    exact CmdRun.afterPoll (rest := State.blockGoesOn) (fun u k => CmdRun.blockLoop _ k.nextByte) s.statusPoll_cmdRun

/-! ### The frames of a command, closed -/

/-- SEQ after a closed frame: only DEV and the free values remain to be said. -/
theorem State.opcodeFrame_eq (s : State) (b : Byte) :
    s.opcodeFrame b = { s with
      cs := true, sck := false, di := b.getLsbD 0, sr := 0, bitcnt := 0, ph := .idle
      trace := s.trace ++ opcodeFrameEvents s.params b, dev := (s.opcodeFrame b).dev, draws := (s.opcodeFrame b).draws } := by
  have h := (BusRun.refl (s := s)).opcodeFrame b |>.eq
  simpa using h

theorem State.dataFrame_eq (s : State) (b v : Byte) :
    s.dataFrame b v = { s with
      cs := true, sck := false, di := v.getLsbD 0, sr := 0, bitcnt := 0, ph := .idle
      trace := s.trace ++ dataFrameEvents s.params b v, dev := (s.dataFrame b v).dev, draws := (s.dataFrame b v).draws } := by
  have h := (BusRun.refl (s := s)).dataFrame b v |>.eq
  simpa using h

theorem State.addressFrame_eq (s : State) (b : Byte) (a : Addr) :
    s.addressFrame b a = { s with
      cs := true, sck := false, di := (a.extractLsb' 0 8).getLsbD 0, sr := 0, bitcnt := 0, ph := .idle
      trace := s.trace ++ addressFrameEvents s.params b a
      dev := (s.addressFrame b a).dev, draws := (s.addressFrame b a).draws } := by
  have h := (BusRun.refl (s := s)).addressFrame b a |>.eq
  simp only [State.addressFrame_cs, State.addressFrame_sck, State.addressFrame_di, State.addressFrame_sr, State.addressFrame_bitcnt,
    State.addressFrame_ph, State.addressFrame_st, State.addressFrame_trace] at h
  exact h

theorem State.programFrames_eq (s : State) (a : Addr) (v : Byte) :
    s.programFrames a v = { s with
      cs := true, sck := false, di := v.getLsbD 0, sr := 0, bitcnt := 0, ph := .idle
      trace := s.trace ++ programEvents s.params a v
      dev := (s.programFrames a v).dev, draws := (s.programFrames a v).draws } := by
  have h := (BusRun.refl (s := s)).programFrames a v |>.eq
  simpa using h

/-- A write-type frame in every case: accepted when it meets a ready DEV with the latch set, else ignored (20_memory.md R80, R82,
R83). -/
theorem State.programFrame_dev (s : State) (a : Addr) (v : Byte) (ha : a.toNat < Config.flashSize) :
    (s.addressDataFrame 0x02 a v).dev =
        (if (s.dev.ticks 204).busy = false ∧ s.dev.wel = true then
          Dev.ticks
            { s.dev.ticks 204 with
              frame := [], heardBusy := (s.dev.ticks 2).busy, mem := s.dev.mem.set a.toNat (programFn (s.dev.read a.toNat) v)
              busy := true, left := s.draws.latency.1 } 2
        else { s.dev.ticks 206 with frame := [], heardBusy := (s.dev.ticks 2).busy }) ∧
      (s.addressDataFrame 0x02 a v).draws =
        (if (s.dev.ticks 204).busy = false ∧ s.dev.wel = true then s.draws.latency.2 else s.draws) := by
  have h := Sent.programFrame s a v
  have hb := h.accepts_busy
  have hl : ([0x02] ++ addrBytes a ++ [v] : List Byte).length = 5 := rfl
  rw [hl] at hb
  by_cases hc : (s.dev.ticks 204).busy = false ∧ s.dev.wel = true
  · rw [if_pos hc, if_pos hc]
    exact h.program_accepted hc.1 hc.2 ha
  · rw [if_neg hc, if_neg hc]
    have k := h.close_ignored_dev (decodeFrame_program a v) (by
      simp only [Dev.accepts, hb, h.tick_wel]
      revert hc
      show ¬ ((s.dev.ticks 204).busy = false ∧ _) → (!(s.dev.ticks 204).busy && _) = false
      cases (s.dev.ticks 204).busy <;> cases s.dev.wel <;> simp)
    rw [hl] at k
    exact k

theorem State.eraseFrame_dev (s : State) (a : Addr) (ha : a.toNat < Config.flashSize) :
    (s.addressFrame 0xD8 a).dev =
        (if (s.dev.ticks 164).busy = false ∧ s.dev.wel = true then
          Dev.ticks
            { s.dev.ticks 164 with
              frame := [], heardBusy := (s.dev.ticks 2).busy, mem := s.dev.mem.erase (blockBase s.params a.toNat) s.params.blockSize
              busy := true, left := s.draws.latency.1 } 2
        else { s.dev.ticks 166 with frame := [], heardBusy := (s.dev.ticks 2).busy }) ∧
      (s.addressFrame 0xD8 a).draws =
        (if (s.dev.ticks 164).busy = false ∧ s.dev.wel = true then s.draws.latency.2 else s.draws) := by
  have h := Sent.eraseFrame s a
  have hb := h.accepts_busy
  have hl : ([0xD8] ++ addrBytes a : List Byte).length = 4 := rfl
  rw [hl] at hb
  by_cases hc : (s.dev.ticks 164).busy = false ∧ s.dev.wel = true
  · rw [if_pos hc, if_pos hc]
    exact h.erase_accepted hc.1 hc.2 ha
  · rw [if_neg hc, if_neg hc]
    have k := h.close_ignored_dev (decodeFrame_erase a) (by
      simp only [Dev.accepts, hb, h.tick_wel]
      revert hc
      show ¬ ((s.dev.ticks 164).busy = false ∧ _) → (!(s.dev.ticks 164).busy && _) = false
      cases (s.dev.ticks 164).busy <;> cases s.dev.wel <;> simp)
    rw [hl] at k
    exact k

theorem State.writeStatusFrame_dev (s : State) (v : Byte) :
    (s.dataFrame 0x01 v).dev =
        (if (s.dev.ticks 84).busy = false ∧ s.dev.wel = true then
          Dev.ticks
            { s.dev.ticks 84 with
              frame := [], heardBusy := (s.dev.ticks 2).busy, srx := Config.freeSrxAfterWrite v s.draws.count
              busy := true, left := (Draws.latency { s.draws with count := s.draws.count + 1 }).1 } 2
        else { s.dev.ticks 86 with frame := [], heardBusy := (s.dev.ticks 2).busy }) ∧
      (s.dataFrame 0x01 v).draws =
        (if (s.dev.ticks 84).busy = false ∧ s.dev.wel = true then
          (Draws.latency { s.draws with count := s.draws.count + 1 }).2 else s.draws) := by
  have h := Sent.writeStatusFrame s v
  have hb := h.accepts_busy
  have hl : ([0x01, v] : List Byte).length = 2 := rfl
  rw [hl] at hb
  by_cases hc : (s.dev.ticks 84).busy = false ∧ s.dev.wel = true
  · rw [if_pos hc, if_pos hc]
    exact h.writeStatus_accepted hc.1 hc.2
  · rw [if_neg hc, if_neg hc]
    have k := h.close_ignored_dev (decodeFrame_writeStatus v) (by
      simp only [Dev.accepts, hb, h.tick_wel]
      revert hc
      show ¬ ((s.dev.ticks 84).busy = false ∧ _) → (!(s.dev.ticks 84).busy && _) = false
      cases (s.dev.ticks 84).busy <;> cases s.dev.wel <;> simp)
    rw [hl] at k
    exact k

end Sys2Proof.Machine
end

