-- ==== Sys2Proof/Laws/Port.lean ====
section
/-! SUPPORT. The command port: reading back one operand, and what a presented command's check says (30_encoding.md R109). -/

namespace Sys2Proof

/-- An operand that is there and fits is read. -/
theorem Presented.field_ok {p : Presented} {o : Operand} {w : Nat} {v : BitVec w} (h : p.get o = some v.toNat) :
    p.field o w = .ok v := by
  simp only [Presented.field, h]
  rw [if_pos v.isLt]
  simp

/-- An operand that is read was there, and is the one written. -/
theorem Presented.get_of_field {p : Presented} {o : Operand} {w : Nat} {v : BitVec w} (h : p.field o w = .ok v) :
    p.get o = some v.toNat := by
  simp only [Presented.field] at h
  split at h
  · simp at h
  · rename_i n hn
    split at h
    · rename_i hl
      obtain rfl := by simpa using h
      rw [hn, BitVec.toNat_ofNat, Nat.mod_eq_of_lt hl]
    · simp at h

theorem Presented.field_ok_iff {p : Presented} {o : Operand} {w : Nat} {v : BitVec w} :
    p.field o w = .ok v ↔ p.get o = some v.toNat := ⟨Presented.get_of_field, Presented.field_ok⟩

theorem Presented.bufferRef_ok_iff {p : Presented} {r : BufRef} : p.bufferRef = .ok r ↔ p.buffer = some r := by
  simp only [Presented.bufferRef]
  cases p.buffer <;> simp

theorem bind_ok_iff {α β ε : Type} {x : Except ε α} {f : α → Except ε β} {b : β} :
    (x >>= f) = .ok b ↔ ∃ a, x = .ok a ∧ f a = .ok b := by
  cases x with
  | error e => simp [bind, Except.bind]
  | ok a => simp [bind, Except.bind]

theorem pure_ok_iff {α ε : Type} {a b : α} : (pure a : Except ε α) = .ok b ↔ a = b := by simp [pure, Except.pure]

/-- No operand is there that the operation does not take. -/
theorem Presented.extra_none_iff {p : Presented} :
    p.extra = none ↔ ∀ o, (p.get o).isSome = true → p.op.takes.contains o = true := by
  simp only [Presented.extra, List.find?_eq_none, Bool.and_eq_true, Bool.not_eq_true', not_and, Bool.not_eq_false]
  constructor
  · intro h o
    cases o <;> exact h _ (by simp)
  · intro h o _
    exact h o

end Sys2Proof
end

