-- ==== Sys2Proof/Laws/Start.lean ====
section
/-! SUPPORT. When a command is taken and when it is refused: the blocks of Machine/Ops.lean (10_state.md R36, 70_reset_and_hazards.md
R242, R246, R247, R251). -/

namespace Sys2Proof.Machine

theorem blockCommand_accepts {s : State} (h : s.Accepts) : s.blockCommand = none := by
  obtain ⟨h1, h2, h3⟩ := h
  simp [State.blockCommand, h1, h2, h3]

theorem blockInit_idle {s : State} (h1 : s.opr = none) (h2 : s.ph = .idle) : s.blockInit = none := by
  simp [State.blockInit, h1, h2]

theorem blockCommand_none_iff {s : State} : s.blockCommand = none ↔ s.Accepts := by
  refine ⟨fun h => ?_, blockCommand_accepts⟩
  simp only [State.blockCommand] at h
  split at h
  · simp at h
  · rename_i ho
    split at h
    · simp at h
    · rename_i hd
      split at h
      · simp at h
      · rename_i hp
        exact ⟨by simpa using ho, by cases hx : s.dir <;> simp_all, by simpa using hp⟩

theorem blockInit_none_iff {s : State} : s.blockInit = none ↔ s.opr = none ∧ s.ph = .idle := by
  refine ⟨fun h => ?_, fun h => blockInit_idle h.1 h.2⟩
  simp only [State.blockInit] at h
  split at h
  · simp at h
  · rename_i ho
    split at h
    · simp at h
    · rename_i hp
      exact ⟨by simpa using ho, by simpa using hp⟩

theorem blockInFrame_none_iff {s : State} :
    s.blockInFrame = none ↔ s.opr = none ∧ s.dir = .master ∧ s.ph ≠ .idle ∧ s.ph ≠ .deselected := by
  constructor
  · intro h
    simp only [State.blockInFrame] at h
    split at h
    · simp at h
    · rename_i ho
      split at h
      · simp at h
      · rename_i hd
        split at h
        · simp at h
        · rename_i hp
          exact ⟨by simpa using ho, by cases hx : s.dir <;> simp_all, fun e => hp (.inl e), fun e => hp (.inr e)⟩
  · rintro ⟨h1, h2, h3, h4⟩
    simp [State.blockInFrame, h1, h2, h3, h4]

theorem blockInFrame_idle {s : State} (h1 : s.opr = none) (h2 : s.dir = .master) (h3 : s.ph = .idle) :
    s.blockInFrame = some .noFrameOpen := by simp [State.blockInFrame, h1, h2, h3]

theorem blockInFrame_inFrame {s : State} (h : s.InFrame) : s.blockInFrame = none ∧ s.blockClock = none := by
  obtain ⟨h1, h2, h3, h4, h5, h6⟩ := h
  simp [State.blockInFrame, State.blockClock, h1, h2, h3, h4, h6]

theorem blockCommand_released {s : State} (h1 : s.opr = none) (h2 : s.dir = .released) :
    s.blockCommand = some .busReleased ∧ s.blockInFrame = some .busReleased := by
  simp [State.blockCommand, State.blockInFrame, h1, h2]

theorem block_frameOpen {s : State} (h1 : s.opr = none) (h2 : s.dir = .master) (h3 : s.ph ≠ .idle) :
    s.blockCommand = some .frameOpen ∧ s.blockInit = some .frameOpen := by
  simp [State.blockCommand, State.blockInit, h1, h2, h3]

theorem block_running {s : State} {op : Op} (h : s.opr = some op) :
    s.blockCommand = some .commandRunning ∧ s.blockInit = some .commandRunning ∧ s.blockInFrame = some .commandRunning := by
  simp [State.blockCommand, State.blockInit, State.blockInFrame, h]

/-- The buffer check of the three commands that use a buffer (70_reset_and_hazards.md R251). -/
theorem blockBuffer_eq {s : State} {i : Instr} {r : BufRef} {n : Nat} (h : i.bufferUse = some (r, n)) :
    s.blockBuffer i = if n ≤ bufferRoom s.bufs r then none else some .bufferTooShort := by
  have hw : i.wellFormed s.bufs = decide (n ≤ bufferRoom s.bufs r) := by simp only [Instr.wellFormed, h]
  simp only [State.blockBuffer, hw, decide_eq_true_eq]

theorem blockBuffer_room {s : State} {a : Addr} {n : Len} {r : BufRef} (h : n.toNat ≤ bufferRoom s.bufs r) :
    s.blockBuffer (.readBlock a n r) = none ∧ s.blockBuffer (.writeBlock a r n) = none ∧
      s.blockBuffer (.receiveBytes n r) = none := by
  refine ⟨?_, ?_, ?_⟩ <;> (rw [blockBuffer_eq rfl]; exact if_pos h)

theorem blockBuffer_short {s : State} {a : Addr} {n : Len} {r : BufRef} (h : bufferRoom s.bufs r < n.toNat) :
    s.blockBuffer (.readBlock a n r) = some .bufferTooShort ∧ s.blockBuffer (.writeBlock a r n) = some .bufferTooShort ∧
      s.blockBuffer (.receiveBytes n r) = some .bufferTooShort := by
  refine ⟨?_, ?_, ?_⟩ <;> (rw [blockBuffer_eq rfl]; exact if_neg (by omega))

/-- A run, one step on. -/
theorem Host_run_next (M : Host.Core) {s u : M.State} (n : Nat) (h : M.step s = .next u) : M.run (n + 1) s = M.run n u := by
  simp only [Host.Core.run, h]

theorem core_run_next {s u : State} {r : Result} (n : Nat) (h : step s = .next u) (k : core.run n u = r) : core.run (n + 1) s = r :=
  (Host_run_next core n h).trans k

theorem inRange_iff {a : Addr} {n : Nat} :
    inRange a n = true ↔ a.toNat < Config.flashSize ∧ a.toNat + n ≤ Config.flashSize := by simp [inRange]

theorem inRange_false {a : Addr} {n : Nat} (h : Config.flashSize ≤ a.toNat ∨ Config.flashSize < a.toNat + n) :
    inRange a n = false := by
  rw [Bool.eq_false_iff]
  intro e
  rw [inRange_iff] at e
  omega

/-- What ends with no command running. -/
theorem limitReached_iff {p : Params} {n : Nat} : limitReached p n = true ↔ ∃ l, p.pollLimit = some l ∧ l ≤ n := by
  simp only [limitReached]
  cases p.pollLimit <;> simp

end Sys2Proof.Machine
end

