-- ==== Sys2Proof/Laws/Writes.lean ====
section
/-! SUPPORT. The WriteEnable frame and the frame it is for, together (42_data_commands.md R171, 43_composite_commands.md R190, R191),
for any device. -/

namespace Sys2Proof.Machine

theorem Dev.ticks_withLatch (d : Dev) (f : List Bool) (h w : Bool) (n : Nat) :
    Dev.ticks { d with frame := f, heardBusy := h, wel := w } n = { d.ticks n with frame := f, heardBusy := h, wel := w } := by
  have k := Dev.ticks_withWel { d with heardBusy := h } w f n
  have j := Dev.ticks_withHeard d d.frame h n
  rw [j] at k
  simpa using k

/-- The latch after a WriteEnable frame (20_memory.md R76, R82). -/
def Dev.latchAfterEnable (d : Dev) : Bool := if (d.ticks 44).busy then d.wel else true

/-- DEV after a WriteEnable frame. -/
def Dev.enabled (d : Dev) : Dev := { d.ticks 46 with frame := [], heardBusy := (d.ticks 2).busy, wel := d.latchAfterEnable }

theorem State.enableFrame_dev (s : State) : (s.opcodeFrame 0x06).dev = s.dev.enabled ∧ (s.opcodeFrame 0x06).draws = s.draws :=
  s.writeEnableFrame

theorem Dev.enabled_ticks (d : Dev) (n : Nat) :
    d.enabled.ticks n =
      { d.ticks (46 + n) with frame := [], heardBusy := (d.ticks 2).busy, wel := d.latchAfterEnable } := by
  have h := Dev.ticks_withLatch (d.ticks 46) [] (d.ticks 2).busy d.latchAfterEnable n
  rw [Dev.ticks_ticks] at h
  exact h

@[simp] theorem Dev.enabled_mem (d : Dev) : d.enabled.mem = d.mem := by simp [Dev.enabled]
@[simp] theorem Dev.enabled_srx (d : Dev) : d.enabled.srx = d.srx := by simp [Dev.enabled]
@[simp] theorem Dev.enabled_wel (d : Dev) : d.enabled.wel = d.latchAfterEnable := by simp only [Dev.enabled]
@[simp] theorem Dev.enabled_read (d : Dev) (a : Nat) : d.enabled.read a = d.read a := Dev.read_congr (by simp) a
theorem Dev.enabled_busy (d : Dev) (n : Nat) : (d.enabled.ticks n).busy = (d.ticks (46 + n)).busy := by rw [Dev.enabled_ticks]

/-- A ready DEV takes the WriteEnable frame. -/
theorem Dev.enabled_ready {d : Dev} (h : d.busy = false) : d.enabled = { d with frame := [], heardBusy := false, wel := true } := by
  simp only [Dev.enabled, Dev.latchAfterEnable, Dev.ticks_ready h, h, Bool.false_eq_true, if_false]

theorem Dev.latchAfterEnable_ready {d : Dev} (h : d.busy = false) : d.latchAfterEnable = true := by
  simp only [Dev.latchAfterEnable, Dev.ticks_ready h, h, Bool.false_eq_true, if_false]

/-- DEV after WriteByte's two frames: the program frame is accepted or ignored (20_memory.md R80, R82, R83). -/
theorem State.programFrames_dev (s : State) (a : Addr) (v : Byte) (ha : a.toNat < Config.flashSize) :
    (s.programFrames a v).dev =
        (if (s.dev.ticks 250).busy = false ∧ s.dev.latchAfterEnable = true then
          Dev.ticks
            { s.dev.ticks 250 with
              frame := [], heardBusy := (s.dev.ticks 48).busy, wel := true
              mem := s.dev.mem.set a.toNat (programFn (s.dev.read a.toNat) v), busy := true, left := s.draws.latency.1 } 2
        else { s.dev.ticks 252 with frame := [], heardBusy := (s.dev.ticks 48).busy, wel := s.dev.latchAfterEnable }) ∧
      (s.programFrames a v).draws =
        (if (s.dev.ticks 250).busy = false ∧ s.dev.latchAfterEnable = true then s.draws.latency.2 else s.draws) := by
  have h := State.programFrame_dev (s.opcodeFrame 0x06) a v ha
  obtain ⟨hd, hw⟩ := s.enableFrame_dev
  rw [hd, hw, Dev.enabled_busy, Dev.enabled_busy, Dev.enabled_ticks, Dev.enabled_ticks, Dev.enabled_wel, Dev.enabled_mem,
    Dev.enabled_read] at h
  refine ⟨h.1.trans ?_, h.2⟩
  by_cases hc : (s.dev.ticks 250).busy = false ∧ s.dev.latchAfterEnable = true
  · rw [if_pos hc, if_pos hc, hc.2]
  · rw [if_neg hc, if_neg hc]

theorem State.eraseFrames_dev (s : State) (a : Addr) (ha : a.toNat < Config.flashSize) :
    ((s.opcodeFrame 0x06).addressFrame 0xD8 a).dev =
        (if (s.dev.ticks 210).busy = false ∧ s.dev.latchAfterEnable = true then
          Dev.ticks
            { s.dev.ticks 210 with
              frame := [], heardBusy := (s.dev.ticks 48).busy, wel := true
              mem := s.dev.mem.erase (blockBase s.params a.toNat) s.params.blockSize, busy := true, left := s.draws.latency.1 } 2
        else { s.dev.ticks 212 with frame := [], heardBusy := (s.dev.ticks 48).busy, wel := s.dev.latchAfterEnable }) ∧
      ((s.opcodeFrame 0x06).addressFrame 0xD8 a).draws =
        (if (s.dev.ticks 210).busy = false ∧ s.dev.latchAfterEnable = true then s.draws.latency.2 else s.draws) := by
  have h := State.eraseFrame_dev (s.opcodeFrame 0x06) a ha
  obtain ⟨hd, hw⟩ := s.enableFrame_dev
  rw [(BusRun.refl.opcodeFrame (s := s) 0x06).params] at h
  rw [hd, hw, Dev.enabled_busy, Dev.enabled_busy, Dev.enabled_ticks, Dev.enabled_ticks, Dev.enabled_wel, Dev.enabled_mem] at h
  refine ⟨h.1.trans ?_, h.2⟩
  by_cases hc : (s.dev.ticks 210).busy = false ∧ s.dev.latchAfterEnable = true
  · rw [if_pos hc, if_pos hc, hc.2]
  · rw [if_neg hc, if_neg hc]

theorem State.writeStatusFrames_dev (s : State) (v : Byte) :
    ((s.opcodeFrame 0x06).dataFrame 0x01 v).dev =
        (if (s.dev.ticks 130).busy = false ∧ s.dev.latchAfterEnable = true then
          Dev.ticks
            { s.dev.ticks 130 with
              frame := [], heardBusy := (s.dev.ticks 48).busy, wel := true, srx := Config.freeSrxAfterWrite v s.draws.count
              busy := true, left := (Draws.latency { s.draws with count := s.draws.count + 1 }).1 } 2
        else { s.dev.ticks 132 with frame := [], heardBusy := (s.dev.ticks 48).busy, wel := s.dev.latchAfterEnable }) ∧
      ((s.opcodeFrame 0x06).dataFrame 0x01 v).draws =
        (if (s.dev.ticks 130).busy = false ∧ s.dev.latchAfterEnable = true then
          (Draws.latency { s.draws with count := s.draws.count + 1 }).2 else s.draws) := by
  have h := State.writeStatusFrame_dev (s.opcodeFrame 0x06) v
  obtain ⟨hd, hw⟩ := s.enableFrame_dev
  rw [hd, hw, Dev.enabled_busy, Dev.enabled_busy, Dev.enabled_ticks, Dev.enabled_ticks, Dev.enabled_wel] at h
  refine ⟨h.1.trans ?_, h.2⟩
  by_cases hc : (s.dev.ticks 130).busy = false ∧ s.dev.latchAfterEnable = true
  · rw [if_pos hc, if_pos hc, hc.2]
  · rw [if_neg hc, if_neg hc]

/-- A busy cycle that has just begun on a ready DEV with the latch set, `n` events later. -/
theorem Dev.ticks_write (d : Dev) (m : Memory) (x : Byte) (l : Option Nat) (n : Nat) :
    (Dev.ticks { d with frame := [], heardBusy := false, wel := true, mem := m, srx := x, busy := true, left := l } n).busy = stillBusy l n := by
  rw [Dev.ticks_busy]; rfl

/-! ### What the frames leave in the array -/

/-- WriteByte's frames change no byte but the one addressed. -/
theorem State.programFrames_read_other (s : State) (a : Addr) (v : Byte) (ha : a.toNat < Config.flashSize) (b : Nat) (hb : b ≠ a.toNat) :
    (s.programFrames a v).dev.read b = s.dev.read b := by
  rw [(s.programFrames_dev a v ha).1]
  split
  · rw [Dev.read_ticks]
    refine (Dev.read_set s.dev a.toNat b (programFn (s.dev.read a.toNat) v)).trans ?_
    rw [if_neg hb]
  · exact Dev.read_congr (by simp) b

/-- The erase frames change no byte outside the block (20_memory.md R65). -/
theorem State.eraseFrames_read_other (s : State) (a : Addr) (ha : a.toNat < Config.flashSize) (b : Nat)
    (hb : b / s.params.blockSize ≠ a.toNat / s.params.blockSize) : ((s.opcodeFrame 0x06).addressFrame 0xD8 a).dev.read b = s.dev.read b := by
  rw [(s.eraseFrames_dev a ha).1]
  split
  · rw [Dev.read_ticks]
    rw [Dev.read_congr (e := { s.dev with mem := s.dev.mem.erase (blockBase s.params a.toNat) s.params.blockSize }) (by simp), Dev.read_eraseBlock,
      if_neg hb]
  · exact Dev.read_congr (by simp) b

theorem State.writeStatusFrames_mem (s : State) (v : Byte) : ((s.opcodeFrame 0x06).dataFrame 0x01 v).dev.mem = s.dev.mem := by
  rw [(s.writeStatusFrames_dev v).1]
  split <;> simp

end Sys2Proof.Machine
end

