-- ==== Sys2Proof/Laws/Endings.lean ====
section
/-! SUPPORT. How a command ends: the closing WriteDisable frame and the waits keep the array, and the trace only grows
(43_composite_commands.md R193, R194; 00_scope.md R7). -/

namespace Sys2Proof.Machine

/-! ### The trace only grows -/

theorem BusRun.trace_prefix {s t : State} (h : BusRun s t) : s.trace <+: t.trace := by
  induction h with
  | refl => exact List.prefix_rfl
  | drive _ l v ih => exact ih.trans (by rw [State.drive_trace]; exact List.prefix_append _ _)
  | delayShort _ ih => exact ih.trans (by rw [State.delayShort_trace]; exact List.prefix_append _ _)
  | delayUs _ n ih => exact ih.trans (List.prefix_append _ _)
  | @afterSample t _ ih => exact ih.trans (by rw [State.afterSample_eq]; exact List.prefix_append _ _)
  | regs _ a b c d ih => exact ih

theorem State.rawPoll_prefix (s : State) : s.trace <+: s.rawPoll.2.trace := by
  have h : s.trace <+: s.rawSample.trace := (BusRun.refl.afterSample (s := s)).trace_prefix
  simp only [State.rawPoll]
  split
  · exact h
  · exact h.trans (BusRun.refl.deselect (s := s.rawSample)).trace_prefix

theorem State.statusPoll_prefix (s : State) : s.trace <+: s.statusPoll.2.trace := (BusRun.refl.statusFrame (s := s)).trace_prefix

theorem State.closing_prefix (s : State) : s.trace <+: s.closing.trace := (BusRun.refl.opcodeFrame (s := s) 0x04).trace_prefix

theorem State.openRawPoll_prefix (s : State) : s.trace <+: s.openRawPoll.trace := by
  rw [State.openRawPoll_eq, List.append_assoc]
  exact List.prefix_append _ _

theorem afterPoll_prefix {s : State} {rest : State → State} (hr : ∀ t, t.trace <+: (rest t).trace) {p : Poll × State}
    (h : s.trace <+: p.2.trace) : s.trace <+: (afterPoll rest p).trace := by
  obtain ⟨_ | _ | _, t⟩ := p
  · exact h.trans (hr t)
  · exact h
  · exact h

theorem State.completionWait_prefix (s : State) (mode : WaitMode) : s.trace <+: (s.completionWait mode State.closing).trace := by
  cases mode
  · exact s.closing_prefix
  · exact afterPoll_prefix State.closing_prefix (s.openRawPoll_prefix.trans s.openRawPoll.rawPoll_prefix)
  · exact afterPoll_prefix State.closing_prefix s.startPolls.statusPoll_prefix

theorem State.blockByte_trace (s : State) :
    s.blockByte.trace =
      s.trace ++ programEvents s.params (byteAddr s.addr s.idx) s.takeByte.val ++ [.delayUs s.params.tProgram] := by
  simp only [State.blockByte, State.startPolls_trace, State.delayUs_trace, State.programFrames_trace, State.takeByte_trace,
    State.takeByte_params]

theorem State.blockLoop_prefix (k : Nat) : ∀ s : State, s.trace <+: (State.blockLoop k s).trace := by
  induction k with
  | zero => exact State.closing_prefix
  | succ k ih =>
    intro s
    rw [State.blockLoop]
    split
    · refine afterPoll_prefix (fun t => ih t.nextByte) (List.IsPrefix.trans ?_ s.blockByte.statusPoll_prefix)
      rw [State.blockByte_trace, List.append_assoc]
      exact List.prefix_append _ _
    · exact List.prefix_rfl

/-! ### IDX and VAL are kept -/

theorem State.rawPoll_idx (s : State) : s.rawPoll.2.idx = s.idx ∧ s.rawPoll.2.val = s.val := by
  have h : s.rawSample.idx = s.idx ∧ s.rawSample.val = s.val :=
    ⟨(BusRun.refl.afterSample (s := s)).idx, (BusRun.refl.afterSample (s := s)).val⟩
  have k := BusRun.refl.deselect (s := s.rawSample)
  simp only [State.rawPoll]
  split
  · exact h
  · exact ⟨k.idx.trans h.1, k.val.trans h.2⟩

theorem State.statusPoll_idx (s : State) : s.statusPoll.2.idx = s.idx ∧ s.statusPoll.2.val = s.val := by
  have h := BusRun.refl.statusFrame (s := s)
  have hi := h.idx
  have hv := h.val
  rw [s.statusPoll_eq]
  generalize s.statusFrame = t at *
  exact ⟨hi, hv⟩

theorem State.openRawPoll_idx (s : State) : s.openRawPoll.idx = s.idx ∧ s.openRawPoll.val = s.val :=
  have h := ((BusRun.refl (s := s)).select.sendOpcode 0x05).setPhase .dataPhase
  ⟨h.idx, h.val⟩

theorem afterPoll_idx {rest : State → State} (hr : ∀ t, (rest t).idx = t.idx ∧ (rest t).val = t.val) (p : Poll × State) :
    (afterPoll rest p).idx = p.2.idx ∧ (afterPoll rest p).val = p.2.val := by
  obtain ⟨_ | _ | _, t⟩ := p
  · exact hr t
  · exact ⟨rfl, rfl⟩
  · exact ⟨rfl, rfl⟩

theorem State.closing_idx (s : State) : s.closing.idx = s.idx ∧ s.closing.val = s.val :=
  ⟨(BusRun.refl.opcodeFrame (s := s) 0x04).idx, (BusRun.refl.opcodeFrame (s := s) 0x04).val⟩

theorem State.completionWait_idx (s : State) (m : WaitMode) :
    (s.completionWait m State.closing).idx = s.idx ∧ (s.completionWait m State.closing).val = s.val := by
  cases m
  · exact s.closing_idx
  · have h := afterPoll_idx State.closing_idx s.openRawPoll.rawPoll
    have k := s.openRawPoll.rawPoll_idx
    have j := s.openRawPoll_idx
    exact ⟨(h.1.trans k.1).trans j.1, (h.2.trans k.2).trans j.2⟩
  · have h := afterPoll_idx State.closing_idx s.startPolls.statusPoll
    have k := s.startPolls.statusPoll_idx
    exact ⟨h.1.trans k.1, h.2.trans k.2⟩

/-! ### The array is kept -/

theorem State.statusPoll_mem (s : State) : s.statusPoll.2.dev.mem = s.dev.mem := by
  show s.statusFrame.dev.mem = _
  rw [s.statusFrame_eq]; simp

theorem State.closing_dev (s : State) :
    s.closing.dev =
      { s.dev.ticks 46 with
        frame := [], heardBusy := (s.dev.ticks 2).busy, wel := if (s.dev.ticks 44).busy then s.dev.wel else false } :=
  s.writeDisableFrame.1

theorem State.closing_mem (s : State) : s.closing.dev.mem = s.dev.mem := by rw [s.closing_dev]; simp

theorem State.openRawPoll_rawPoll_mem (s : State) : s.openRawPoll.rawPoll.2.dev.mem = s.dev.mem := by
  have e := s.openRawPoll_eq
  have h := State.rawPoll_eq (s := s.openRawPoll) (by rw [e]) (by rw [e]) (by rw [e])
  have hm : s.openRawPoll.dev.mem = s.dev.mem := by rw [e]; simp
  rw [h]
  generalize s.openRawPoll.verdict _ = v
  cases v <;> simp [hm]

theorem afterPoll_mem {rest : State → State} (hr : ∀ t, (rest t).dev.mem = t.dev.mem) (p : Poll × State) :
    (afterPoll rest p).dev.mem = p.2.dev.mem := by
  obtain ⟨_ | _ | _, t⟩ := p
  · exact hr t
  · rfl
  · rfl

theorem State.completionWait_mem (s : State) (mode : WaitMode) : (s.completionWait mode State.closing).dev.mem = s.dev.mem := by
  cases mode
  · exact s.closing_mem
  · exact (afterPoll_mem State.closing_mem _).trans s.openRawPoll_rawPoll_mem
  · exact (afterPoll_mem State.closing_mem _).trans s.startPolls.statusPoll_mem

/-- The closing frame and the end of the command, exactly. -/
theorem State.closing_eq (s : State) :
    s.closing = { s with
      cs := true, sck := false, di := false, sr := 0, bitcnt := 0, ph := .idle, opr := none, bufRef := none, err := .ok, ret := none
      trace := s.trace ++ opcodeFrameEvents s.params 0x04
      dev := { s.dev.ticks 46 with
        frame := [], heardBusy := (s.dev.ticks 2).busy, wel := if (s.dev.ticks 44).busy then s.dev.wel else false } } := by
  have h := s.opcodeFrame_eq 0x04
  rw [s.writeDisableFrame.1, s.writeDisableFrame.2] at h
  simp only [State.closing]
  rw [h]
  rfl

/-- A wait that its first poll ends well, exactly, by mode (43_composite_commands.md R193): DEV is ready when the poll is answered. -/
theorem State.completionWait_ready {s : State} (mode : WaitMode) (hr : (s.dev.ticks 44).busy = false)
    (hp : mode = .waitUntilReady → s.params.rawPollShowsBusy = true) :
    s.completionWait mode State.closing =
      State.closing
        (match mode with
          | .none => s
          | .waitUntilReady => { s with
              cs := true, sck := false, di := true, sr := 0, bitcnt := 0, ph := .idle, pollcnt := 1
              trace := s.trace ++ selectEvents s.params ++ sendEvents 0x05 ++ [.sample s.params.readyLevel] ++
                deselectEvents s.params
              dev := { s.dev.ticks 47 with frame := [], heardBusy := (s.dev.ticks 2).busy } }
          | .pollStatus => { s.statusFrame with pollcnt := 1 }) := by
  cases mode
  · rfl
  · have e := s.openRawPoll_eq
    have h := State.rawPoll_eq (s := s.openRawPoll) (by rw [e]) (by rw [e]) (by rw [e])
    have hd : s.openRawPoll.dev.tick = { s.dev.ticks 44 with frame := bitsOfByte 0x05, heardBusy := (s.dev.ticks 2).busy } := by
      have k := Dev.ticks_withHeard (s.dev.ticks 43) (bitsOfByte 0x05) (s.dev.ticks 2).busy 1
      rw [Dev.ticks_ticks] at k
      rw [e]; exact k
    have hd4 : s.openRawPoll.dev.ticks 4 =
        { s.dev.ticks 47 with frame := bitsOfByte 0x05, heardBusy := (s.dev.ticks 2).busy } := by
      have k := Dev.ticks_withHeard (s.dev.ticks 43) (bitsOfByte 0x05) (s.dev.ticks 2).busy 4
      rw [Dev.ticks_ticks] at k
      rw [e]; exact k
    have hpar : s.openRawPoll.params = s.params := by rw [e]
    have hl : s.openRawPoll.rawLevel = s.params.readyLevel := by
      rw [State.rawLevel, hpar, hp rfl, hd]
      simp [rawPollLevel, hr]
    have hw : s.openRawPoll.rawDraws = s.draws := by
      rw [State.rawDraws, hpar, hp rfl, e]
      rfl
    have hv : s.openRawPoll.verdict (s.openRawPoll.rawLevel == s.openRawPoll.params.readyLevel) = .ready := by
      simp [State.verdict, hl, hpar]
    rw [hv] at h
    simp only [hd4, hl, hw] at h
    show afterPoll State.closing s.openRawPoll.rawPoll = _
    rw [h]
    show State.closing _ = State.closing _
    rw [e]
  · have h := s.startPolls.statusPoll_eq
    have hb : (s.startPolls.dev.ticks 44).busy = false := hr
    rw [if_pos hb] at h
    simp only [State.completionWait, h, afterPoll]
    have e1 := s.startPolls.statusFrame_eq
    have e2 := s.statusFrame_eq
    have hn : s.startPolls.statusNow = s.statusNow := rfl
    rw [e1, e2, hn]
    rfl

/-- The command that such a wait belongs to, ended: OK behind its WriteDisable, DEV ready, the latch clear (43_composite_commands.md
R190, R191, R193). -/
theorem State.completionWait_completes {x : State} (mode : WaitMode) (hr : (x.dev.ticks 44).busy = false)
    (hp : mode = .waitUntilReady → x.params.rawPollShowsBusy = true) :
    ∃ d w,
      x.completionWait mode State.closing = { x with
        cs := true, sck := false, di := false, sr := 0, bitcnt := 0, ph := .idle, opr := none, bufRef := none, err := .ok, ret := none
        pollcnt := if mode = .none then x.pollcnt else 1, st := if mode = .pollStatus then x.statusNow else x.st
        trace := x.trace ++ waitEvents x.params x.statusNow mode ++
          opcodeFrameEvents x.params 0x04
        dev := d, draws := w } ∧
      d.busy = false ∧ d.wel = false ∧ d.srx = x.dev.srx ∧ d.mem = x.dev.mem := by
  have later : ∀ n, (x.dev.ticks (44 + n)).busy = false := fun n => by
    rw [← Dev.ticks_ticks]; exact Dev.ticks_busy_mono hr
  rw [State.completionWait_ready mode hr hp]
  cases mode
  · refine ⟨x.closing.dev, x.draws, ?_, ?_⟩
    · have e := x.closing_eq
      rw [← x.closing_dev] at e
      generalize x.closing.dev = d at *
      simp only [e, waitEvents, reduceCtorEq, if_true, if_false, List.append_nil]
    · rw [x.closing_dev, if_neg (by rw [hr]; decide)]
      have h2 : (x.dev.ticks 46).busy = false := later 2
      exact ⟨h2, rfl, Dev.ticks_srx _ _, Dev.ticks_mem _ _⟩
  · obtain ⟨y, hy⟩ : ∃ y : State, y = { x with
        cs := true, sck := false, di := true, sr := 0, bitcnt := 0, ph := .idle, pollcnt := 1
        trace := x.trace ++ selectEvents x.params ++ sendEvents 0x05 ++ [.sample x.params.readyLevel] ++
          deselectEvents x.params
        dev := { x.dev.ticks 47 with frame := [], heardBusy := (x.dev.ticks 2).busy } } := ⟨_, rfl⟩
    have hb : y.dev.busy = false := by rw [hy]; exact later 3
    refine ⟨y.closing.dev, x.draws, ?_, ?_⟩
    · have e := y.closing_eq
      rw [← y.closing_dev] at e
      simp only [← hy]
      generalize y.closing.dev = d at *
      rw [e, hy]
      simp [waitEvents, List.append_assoc]
    · rw [y.closing_dev, Dev.ticks_ready hb, Dev.ticks_ready hb, hb]
      refine ⟨rfl, rfl, ?_, ?_⟩ <;> (rw [hy]; simp)
  · obtain ⟨y, hy⟩ : ∃ y : State, y = { x.statusFrame with pollcnt := 1 } := ⟨_, rfl⟩
    have hf := x.statusFrame_eq
    have hb : y.dev.busy = false := by
      have h42 := later 42
      rw [hy, hf]
      generalize x.dev.ticks (44 + 42) = e at *
      exact h42
    refine ⟨y.closing.dev, y.draws, ?_, ?_⟩
    · have e := y.closing_eq
      rw [← y.closing_dev] at e
      simp only [← hy]
      generalize y.closing.dev = d at *
      generalize hw : y.draws = w at *
      rw [e, hy, hf]
      simp only [waitEvents, reduceCtorEq, if_false, if_true]
    · rw [y.closing_dev, Dev.ticks_ready hb, Dev.ticks_ready hb, hb]
      refine ⟨rfl, rfl, ?_, ?_⟩ <;> (rw [hy, hf]; simp)

end Sys2Proof.Machine
end

