-- ==== Sys2Proof/Laws/BlockWrite.lean ====
section
/-! SUPPORT. WriteBlock's loop: one byte exactly, the array outside the range, and the whole loop on a device that is ready at each
poll (43_composite_commands.md R192). -/

namespace Sys2Proof.Machine

/-- The address of a byte of a range inside the array (30_encoding.md R113). -/
theorem byteAddr_toNat {a : Addr} {i : Len} (h : a.toNat + i.toNat < Config.flashSize) : (byteAddr a i).toNat = a.toNat + i.toNat := by
  have hf : Config.flashSize ≤ 2 ^ 24 := by decide
  simp only [byteAddr, BitVec.toNat_ofNat]
  exact Nat.mod_eq_of_lt (by omega)

theorem len_succ_toNat {i : Len} (h : i.toNat + 1 < 2 ^ 16) : (i + 1).toNat = i.toNat + 1 := by
  rw [BitVec.toNat_add]
  exact Nat.mod_eq_of_lt h

/-- The byte that WriteBlock writes next, and where. -/
def State.nextVal (s : State) : Byte := bufferGet s.bufs s.bufRef s.idx.toNat

/-- One byte of WriteBlock up to its poll, exactly in SEQ. -/
theorem State.blockByte_eq (s : State) :
    s.blockByte = { s with
      cs := true, sck := false, di := s.nextVal.getLsbD 0, sr := 0, bitcnt := 0, ph := .idle, val := s.nextVal, pollcnt := 0
      trace := s.trace ++ programEvents s.params (byteAddr s.addr s.idx) s.nextVal ++ [.delayUs s.params.tProgram]
      dev := (s.takeByte.programFrames (byteAddr s.addr s.idx) s.nextVal).dev.tick
      draws := (s.takeByte.programFrames (byteAddr s.addr s.idx) s.nextVal).draws } := by
  have e := s.takeByte.programFrames_eq (byteAddr s.addr s.idx) s.nextVal
  have hv : s.takeByte.val = s.nextVal := rfl
  simp only [State.blockByte, hv]
  generalize (s.takeByte.programFrames (byteAddr s.addr s.idx) s.nextVal).dev = d at *
  generalize (s.takeByte.programFrames (byteAddr s.addr s.idx) s.nextVal).draws = w at *
  rw [e]
  rfl

/-- One byte changes no byte of the array but its own. -/
theorem State.blockByte_read_other (s : State) (h : s.addr.toNat + s.idx.toNat < Config.flashSize) (b : Nat)
    (hb : b ≠ s.addr.toNat + s.idx.toNat) : s.blockByte.statusPoll.2.dev.read b = s.dev.read b := by
  have ha := byteAddr_toNat h
  have h1 := s.takeByte.programFrames_read_other (byteAddr s.addr s.idx) s.nextVal (by rw [ha]; exact h) b (by rw [ha]; exact hb)
  rw [Dev.read_congr s.blockByte.statusPoll_mem b, s.blockByte_eq]
  generalize (s.takeByte.programFrames (byteAddr s.addr s.idx) s.nextVal).dev = d at *
  exact (Dev.read_congr d.tick_mem b).trans h1

theorem State.statusPoll_bufRef (s : State) : s.statusPoll.2.bufRef = s.bufRef := by rw [s.statusPoll_eq, s.statusFrame_eq]

/-- What the loop keeps in SEQ from one byte to the next. -/
theorem State.blockStep_keeps (s : State) :
    CmdRun s s.blockByte.statusPoll.2 ∧ s.blockByte.statusPoll.2.idx = s.idx ∧ s.blockByte.statusPoll.2.bufRef = s.bufRef := by
  refine ⟨(CmdRun.refl s).blockByte.trans (State.statusPoll_cmdRun _), ?_, ?_⟩
  · rw [s.blockByte.statusPoll_idx.1, s.blockByte_eq]
  · rw [State.statusPoll_bufRef, s.blockByte_eq]

/-- The loop changes no byte outside [addr, addr + len). -/
theorem State.blockLoop_read_other {b : Nat} (k : Nat) : ∀ s : State, inRange s.addr s.len.toNat = true →
    (k = 0 ∨ s.idx.toNat + k ≤ s.len.toNat) → ¬ (s.addr.toNat ≤ b ∧ b < s.addr.toNat + s.len.toNat) →
    (State.blockLoop k s).dev.read b = s.dev.read b := by
  induction k with
  | zero => exact fun s _ _ _ => Dev.read_congr s.closing_mem b
  | succ k ih =>
    intro s hr hk hb
    have hr' := inRange_iff.1 hr
    have hk' : s.idx.toNat + (k + 1) ≤ s.len.toNat := by omega
    have hlen := s.len.isLt
    rw [State.blockLoop]
    split
    · have h1 := s.blockByte_read_other (by omega) b (by omega)
      have hc := s.blockStep_keeps.1
      have hi := s.blockStep_keeps.2.1
      generalize s.blockByte.statusPoll = p at *
      obtain ⟨_ | _ | _, t⟩ := p
      · simp only [afterPoll]
        simp only at h1 hc hi
        rw [ih t.nextByte (by simpa [hc.addr, hc.len] using hr)
          (.inr (by
            have : t.nextByte.idx.toNat = s.idx.toNat + 1 := by rw [State.nextByte_idx, hi, len_succ_toNat (by omega)]
            rw [this, State.nextByte_len, hc.len]; omega))
          (by simpa [hc.addr, hc.len] using hb)]
        exact h1
      · exact h1
      · exact h1
    · rfl

/-! ### One byte whose poll shows ready -/

theorem Draws.latency_cons {d : Draws} {l : Option Nat} {ls : List (Option Nat)} (h : d.latencies = l :: ls) :
    d.latency = (l, { d with latencies := ls }) := by simp only [Draws.latency, h]

@[simp] theorem Draws.srx_latencies (d : Draws) (b : Byte) : (d.srx b).2.latencies = d.latencies := by
  simp only [Draws.srx]; split <;> rfl

/-- One byte of WriteBlock on a ready device whose busy cycle is over when its poll is answered. -/
theorem State.blockByte_ready {s : State} {k : Nat} {more : List (Option Nat)} (hb : s.dev.busy = false)
    (ha : s.addr.toNat + s.idx.toNat < Config.flashSize) (hl : s.draws.latencies = some k :: more) (hk : k < 47) :
    ∃ (r : Byte) (d : Dev) (w : Draws),
      busyBit r = false ∧
      s.blockByte.statusPoll = (.ready, { s with
        cs := true, sck := false, di := true, sr := r, bitcnt := 0, ph := .idle, val := s.nextVal, pollcnt := 1, st := r
        trace := s.trace ++ programEvents s.params (byteAddr s.addr s.idx) s.nextVal ++ [.delayUs s.params.tProgram] ++
          statusFrameEvents s.params r
        dev := d, draws := w }) ∧
      d.busy = false ∧ d.srx = s.dev.srx ∧ w.latencies = more ∧
      ∀ b, d.read b =
        if b = s.addr.toNat + s.idx.toNat then programFn (s.dev.read (s.addr.toNat + s.idx.toNat)) s.nextVal else s.dev.read b := by
  have hat := byteAddr_toNat ha
  obtain ⟨hd, hw⟩ := s.takeByte.programFrames_dev (byteAddr s.addr s.idx) s.nextVal (by rw [hat]; exact ha)
  have hc : (s.takeByte.dev.ticks 250).busy = false ∧ s.takeByte.dev.latchAfterEnable = true :=
    ⟨Dev.ticks_busy_mono hb, Dev.latchAfterEnable_ready hb⟩
  rw [if_pos hc] at hd hw
  have hlat : s.takeByte.draws.latency = (some k, { s.draws with latencies := more }) := Draws.latency_cons hl
  have htd : s.takeByte.dev = s.dev := rfl
  rw [hlat] at hd hw
  rw [htd, Dev.ticks_ready hb, Dev.ticks_ready hb] at hd
  have e := s.blockByte_eq
  obtain ⟨x, hx⟩ : ∃ x, x = s.blockByte := ⟨_, rfl⟩
  rw [← hx] at e ⊢
  generalize hz : (Dev.mk _ _ _ _ _ _ _ _ : Dev) = z at hd
  have hxd : x.dev = z.ticks 3 := by rw [e, hd, Dev.tick_ticks]
  have hxw : x.draws = { s.draws with latencies := more } := by rw [e, hw]
  have hready : (x.dev.ticks 44).busy = false := by
    rw [hxd, Dev.ticks_ticks, Dev.ticks_busy, ← hz]
    simp only [stillBusy, Bool.true_and, decide_eq_false_iff_not]; omega
  have hpoll := x.statusPoll_eq
  rw [if_pos hready, x.statusFrame_eq] at hpoll
  have hyb : (x.dev.ticks 86).busy = false := by
    have : x.dev.ticks 86 = (x.dev.ticks 44).ticks 42 := (Dev.ticks_ticks x.dev 44 42).symm
    rw [this]
    exact Dev.ticks_busy_mono hready
  have hyx := x.dev.ticks_srx 86
  have hym := x.dev.ticks_mem 86
  have hn := x.busyBit_statusNow
  rw [hready] at hn
  have hsx : z.srx = s.dev.srx := by rw [← hz]
  have hzm : z.mem = s.dev.mem.set (s.addr.toNat + s.idx.toNat) (programFn (s.dev.read (s.addr.toNat + s.idx.toNat)) s.nextVal) := by
    rw [← hz, hat]
  have hxs : x.dev.srx = z.srx := by rw [hxd, Dev.ticks_srx]
  have hxm : x.dev.mem = z.mem := by rw [hxd, Dev.ticks_mem]
  clear hz hd hc hlat hxd hready
  generalize x.dev.ticks 86 = y at *
  generalize x.dev.ticks 2 = y2 at *
  generalize x.statusNow = r at *
  refine ⟨r, { y with frame := [], heardBusy := y2.busy, status := r }, (x.draws.srx x.dev.srx).2, hn, ?_, hyb,
    (hyx.trans hxs).trans hsx, by rw [Draws.srx_latencies, hxw], fun b => ?_⟩
  · rw [hpoll]
    generalize (x.draws.srx x.dev.srx).2 = w
    rw [e]
  · refine Eq.trans ?_ (Dev.read_set s.dev (s.addr.toNat + s.idx.toNat) b
      (programFn (s.dev.read (s.addr.toNat + s.idx.toNat)) s.nextVal))
    exact Dev.read_congr ((hym.trans hxm).trans hzm) b

/-! ### The whole loop, ready at each poll -/

/-- The events of one byte of WriteBlock whose poll answers `r` (43_composite_commands.md R192). -/
def blockByteEvents (p : Params) (a : Addr) (v r : Byte) : List Event :=
  programEvents p a v ++ [.delayUs p.tProgram] ++ statusFrameEvents p r

/-- The events of the bytes of a block from `i` on, one status byte each. -/
def blockEvents (s : State) : Nat → List Byte → List Event
  | _, [] => []
  | i, r :: rs =>
    blockByteEvents s.params (BitVec.ofNat 24 (s.addr.toNat + i)) (bufferGet s.bufs s.bufRef i) r ++ blockEvents s (i + 1) rs

theorem blockEvents_congr {s t : State} (h : CmdRun s t) (hr : t.bufRef = s.bufRef) (i : Nat) (rs : List Byte) : blockEvents t i rs = blockEvents s i rs := by
  induction rs generalizing i with
  | nil => rfl
  | cons r rs ih => rw [blockEvents, blockEvents, ih, h.params, h.addr, h.bufs, hr]

theorem blockEvents_eq (s : State) (i : Nat) (rs : List Byte) :
    blockEvents s i rs =
      (List.range rs.length).flatMap fun j =>
        blockByteEvents s.params (BitVec.ofNat 24 (s.addr.toNat + (i + j))) (bufferGet s.bufs s.bufRef (i + j)) (rs.getD j 0) := by
  induction rs generalizing i with
  | nil => rfl
  | cons r rs ih =>
    rw [blockEvents, ih, List.length_cons, List.range_succ_eq_map, List.flatMap_cons, List.flatMap_map]
    congr 1
    refine congrArg (fun f => List.flatMap f _) ?_
    funext j
    have : i + 1 + j = i + (j + 1) := by omega
    rw [this]
    rfl

/-- What the loop makes of the array: the bytes from `i` on are programmed in order. -/
structure BlockDone (s t : State) (rs : List Byte) : Prop where
  run : CmdRun s t
  cs : t.cs = true
  sck : t.sck = false
  di : t.di = false
  sr : t.sr = 0
  bitcnt : t.bitcnt = 0
  ph : t.ph = .idle
  opr : t.opr = none
  bufRef : t.bufRef = none
  err : t.err = .ok
  ret : t.ret = none
  idx : t.idx.toNat = s.idx.toNat + rs.length
  val : t.val = if rs = [] then s.val else bufferGet s.bufs s.bufRef (s.idx.toNat + rs.length - 1)
  pollcnt : t.pollcnt = if rs = [] then s.pollcnt else 1
  st : t.st = rs.getLastD s.st
  trace : t.trace = s.trace ++ blockEvents s s.idx.toNat rs ++ opcodeFrameEvents s.params 0x04
  busy : t.dev.busy = false
  wel : t.dev.wel = false
  srx : t.dev.srx = s.dev.srx
  frame : t.dev.frame = []
  read : ∀ b, t.dev.read b =
    if s.addr.toNat + s.idx.toNat ≤ b ∧ b < s.addr.toNat + s.idx.toNat + rs.length then
      programFn (s.dev.read b) (bufferGet s.bufs s.bufRef (b - s.addr.toNat)) else s.dev.read b

theorem State.closing_done {s : State} (hb : s.dev.busy = false) : BlockDone s s.closing [] := by
  have e := s.closing_eq
  have hd := s.closing_dev
  rw [Dev.ticks_ready hb, Dev.ticks_ready hb, Dev.ticks_ready hb] at e hd
  simp only [hb, Bool.false_eq_true, if_false] at e hd
  exact {
    run := (CmdRun.refl s).closing
    cs := by rw [e]
    sck := by rw [e]
    di := by rw [e]
    sr := by rw [e]
    bitcnt := by rw [e]
    ph := by rw [e]
    opr := by rw [e]
    bufRef := by rw [e]
    err := by rw [e]
    ret := by rw [e]
    idx := by rw [e]; simp
    val := by rw [e]; simp
    pollcnt := by rw [e]; simp
    st := by rw [e]; simp
    trace := by rw [e]; simp [blockEvents]
    busy := by rw [hd]
    wel := by rw [hd]
    srx := by rw [hd]
    frame := by rw [hd]
    read := fun b => by
      rw [Dev.read_congr s.closing_mem b, if_neg]
      rw [List.length_nil]
      omega }

theorem State.blockLoop_done (k : Nat) : ∀ (s : State) (ls : List Nat) (more : List (Option Nat)), s.dev.busy = false →
    s.addr.toNat + s.idx.toNat + k ≤ Config.flashSize → s.idx.toNat + k < 2 ^ 16 → s.draws.latencies = ls.map some ++ more →
    ls.length = k → (∀ j ∈ ls, j < 47) →
    ∃ rs : List Byte, rs.length = k ∧ (∀ x ∈ rs, busyBit x = false) ∧ BlockDone s (State.blockLoop k s) rs := by
  induction k with
  | zero =>
    intro s ls more hb _ _ _ _ _
    exact ⟨[], rfl, by simp, State.closing_done hb⟩
  | succ k ih =>
    intro s ls more hb ha hi hl hn hk
    obtain _ | ⟨j, ls⟩ := ls
    · simp at hn
    · have ha1 : s.addr.toNat + s.idx.toNat < Config.flashSize := by omega
      have hr1 : inRange (byteAddr s.addr s.idx) 1 = true := inRange_iff.2 (by rw [byteAddr_toNat ha1]; omega)
      obtain ⟨r, d, w, hr, hp, hdb, hdx, hwl, hdr⟩ :=
        State.blockByte_ready hb ha1 (by simpa using hl) (hk j (by simp))
      rw [State.blockLoop, if_pos hr1, hp]
      simp only [afterPoll]
      generalize hu : (State.mk _ _ _ _ _ _ _ _ _ _ _ _ _ _ _ _ _ _ _ _ _ _ _ : State) = u
      have hui : u.nextByte.idx.toNat = s.idx.toNat + 1 := by
        rw [State.nextByte_idx, ← hu]; exact len_succ_toNat (i := s.idx) (by omega)
      have hun : CmdRun s u.nextByte := by rw [← hu]; rfl
      have hub : u.nextByte.bufRef = s.bufRef := by rw [← hu]; rfl
      obtain ⟨rs, h1, h2, h3⟩ := ih u.nextByte ls more (by rw [← hu]; exact hdb) (by rw [hui, hun.addr]; omega) (by rw [hui]; omega)
        (by rw [← hu]; exact hwl) (by simpa using hn) (fun x hx => hk x (by simp [hx]))
      refine ⟨r :: rs, by simp [h1], by simp only [List.mem_cons, forall_eq_or_imp]; exact ⟨hr, h2⟩, ?_⟩
      exact {
        run := hun.trans h3.run
        cs := h3.cs
        sck := h3.sck
        di := h3.di
        sr := h3.sr
        bitcnt := h3.bitcnt
        ph := h3.ph
        opr := h3.opr
        bufRef := h3.bufRef
        err := h3.err
        ret := h3.ret
        idx := by rw [h3.idx, hui, List.length_cons]; omega
        val := by
          rw [h3.val, hui, hun.bufs, hub]
          cases rs with
          | nil => rw [if_pos rfl, if_neg (by simp), ← hu]; rfl
          | cons x xs => rw [if_neg (by simp), if_neg (by simp)]; congr 1; simp only [List.length_cons]; omega
        pollcnt := by
          rw [h3.pollcnt, ← hu]
          cases rs <;> simp
        st := by
          rw [h3.st, ← hu]
          cases rs <;> rfl
        trace := by
          rw [h3.trace, hui, blockEvents_congr hun hub, hun.params, ← hu]
          simp only [State.nextByte_trace, blockEvents, blockByteEvents, byteAddr, State.nextVal, List.append_assoc]
        busy := h3.busy
        wel := h3.wel
        srx := by rw [h3.srx, ← hu]; exact hdx
        frame := h3.frame
        read := fun b => by
          have hud : u.nextByte.dev = d := by rw [← hu]; rfl
          rw [h3.read b, hui, hun.addr, hun.bufs, hub, hud, hdr b, List.length_cons]
          by_cases hbe : b = s.addr.toNat + s.idx.toNat
          · rw [if_neg (by omega), if_pos hbe, if_pos (by omega), hbe, Nat.add_sub_cancel_left]
            rfl
          · rw [if_neg hbe]
            by_cases hin : s.addr.toNat + (s.idx.toNat + 1) ≤ b ∧ b < s.addr.toNat + (s.idx.toNat + 1) + rs.length
            · rw [if_pos hin, if_pos (by omega)]
            · rw [if_neg hin, if_neg (by omega)] }

end Sys2Proof.Machine
end

