-- ==== Sys2Proof/Laws/Rests.lean ====
section
/-! SUPPORT. Where a command comes to rest: ended with the bus idle, or waiting with polls left (10_state.md R36, R37,
43_composite_commands.md R193, R194, 60_exceptions.md R216, R224). -/

namespace Sys2Proof.Machine

/-- The bus deselected and idle, no frame, no byte half moved (10_state.md R37). -/
structure State.Closed (s : State) : Prop where
  ph : s.ph = .idle
  cs : s.cs = true
  sck : s.sck = false
  bitcnt : s.bitcnt = 0
  frame : s.dev.frame = []

/-- POLLCNT has not reached POLL_LIMIT: a poll may follow (60_exceptions.md R224). -/
def State.PollsLeft (s : State) : Prop := ∀ l, s.params.pollLimit = some l → s.pollcnt < l

/-- POLLCNT does not exceed POLL_LIMIT (60_exceptions.md R224). -/
def State.PollsKept (s : State) : Prop := ∀ l, s.params.pollLimit = some l → s.pollcnt ≤ l

theorem State.PollsLeft.kept {s : State} (h : s.PollsLeft) : s.PollsKept := fun l hl => Nat.le_of_lt (h l hl)

theorem Params.pollLimit_pos {p : Params} {l : Nat} (h : p.pollLimit = some l) : 1 ≤ l := by
  simp only [Params.pollLimit, Option.map_eq_some_iff] at h
  obtain ⟨k, -, rfl⟩ := h
  omega

/-- Where a command has come to rest at the end of a step: ended, or in its wait. -/
def State.Rests (s : State) (op : Op) : Prop :=
  (s.opr = none ∧ s.bufRef = none ∧ s.Closed ∧ s.PollsKept) ∨
    (s.opr = some op ∧ s.Waiting op ∧ s.PollsLeft ∧ s.bitcnt = 0 ∧ s.sck = false ∧ s.ph ≠ .deselected ∧
      (s.cs = true ↔ s.ph = .idle) ∧ (s.ph = .idle → s.dev.frame = []) ∧
      (s.ph ≠ .idle → s.RawPolling))

/-- A poll's outcome and the bus it leaves: `wait` is the bus of a poll that goes on. -/
structure PollEnds (wait : State → Prop) (p : Poll × State) : Prop where
  ended : p.1 ≠ .busy → p.2.Closed
  waits : p.1 = .busy → wait p.2 ∧ p.2.PollsLeft
  kept : p.2.PollsKept

/-- The bus between two raw polls. -/
structure State.RawBus (s : State) : Prop where
  cs : s.cs = false
  sck : s.sck = false
  bitcnt : s.bitcnt = 0
  raw : s.RawPolling

theorem verdict_busy {s : State} {b : Bool} (h : s.verdict b = .busy) : ∀ l, s.params.pollLimit = some l → s.pollcnt + 1 < l := by
  intro l hl
  simp only [State.verdict] at h
  split at h
  · simp at h
  · split at h
    · simp at h
    · rename_i hn
      rw [limitReached_iff] at hn
      exact Nat.lt_of_not_le fun hle => hn ⟨l, hl, hle⟩

theorem State.rawPoll_ends {s : State} (h : s.RawBus) (hl : s.PollsLeft) : PollEnds State.RawBus s.rawPoll := by
  obtain ⟨h1, h2, h3, h4, h5⟩ := h
  have e := State.rawPoll_eq h1 h2 h5
  have hb := @verdict_busy s (s.rawLevel == s.params.readyLevel)
  rw [e]
  generalize s.verdict (s.rawLevel == s.params.readyLevel) = v at *
  refine ⟨fun hv => ?_, fun hv => ?_, ?_⟩
  · cases v
    · exact ⟨rfl, rfl, rfl, h3, rfl⟩
    · exact absurd rfl hv
    · exact ⟨rfl, rfl, rfl, h3, rfl⟩
  · cases v
    · simp at hv
    · exact ⟨⟨h1, h2, h3, h4, by simpa using h5⟩, hb rfl⟩
    · simp at hv
  · cases v <;> exact fun l k => hl l k

theorem State.statusPoll_ends (s : State) (hl : s.PollsLeft) : PollEnds State.Closed s.statusPoll := by
  have e := s.statusPoll_eq
  have hc : State.Closed s.statusPoll.2 := by
    rw [e, s.statusFrame_eq]
    exact ⟨rfl, rfl, rfl, rfl, rfl⟩
  have hp : s.statusPoll.2.pollcnt = s.pollcnt + 1 ∧ s.statusPoll.2.params = s.params :=
    ⟨by rw [e], s.statusPoll_cmdRun.params⟩
  have h1 : s.statusPoll.1 = .busy → limitReached s.params (s.pollcnt + 1) = false := by
    rw [e]
    simp only
    intro h
    split at h
    · simp at h
    · split at h
      · simp at h
      · rename_i hn
        simpa using hn
  refine ⟨fun _ => hc, fun hv => ⟨hc, fun l hl => ?_⟩, fun l k => ?_⟩
  · rw [hp.1]
    rw [hp.2] at hl
    have := h1 hv
    rw [Bool.eq_false_iff] at this
    exact Nat.lt_of_not_le fun hle => this (limitReached_iff.2 ⟨l, hl, hle⟩)
  · rw [hp.1]
    rw [hp.2] at k
    exact hl l k

theorem State.startPolls_left (s : State) : s.startPolls.PollsLeft := fun _ h => Params.pollLimit_pos h

theorem State.openRawPoll_bus (s : State) : s.openRawPoll.RawBus ∧ s.openRawPoll.PollsLeft := by
  rw [s.openRawPoll_eq]
  exact ⟨⟨rfl, rfl, rfl, rfl, rfl⟩, fun _ h => Params.pollLimit_pos h⟩

theorem State.Closed.rest {s : State} (h : s.Closed) (hk : s.PollsKept) (op : Op) (e : Err) (r : Option Byte) :
    (s.finish e r).Rests op := .inl ⟨rfl, rfl, ⟨h.ph, h.cs, h.sck, h.bitcnt, h.frame⟩, hk⟩

theorem State.closing_rests (s : State) (hk : s.PollsKept) (op : Op) : s.closing.Rests op := by
  rw [s.closing_eq]
  exact .inl ⟨rfl, rfl, ⟨rfl, rfl, rfl, rfl, rfl⟩, hk⟩

/-- After a poll: the rest of the command, the fault, or the wait. -/
theorem afterPoll_rests {wait : State → Prop} {rest : State → State} {op : Op} {p : Poll × State} (h : PollEnds wait p)
    (hr : p.1 = .ready → (rest p.2).Rests op) (hw : wait p.2 → p.2.PollsLeft → p.2.Rests op) : (afterPoll rest p).Rests op := by
  obtain ⟨v, t⟩ := p
  cases v
  · exact hr rfl
  · exact hw (h.waits rfl).1 (h.waits rfl).2
  · exact (h.ended (by simp)).rest h.kept _ _ _

/-- A command in a raw wait. -/
theorem State.RawBus.rests {s : State} {op : Op} (h : s.RawBus) (hl : s.PollsLeft) (ho : s.opr = some op) (hw : s.Waiting op) :
    s.Rests op :=
  .inr ⟨ho, hw, hl, h.bitcnt, h.sck, by rw [h.raw.1]; decide, by rw [h.cs, h.raw.1]; decide, by rw [h.raw.1]; simp, fun _ => h.raw⟩

/-- A command in a status wait. -/
theorem State.Closed.rests {s : State} {op : Op} (h : s.Closed) (hl : s.PollsLeft) (ho : s.opr = some op) (hw : s.Waiting op) :
    s.Rests op :=
  .inr ⟨ho, hw, hl, h.bitcnt, h.sck, by rw [h.ph]; decide, by rw [h.cs, h.ph]; decide, fun _ => h.frame, fun e => absurd h.ph e⟩

/-- A poll leaves OPR alone. -/
theorem State.rawPoll_opr (s : State) : s.rawPoll.2.opr = s.opr := by
  have h : s.rawSample.opr = s.opr := by rw [State.rawSample, s.afterSample_eq]
  have k := (BusRun.refl.deselect (s := s.rawSample)).eq
  simp only [State.rawPoll]
  split
  · exact h
  · rw [k]; exact h

theorem State.statusPoll_opr (s : State) : s.statusPoll.2.opr = s.opr := by
  rw [s.statusPoll_eq, s.statusFrame_eq]

theorem State.openRawPoll_opr (s : State) : s.openRawPoll.opr = s.opr := by rw [s.openRawPoll_eq]

/-- The wait of WriteStatus or EraseBlock, begun: the command rests. -/
theorem State.completionWait_rests {s : State} {op : Op} (mode : WaitMode) (ho : s.opr = some op) (hk : s.PollsKept)
    (hraw : ∀ t : State, t.params = s.params → mode = .waitUntilReady → t.RawPolling → t.Waiting op)
    (hst : ∀ t : State, t.params = s.params → mode = .pollStatus → t.ph = .idle → t.Waiting op) :
    (s.completionWait mode State.closing).Rests op := by
  cases mode
  · exact s.closing_rests hk op
  · have h := State.rawPoll_ends s.openRawPoll_bus.1 s.openRawPoll_bus.2
    have hp : s.openRawPoll.rawPoll.2.params = s.params := (State.rawPoll_cmdRun _).params.trans s.openRawPoll_cmdRun.params
    exact afterPoll_rests h (fun _ => State.closing_rests _ h.kept op) fun hb hl =>
      hb.rests hl ((State.rawPoll_opr _).trans (s.openRawPoll_opr.trans ho)) (hraw _ hp rfl hb.raw)
  · have h := State.statusPoll_ends s.startPolls s.startPolls_left
    have hp : s.startPolls.statusPoll.2.params = s.params := (State.statusPoll_cmdRun _).params
    exact afterPoll_rests h (fun _ => State.closing_rests _ h.kept op) fun hb hl =>
      hb.rests hl ((State.statusPoll_opr _).trans ho) (hst _ hp rfl hb.ph)

/-- The same wait, gone on. -/
theorem State.continueWait_rests {s : State} {op : Op} (mode : WaitMode) (ho : s.opr = some op) (hl : s.PollsLeft)
    (hbus : mode = .waitUntilReady → s.RawBus)
    (hraw : ∀ t : State, t.params = s.params → mode = .waitUntilReady → t.RawPolling → t.Waiting op)
    (hst : ∀ t : State, t.params = s.params → mode = .pollStatus → t.ph = .idle → t.Waiting op) :
    (s.continueWait mode State.closing).Rests op := by
  cases mode
  · exact s.closing_rests hl.kept op
  · have h := State.rawPoll_ends (hbus rfl) hl
    exact afterPoll_rests h (fun _ => State.closing_rests _ h.kept op) fun hb hl =>
      hb.rests hl ((State.rawPoll_opr _).trans ho) (hraw _ (State.rawPoll_cmdRun s).params rfl hb.raw)
  · have h := State.statusPoll_ends s hl
    exact afterPoll_rests h (fun _ => State.closing_rests _ h.kept op) fun hb hl =>
      hb.rests hl ((State.statusPoll_opr _).trans ho) (hst _ (State.statusPoll_cmdRun s).params rfl hb.ph)

/-- WriteBlock's loop: it ends, or waits with bytes left. -/
theorem State.blockLoop_rests (k : Nat) : ∀ s : State, s.opr = some .writeBlock → s.Closed → s.PollsKept →
    (k = 0 ∨ inRange s.addr s.len.toNat = true ∧ s.idx.toNat + k ≤ s.len.toNat ∧ s.len.toNat ≤ bufferRoom s.bufs s.bufRef) →
    (State.blockLoop k s).Rests .writeBlock := by
  induction k with
  | zero => exact fun s _ _ hk _ => s.closing_rests hk _
  | succ k ih =>
    intro s ho hc hk hn
    obtain hn | ⟨hr, hi, hb⟩ := hn
    · simp at hn
    · have hlen := s.len.isLt
      rw [State.blockLoop]
      split
      · have h := State.statusPoll_ends s.blockByte (by rw [s.blockByte_eq]; exact fun _ h => Params.pollLimit_pos h)
        have hrun := s.blockStep_keeps.1
        obtain ⟨hidx, href⟩ := s.blockStep_keeps.2
        have hopr : s.blockByte.statusPoll.2.opr = some .writeBlock := by
          rw [State.statusPoll_opr, s.blockByte_eq]; exact ho
        refine afterPoll_rests h (fun hv => ?_) fun hcl hl => ?_
        · have hcl := h.ended (by rw [hv]; decide)
          have hkept := h.kept
          generalize s.blockByte.statusPoll.2 = t at *
          refine ih t.nextByte hopr ⟨hcl.ph, hcl.cs, hcl.sck, hcl.bitcnt, hcl.frame⟩ hkept (.inr ?_)
          have hni : t.nextByte.idx.toNat = s.idx.toNat + 1 := by rw [State.nextByte_idx, hidx, len_succ_toNat (by omega)]
          rw [hni, State.nextByte_addr, State.nextByte_len, State.nextByte_bufs, State.nextByte_bufRef, hrun.addr, hrun.len,
            hrun.bufs, href]
          exact ⟨hr, by omega, hb⟩
        · generalize s.blockByte.statusPoll.2 = t at *
          refine hcl.rests hl hopr ?_
          show t.ph = .idle ∧ inRange t.addr t.len.toNat = true ∧ t.idx.toNat < t.len.toNat ∧ t.len.toNat ≤ bufferRoom t.bufs t.bufRef
          rw [hrun.addr, hrun.len, hrun.bufs, href, hidx]
          exact ⟨hcl.ph, hr, by omega, hb⟩
      · have hc' : s.takeByte.Closed := ⟨hc.ph, hc.cs, hc.sck, hc.bitcnt, hc.frame⟩
        exact hc'.rest hk _ _ _

end Sys2Proof.Machine
end

