-- ==== Sys2Proof/Laws/Steps.lean ====
section
/-! SUPPORT. Whole commands in one lemma each: how a command is taken (10_state.md R36), what its frames leave in SEQ
(43_composite_commands.md R190, R191), how a status wait goes on (R194), and which operations leave the array alone (20_memory.md R68). -/

namespace Sys2Proof.Machine

/-! ### A command that is taken -/

theorem inRange_one {a : Addr} (h : a.toNat < Config.flashSize) : inRange a 1 = true := inRange_iff.2 ⟨h, by omega⟩

theorem readBlock_run (a : Addr) (n : Len) (r : BufRef) (s : State) (h : s.Accepts) (hn : n.toNat ≤ bufferRoom s.bufs r)
    (h4 : a.toNat < Config.flashSize) (h5 : a.toNat + n.toNat ≤ Config.flashSize) :
    exec (.readBlock a n r) s =
      .next ((State.readFrame { s.start .readBlock with addr := a, len := n, bufRef := some r } a n.toNat).finish .ok none) := by
  have hb := blockCommand_accepts h
  have hi : inRange a n.toNat = true := inRange_iff.2 ⟨h4, h5⟩
  simp only [exec, execReadBlock, hb, (blockBuffer_room (a := a) hn).1, Option.none_or, runUnless, hi, if_true]

theorem writeStatus_next (v : Byte) (s : State) (h : s.Accepts) :
    exec (.writeStatus v) s =
      .next (State.completionWait ((State.opcodeFrame { s.start .writeStatus with val := v } 0x06).dataFrame 0x01 v)
        s.params.wrsrWait State.closing) := by
  simp only [exec, execWriteStatus, blockCommand_accepts h, runUnless]

theorem eraseBlock_next (a : Addr) (s : State) (h : s.Accepts) (ha : a.toNat < Config.flashSize) :
    exec (.eraseBlock a) s =
      .next (State.completionWait ((State.opcodeFrame { s.start .eraseBlock with addr := a } 0x06).addressFrame 0xD8 a)
        s.params.eraseWait State.closing) := by
  simp only [exec, execEraseBlock, blockCommand_accepts h, runUnless, inRange_one ha, if_true]

theorem State.writeStatusFrames_eq (u : State) (v : Byte) :
    (u.opcodeFrame 0x06).dataFrame 0x01 v = { u with
      cs := true, sck := false, di := v.getLsbD 0, sr := 0, bitcnt := 0, ph := .idle
      trace := u.trace ++ opcodeFrameEvents u.params 0x06 ++ dataFrameEvents u.params 0x01 v
      dev := ((u.opcodeFrame 0x06).dataFrame 0x01 v).dev, draws := ((u.opcodeFrame 0x06).dataFrame 0x01 v).draws } := by
  have h1 := State.dataFrame_eq (u.opcodeFrame 0x06) 0x01 v
  have h2 := State.opcodeFrame_eq u 0x06
  generalize ((u.opcodeFrame 0x06).dataFrame 0x01 v).dev = d at *
  generalize ((u.opcodeFrame 0x06).dataFrame 0x01 v).draws = w at *
  rw [h1, h2]

theorem State.eraseFrames_eq (u : State) (a : Addr) :
    (u.opcodeFrame 0x06).addressFrame 0xD8 a = { u with
      cs := true, sck := false, di := (a.extractLsb' 0 8).getLsbD 0, sr := 0, bitcnt := 0, ph := .idle
      trace := u.trace ++ opcodeFrameEvents u.params 0x06 ++ addressFrameEvents u.params 0xD8 a
      dev := ((u.opcodeFrame 0x06).addressFrame 0xD8 a).dev, draws := ((u.opcodeFrame 0x06).addressFrame 0xD8 a).draws } := by
  have h1 := State.addressFrame_eq (u.opcodeFrame 0x06) 0xD8 a
  have h2 := State.opcodeFrame_eq u 0x06
  generalize ((u.opcodeFrame 0x06).addressFrame 0xD8 a).dev = d at *
  generalize ((u.opcodeFrame 0x06).addressFrame 0xD8 a).draws = w at *
  rw [h1, h2]

/-! ### A status wait, gone on -/

theorem State.statusPoll_run (s : State) :
    s.statusPoll =
      ((if (s.dev.ticks 44).busy = false then .ready else if limitReached s.params (s.pollcnt + 1) then .timedOut else .busy),
        { s with
          cs := true, sck := false, di := true, sr := s.statusNow, bitcnt := 0, ph := .idle, st := s.statusNow, pollcnt := s.pollcnt + 1
          trace := s.trace ++ statusFrameEvents s.params s.statusNow
          dev := { s.dev.ticks 86 with frame := [], heardBusy := (s.dev.ticks 2).busy, status := s.statusNow }
          draws := (s.draws.srx s.dev.srx).2 }) := by
  rw [s.statusPoll_eq]
  rw [s.statusFrame_eq]

theorem step_statusWait {op : Op} {s : State} (ho : s.opr = some op)
    (hm : (op = .writeStatus ∧ s.params.wrsrWait = .pollStatus) ∨ (op = .eraseBlock ∧ s.params.eraseWait = .pollStatus) ∨ op = .writeBlock) :
    step s = .next (afterPoll (if op = .writeBlock then State.blockGoesOn else State.closing) s.statusPoll) := by
  obtain ⟨rfl, h⟩ | ⟨rfl, h⟩ | rfl := hm
  · simp only [step, ho, State.resume, h, State.continueWait, reduceCtorEq, if_false]
  · simp only [step, ho, State.resume, h, State.continueWait, reduceCtorEq, if_false]
  · simp only [step, ho, State.resume, if_true]

theorem Dev.later_ready {d : Dev} (h : (d.ticks 44).busy = false) (n : Nat) : (d.ticks (44 + n)).busy = false := by
  rw [← Dev.ticks_ticks]; exact Dev.ticks_busy_mono h

theorem statusFrameEvents_length (p : Params) (r : Byte) : (statusFrameEvents p r).length = 86 := by
  simp [statusFrameEvents, selectEvents, deselectEvents, sendEvents, receiveEvents, bitsOfByte, sendBitEvents, receiveBitEvents]

/-! ### The invariant of a command at rest -/

theorem inv_of_rests {t : State} {op : Op} (h : t.Rests op) (hd : t.dir = .master) (hm : t.dev.mem.wf) : t.Inv := by
  obtain ⟨h1, hr, h2, h3⟩ | ⟨h1, h2, h3, h4, h5, h6, h7, h8, h9⟩ := h
  · exact {
      mem := hm, bitcnt := h2.bitcnt, settled := by rw [h2.ph]; decide, released := by rw [hd]; simp
      clock := fun _ => h2.sck, chipSelect := fun _ => by rw [h2.cs, h2.ph]; decide, frame := fun _ => h2.frame, whole := fun e => absurd h2.ph e
      reference := fun _ => hr
      running := by rw [h1]; simp, polls := fun l hl => ⟨h3 l hl, fun e => absurd h1 e⟩ }
  · exact {
      mem := hm, bitcnt := h4, settled := h6, released := by rw [hd]; simp
      clock := fun _ => h5, chipSelect := fun _ => h7, frame := h8
      whole := fun e => ⟨[0x05], by rw [(h9 e).2]; rfl, by rw [(h9 e).1]; decide⟩
      reference := fun e => by rw [h1] at e; cases e
      running := fun o ho => by rw [h1] at ho; cases ho; exact h2
      polls := fun l hl => ⟨h3.kept l hl, fun _ => h3 l hl⟩ }

theorem closed_of_inv {s : State} (h : s.Inv) (ha : s.Accepts) : s.Closed ∧ s.PollsKept :=
  ⟨⟨ha.2.2, (h.chipSelect ha.2.1).2 ha.2.2, h.clock ha.2.1, h.bitcnt, h.frame ha.2.2⟩, fun l hl => (h.polls l hl).1⟩

theorem opcodeFrame_closed (s : State) (b : Byte) : (s.opcodeFrame b).Closed :=
  ⟨State.opcodeFrame_ph _ _, State.opcodeFrame_cs _ _, State.opcodeFrame_sck _ _, State.opcodeFrame_bitcnt _ _, State.opcodeFrame_frame _ _⟩

theorem programFrames_closed (s : State) (a : Addr) (v : Byte) : (s.programFrames a v).Closed :=
  ⟨by simp, by simp, by simp, by simp, State.addressDataFrame_frame _ _ _ _⟩

/-! ### The array is kept -/

theorem State.drive_mem (s : State) (l : Line) (v : Bool) (h : ¬ (l = .cs ∧ v = true)) : (s.drive l v).dev.mem = s.dev.mem := by
  cases l <;> cases v
  · rw [State.drive_cs_low_dev]; simp
  · exact absurd ⟨rfl, rfl⟩ h
  · rw [State.drive_sck_low_dev]; simp
  · cases hc : s.cs
    · exact (State.drive_sck_high_clocked hc).mem
    · have : (s.drive .sck true).dev = s.dev.tick := by simp [State.drive, State.react, hc]
      rw [this, Dev.tick_mem]
  · rw [State.drive_di_dev]; simp
  · rw [State.drive_di_dev]; simp

theorem State.sendBit_mem (s : State) : s.sendBit.dev.mem = s.dev.mem := by
  simp only [State.sendBit]
  show (State.delayShort _).dev.mem = _
  simp [State.drive_mem]

theorem State.sendBits_mem (n : Nat) : ∀ s : State, (s.sendBits n).dev.mem = s.dev.mem := by
  induction n with
  | zero => exact fun _ => rfl
  | succ n ih => intro s; rw [State.sendBits, ih, State.sendBit_mem]

theorem State.receiveBit_mem (s : State) : s.receiveBit.dev.mem = s.dev.mem := by
  simp only [State.receiveBit]
  show (State.delayShort _).dev.mem = _
  simp [State.drive_mem]

theorem State.receiveBits_mem (n : Nat) : ∀ s : State, (s.receiveBits n).dev.mem = s.dev.mem := by
  induction n with
  | zero => exact fun _ => rfl
  | succ n ih => intro s; rw [State.receiveBits, ih, State.receiveBit_mem]

theorem State.receiveByte_mem (s : State) : s.receiveByte.dev.mem = s.dev.mem := State.receiveBits_mem 8 { s with bitcnt := 8 }

theorem State.receiveTurns_mem (n : Nat) : ∀ s : State, (s.receiveTurns n).dev.mem = s.dev.mem := by
  induction n with
  | zero => exact fun _ => rfl
  | succ n ih =>
    intro s
    rw [State.receiveTurns_succ, ih]
    exact State.receiveByte_mem s

end Sys2Proof.Machine
end

