-- ==== Sys2Proof/Laws/FirstPoll.lean ====
section
/-! SUPPORT. The first poll of a wait inside a command, in all its outcomes (43_composite_commands.md R193, R194, 41_basic_commands.md
R151), and where WriteBlock's loop leaves the bus. -/

namespace Sys2Proof.Machine

/-- POLL_LIMIT is at least 1 (00_scope.md R8): the first poll reaches it only when it is 1. -/
theorem limitReached_one {p : Params} : limitReached p 1 = true ↔ p.pollLimit = some 1 := by
  rw [limitReached_iff]
  constructor
  · rintro ⟨l, h, hl⟩
    have : 1 ≤ l := by
      simp only [Params.pollLimit, Option.map_eq_some_iff] at h
      obtain ⟨k, -, rfl⟩ := h
      omega
    rw [h]
    congr 1
    omega
  · intro h
    exact ⟨1, h, Nat.le_refl _⟩

theorem State.rawLevel_ready {s : State} (h : s.params.rawPollShowsBusy = true) :
    s.rawLevel = s.params.readyLevel ↔ s.dev.tick.busy = false := by
  simp only [State.rawLevel, h, if_true, rawPollLevel]
  cases s.dev.tick.busy <;> cases s.params.readyLevel <;> simp

theorem Dev.openRaw_tick (d : Dev) : Dev.tick { d.ticks 43 with frame := bitsOfByte 0x05, heardBusy := (d.ticks 2).busy } =
    { d.ticks 44 with frame := bitsOfByte 0x05, heardBusy := (d.ticks 2).busy } := by
  have := Dev.ticks_withHeard (d.ticks 43) (bitsOfByte 0x05) (d.ticks 2).busy 1
  rw [Dev.ticks_ticks] at this
  exact this

/-- A CompletionWait by status frames, begun: its first poll ends the command well, ends it with DeviceTimeout, or goes on. -/
theorem State.completionWait_status {x : State} {op : Op} (ho : x.opr = some op) :
    ∃ r, r.getLsbD 0 = (x.dev.ticks 44).busy ∧
      (let t := x.completionWait .pollStatus State.closing
       t.st = r ∧ t.pollcnt = 1 ∧ t.ph = .idle ∧ t.cs = true ∧ t.sck = false ∧
        (r.getLsbD 0 = false → t.opr = none ∧ t.err = .ok ∧
          t.trace = x.trace ++ statusFrameEvents x.params r ++ opcodeFrameEvents x.params 0x04) ∧
        (r.getLsbD 0 = true → x.params.pollLimit = some 1 → t.opr = none ∧ t.err = .deviceTimeout ∧
          t.trace = x.trace ++ statusFrameEvents x.params r) ∧
        (r.getLsbD 0 = true → x.params.pollLimit ≠ some 1 → t.opr = some op ∧ t.trace = x.trace ++ statusFrameEvents x.params r)) := by
  have hn : x.startPolls.statusNow.getLsbD 0 = (x.dev.ticks 44).busy := x.startPolls.busyBit_statusNow
  refine ⟨x.startPolls.statusNow, hn, ?_⟩
  have hf := State.statusPoll_run x.startPolls
  simp only [State.completionWait]
  rw [hf]
  have hd : x.startPolls.dev = x.dev := rfl
  have hp : x.startPolls.params = x.params := rfl
  have h0 : x.startPolls.pollcnt + 1 = 1 := rfl
  rw [hd, hp, h0]
  generalize x.startPolls.statusNow = r at *
  generalize x.dev.ticks 86 = y
  generalize x.dev.ticks 2 = y2
  by_cases hb : (x.dev.ticks 44).busy = false
  · rw [if_pos hb]
    simp only [afterPoll]
    rw [State.closing_eq]
    refine ⟨rfl, rfl, rfl, rfl, rfl, fun _ => ⟨rfl, rfl, rfl⟩, fun h => ?_, fun h => ?_⟩ <;>
    · rw [hn, hb] at h; cases h
  · rw [if_neg hb]
    have hb' : r.getLsbD 0 = true := by rw [hn]; simpa using hb
    by_cases hl : limitReached x.params 1 = true
    · rw [if_pos hl]
      simp only [afterPoll]
      refine ⟨by trivial, by trivial, by trivial, by trivial, by trivial, fun h => ?_, fun _ _ => ⟨rfl, rfl, rfl⟩, fun _ h => absurd (limitReached_one.1 hl) h⟩
      rw [hb'] at h; cases h
    · rw [if_neg hl]
      simp only [afterPoll]
      refine ⟨by trivial, by trivial, by trivial, by trivial, by trivial, fun h => ?_, fun _ h => absurd (limitReached_one.2 h) hl, fun _ _ => ⟨ho, rfl⟩⟩
      rw [hb'] at h; cases h

/-- The same by raw polls. -/
theorem State.completionWait_raw {x : State} {op : Op} (ho : x.opr = some op) :
    ∃ b, (x.params.rawPollShowsBusy = true → (b = x.params.readyLevel ↔ (x.dev.ticks 44).busy = false)) ∧
      (let t := x.completionWait .waitUntilReady State.closing
       t.pollcnt = 1 ∧ t.st = x.st ∧ t.sck = false ∧
        (b = x.params.readyLevel → t.opr = none ∧ t.err = .ok ∧ t.ph = .idle ∧ t.cs = true ∧
          t.trace = x.trace ++ selectEvents x.params ++ sendEvents 0x05 ++ [.sample b] ++ deselectEvents x.params ++
            opcodeFrameEvents x.params 0x04) ∧
        (b ≠ x.params.readyLevel → x.params.pollLimit = some 1 → t.opr = none ∧ t.err = .deviceTimeout ∧ t.ph = .idle ∧ t.cs = true ∧
          t.trace = x.trace ++ selectEvents x.params ++ sendEvents 0x05 ++ [.sample b] ++ deselectEvents x.params) ∧
        (b ≠ x.params.readyLevel → x.params.pollLimit ≠ some 1 → t.opr = some op ∧ t.ph = .dataPhase ∧ t.cs = false ∧
          t.trace = x.trace ++ selectEvents x.params ++ sendEvents 0x05 ++ [.sample b])) := by
  obtain ⟨u, hu⟩ : ∃ u, u = x.openRawPoll := ⟨_, rfl⟩
  have hue := hu
  rw [State.openRawPoll_eq] at hue
  have hr := State.rawPoll_eq (s := u) (by rw [hue]) (by rw [hue]) (by rw [hue])
  have hd : u.dev.tick = { x.dev.ticks 44 with frame := bitsOfByte 0x05, heardBusy := (x.dev.ticks 2).busy } := by
    rw [hue]; exact Dev.openRaw_tick x.dev
  have hpar : u.params = x.params := by rw [hue]
  have hpc : u.pollcnt = 0 := by rw [hue]
  refine ⟨u.rawLevel, fun hp => ?_, ?_⟩
  · have := State.rawLevel_ready (s := u) (by rw [hpar]; exact hp)
    rw [hpar, hd] at this
    exact this
  simp only [State.completionWait]
  rw [← hu, hr]
  have hv : u.verdict (u.rawLevel == u.params.readyLevel) =
      if u.rawLevel = x.params.readyLevel then .ready else if x.params.pollLimit = some 1 then .timedOut else .busy := by
    simp only [State.verdict, hpar, hpc, Nat.zero_add, beq_iff_eq, limitReached_one]
  rw [hv]
  generalize u.rawLevel = b
  generalize u.rawDraws = w
  generalize u.dev.ticks 4 = y
  generalize u.dev.tick = y1
  by_cases hb : b = x.params.readyLevel
  · rw [if_pos hb]
    simp only [afterPoll]
    rw [State.closing_eq, hue]
    exact ⟨rfl, rfl, rfl, fun _ => ⟨rfl, rfl, rfl, rfl, rfl⟩, fun h => absurd hb h, fun h => absurd hb h⟩
  · rw [if_neg hb]
    by_cases hl : x.params.pollLimit = some 1
    · rw [if_pos hl]
      simp only [afterPoll]
      rw [hue]
      exact ⟨rfl, rfl, rfl, fun h => absurd h hb, fun _ _ => ⟨rfl, rfl, rfl, rfl, rfl⟩, fun _ h => absurd hl h⟩
    · rw [if_neg hl]
      simp only [afterPoll]
      rw [hue]
      exact ⟨rfl, rfl, rfl, fun h => absurd h hb, fun _ h => absurd h hl, fun _ _ => ⟨ho, rfl, rfl, rfl⟩⟩

theorem State.statusPoll_end (s : State) : s.statusPoll.2.ph = .idle ∧ s.statusPoll.2.cs = true ∧ s.statusPoll.2.sck = false := by
  rw [State.statusPoll_run]
  generalize s.dev.ticks 86 = y
  generalize s.dev.ticks 2 = y2
  exact ⟨rfl, rfl, rfl⟩

/-- WriteBlock's loop moves IDX on, keeps ADDR and LEN, and leaves the bus deselected and idle, waiting or not. -/
theorem State.blockLoop_ends (k : Nat) : ∀ v : State, v.idx.toNat + k ≤ v.len.toNat → v.ph = .idle → v.cs = true → v.sck = false →
    let t := State.blockLoop k v
    v.idx.toNat ≤ t.idx.toNat ∧ t.ph = .idle ∧ t.cs = true ∧ t.sck = false ∧ t.addr = v.addr ∧ t.len = v.len := by
  induction k with
  | zero =>
    intro v _ _ _ _
    have e := v.closing_eq
    show _ ≤ v.closing.idx.toNat ∧ _
    simp only [State.blockLoop]
    rw [e]
    exact ⟨Nat.le_refl _, rfl, rfl, rfl, rfl, rfl⟩
  | succ k ih =>
    intro v hv h1 h2 h3
    have hlen := v.len.isLt
    simp only [State.blockLoop]
    split
    · have hc := State.statusPoll_end v.blockByte
      have hk := v.blockStep_keeps
      generalize v.blockByte.statusPoll = p at *
      obtain ⟨_ | _ | _, t⟩ := p
      · have hti : t.nextByte.idx.toNat = v.idx.toNat + 1 := by rw [State.nextByte_idx, hk.2.1, len_succ_toNat (by omega)]
        have := ih t.nextByte (by rw [hti, State.nextByte_len, hk.1.len]; omega) hc.1 hc.2.1 hc.2.2
        rw [hti, State.nextByte_addr, State.nextByte_len, hk.1.len, hk.1.addr] at this
        exact ⟨by have := this.1; simp only [afterPoll]; omega, this.2⟩
      · exact ⟨by show _ ≤ t.idx.toNat; rw [hk.2.1], hc.1, hc.2.1, hc.2.2, hk.1.addr, hk.1.len⟩
      · exact ⟨by show _ ≤ t.idx.toNat; rw [hk.2.1], hc.1, hc.2.1, hc.2.2, hk.1.addr, hk.1.len⟩
    · exact ⟨Nat.le_refl _, h1, h2, h3, rfl, rfl⟩

end Sys2Proof.Machine
end

