-- ==== Sys2Proof/Laws/Latch.lean ====
section
/-! SUPPORT. The write-enable latch: nothing but a frame 0x04 that DEV takes clears it (20_memory.md R77, R85). -/

namespace Sys2Proof.Machine

/-- The latch is set. -/
def State.Latched (s : State) : Prop := s.dev.wel = true

theorem State.commit_wel {s : State} (hf : frameOfBits s.dev.frame ≠ some .writeDisable) (hw : State.Latched s) : State.Latched s.commit := by
  unfold State.Latched at *
  cases h : frameOfBits s.dev.frame with
  | none => simp only [State.commit, h]; exact hw
  | some c =>
    rw [State.commit_of_frame h]
    split
    · cases c <;> first | exact absurd h hf | exact hw | rfl
    · exact hw

theorem State.deselect_wel {s : State} (hf : frameOfBits s.dev.frame ≠ some .writeDisable) (hw : State.Latched s) : State.Latched s.deselect := by
  have := State.commit_wel (s := s.tick) (by simpa using hf) ((Dev.tick_wel s.dev).trans hw)
  show s.deselect.dev.wel = true
  rw [State.deselect_dev, Dev.ticks_wel]
  exact this

theorem State.drive_wel (s : State) (l : Line) (v : Bool) (h : ¬ (l = .cs ∧ v = true)) : (s.drive l v).dev.wel = s.dev.wel := by
  cases l <;> cases v
  · rw [State.drive_cs_low_dev]; simp
  · exact absurd ⟨rfl, rfl⟩ h
  · rw [State.drive_sck_low_dev]; simp
  · cases hc : s.cs
    · exact (State.drive_sck_high_clocked hc).wel
    · have : (s.drive .sck true).dev = s.dev.tick := by simp [State.drive, State.react, hc]
      rw [this, Dev.tick_wel]
  · rw [State.drive_di_dev]; simp
  · rw [State.drive_di_dev]; simp

theorem State.sendBit_wel (s : State) : s.sendBit.dev.wel = s.dev.wel := by
  simp only [State.sendBit]
  show (State.delayShort _).dev.wel = _
  simp [State.drive_wel]

theorem State.sendBits_wel (n : Nat) : ∀ s : State, (s.sendBits n).dev.wel = s.dev.wel := by
  induction n with
  | zero => exact fun _ => rfl
  | succ n ih => intro s; rw [State.sendBits, ih, State.sendBit_wel]

theorem State.receiveBit_wel (s : State) : s.receiveBit.dev.wel = s.dev.wel := by
  simp only [State.receiveBit]
  show (State.delayShort _).dev.wel = _
  simp [State.drive_wel]

theorem State.receiveBits_wel (n : Nat) : ∀ s : State, (s.receiveBits n).dev.wel = s.dev.wel := by
  induction n with
  | zero => exact fun _ => rfl
  | succ n ih => intro s; rw [State.receiveBits, ih, State.receiveBit_wel]

theorem State.receiveByte_wel (s : State) : s.receiveByte.dev.wel = s.dev.wel := State.receiveBits_wel 8 { s with bitcnt := 8 }

theorem State.receiveTurns_wel (n : Nat) : ∀ s : State, (s.receiveTurns n).dev.wel = s.dev.wel := by
  induction n with
  | zero => exact fun _ => rfl
  | succ n ih =>
    intro s
    rw [State.receiveTurns_succ, ih]
    exact State.receiveByte_wel s

theorem State.statusPoll_wel (s : State) : s.statusPoll.2.dev.wel = s.dev.wel := by
  rw [State.statusPoll_run]
  have := s.dev.ticks_wel 86
  generalize s.dev.ticks 86 = y at *
  exact this

theorem State.rawPoll_wel {s : State} (hf : frameOfBits s.dev.frame ≠ some .writeDisable) (hw : State.Latched s) : State.Latched s.rawPoll.2 := by
  have h1 : State.Latched s.rawSample := by
    show s.afterSample.dev.wel = true
    rw [State.afterSample_dev, Dev.tick_wel]; exact hw
  have h2 : s.rawSample.dev.frame = s.dev.frame := by
    show s.afterSample.dev.frame = _
    rw [State.afterSample_dev, Dev.tick_frame]
  simp only [State.rawPoll]
  split
  · exact h1
  · exact State.deselect_wel (by rw [h2]; exact hf) h1

theorem State.openRawPoll_wel {s : State} (hw : State.Latched s) : State.Latched s.openRawPoll.rawPoll.2 := by
  refine State.rawPoll_wel ?_ ?_
  · rw [s.openRawPoll_eq]
    have := frameOfBits_bytes decodeFrame_rawPoll
    rw [show bitsOfBytes [0x05] = bitsOfByte 0x05 by simp [bitsOfBytes]] at this
    show frameOfBits (bitsOfByte 0x05) ≠ _
    rw [this]; simp
  · show s.openRawPoll.dev.wel = true
    rw [s.openRawPoll_eq]
    have := s.dev.ticks_wel 43
    generalize s.dev.ticks 43 = y at *
    exact this.trans hw

theorem Dev.latchAfterEnable_set {d : Dev} (hw : d.wel = true) : d.latchAfterEnable = true := by
  simp only [Dev.latchAfterEnable]; split <;> [exact hw; rfl]

theorem State.programFrames_wel {s : State} (a : Addr) (v : Byte) (ha : a.toNat < Config.flashSize) (hw : State.Latched s) : State.Latched (s.programFrames a v) := by
  show (s.programFrames a v).dev.wel = true
  rw [(s.programFrames_dev a v ha).1]
  split
  · rw [Dev.ticks_wel]
  · exact Dev.latchAfterEnable_set hw

theorem State.eraseFrames_wel {s : State} (a : Addr) (ha : a.toNat < Config.flashSize) (hw : State.Latched s) : State.Latched ((s.opcodeFrame 0x06).addressFrame 0xD8 a) := by
  show ((s.opcodeFrame 0x06).addressFrame 0xD8 a).dev.wel = true
  rw [(s.eraseFrames_dev a ha).1]
  split
  · rw [Dev.ticks_wel]
  · exact Dev.latchAfterEnable_set hw

theorem State.writeStatusFrames_wel {s : State} (v : Byte) (hw : State.Latched s) : State.Latched ((s.opcodeFrame 0x06).dataFrame 0x01 v) := by
  show ((s.opcodeFrame 0x06).dataFrame 0x01 v).dev.wel = true
  rw [(s.writeStatusFrames_dev v).1]
  split
  · rw [Dev.ticks_wel]
  · exact Dev.latchAfterEnable_set hw

end Sys2Proof.Machine
end

