-- ==== Sys2Proof/Laws/PerInstr.lean ====
section
/-! SUPPORT. Per instruction: what HOST writes for it is well formed at the port (30_encoding.md R109, R111). -/

namespace Sys2Proof.Laws.EncodeWellFormed

/-- The command that is written for an instruction passes the port's check (30_encoding.md R109). -/
def Statement (i : Instr) : Prop := (encode i).wellFormed = true

/-- An address fits its 24 bits. -/
theorem fits_address (a : Addr) : Operand.address.fits a.toNat = true := decide_eq_true a.isLt
/-- A length fits its 16 bits. -/
theorem fits_length (n : Len) : Operand.length.fits n.toNat = true := decide_eq_true n.isLt
/-- A value fits its 8 bits. -/
theorem fits_value (v : Byte) : Operand.value.fits v.toNat = true := decide_eq_true v.isLt
/-- A buffer reference has no width. -/
theorem fits_buffer (r : Nat) : Operand.buffer.fits r = true := rfl

theorem select : Statement .select := rfl
theorem deselect : Statement .deselect := rfl
theorem sendByte (value : Byte) : Statement (.sendByte value) := by
  simp [Statement, encode, Presented.wellFormed, Presented.operandOk, Presented.get, Op.takes, fits_value value]
theorem receiveByte : Statement .receiveByte := rfl
theorem receiveBytes (count : Len) (buf : BufRef) : Statement (.receiveBytes count buf) := by
  simp [Statement, encode, Presented.wellFormed, Presented.operandOk, Presented.get, Op.takes, fits_length count, fits_buffer]
theorem init : Statement .init := rfl
theorem disable : Statement .disable := rfl
theorem readStatus : Statement .readStatus := rfl
theorem waitUntilReady : Statement .waitUntilReady := rfl
theorem writeEnable : Statement .writeEnable := rfl
theorem writeDisable : Statement .writeDisable := rfl
theorem readBlock (addr : Addr) (n : Len) (buf : BufRef) : Statement (.readBlock addr n buf) := by
  simp [Statement, encode, Presented.wellFormed, Presented.operandOk, Presented.get, Op.takes, fits_address addr, fits_length n, fits_buffer]
theorem writeByte (addr : Addr) (value : Byte) : Statement (.writeByte addr value) := by
  simp [Statement, encode, Presented.wellFormed, Presented.operandOk, Presented.get, Op.takes, fits_address addr, fits_value value]
theorem writeStatus (value : Byte) : Statement (.writeStatus value) := by
  simp [Statement, encode, Presented.wellFormed, Presented.operandOk, Presented.get, Op.takes, fits_value value]
theorem eraseBlock (addr : Addr) : Statement (.eraseBlock addr) := by
  simp [Statement, encode, Presented.wellFormed, Presented.operandOk, Presented.get, Op.takes, fits_address addr]
theorem writeBlock (addr : Addr) (buf : BufRef) (n : Len) : Statement (.writeBlock addr buf n) := by
  simp [Statement, encode, Presented.wellFormed, Presented.operandOk, Presented.get, Op.takes, fits_address addr, fits_length n, fits_buffer]

end Sys2Proof.Laws.EncodeWellFormed
end

