-- ==== Sys2Proof/Laws/Stops.lean ====
section
/-! SUPPORT. Which frames of HOST's own have no meaning (93_implementation_defined.md U5, U14): what `Dev.closeStops` and
`State.blockAnswer` say, in the terms of the frame's bytes; and what a `deselect` that runs leaves. -/

namespace Sys2Proof.Machine

/-! ### A frame of no format -/

/-- Why bytes are no frame of R101: no byte, a reserved opcode, or the wrong length behind one of the seven. -/
theorem decodeFrame_error {bytes : List Byte} {e : FrameError} (h : decodeFrame bytes = .error e) :
    (bytes = [] ∧ e = .empty) ∨ ∃ b rest, bytes = b :: rest ∧
      ((isOpcode b = false ∧ e = .reservedOpcode b) ∨ (isOpcode b = true ∧ e = .wrongLength b)) := by
  cases bytes with
  | nil => left; simp [decodeFrame] at h; exact ⟨rfl, h.symm⟩
  | cons b rest =>
    right
    refine ⟨b, rest, rfl, ?_⟩
    revert h
    have hS : ∀ l, frameStatus l = .error e → e = .wrongLength 0x05 := by intro l; unfold frameStatus; split <;> simp [eq_comm]
    have hO : ∀ o k l, frameO o k l = .error e → e = .wrongLength o := by intro o k l; unfold frameO; split <;> simp [eq_comm]
    have hW : ∀ l, frameOW l = .error e → e = .wrongLength 0x01 := by intro l; unfold frameOW; split <;> simp [eq_comm]
    have hA : ∀ l, frameOA l = .error e → e = .wrongLength 0xD8 := by intro l; unfold frameOA; split <;> simp [eq_comm]
    have hAW : ∀ l, frameOAW l = .error e → e = .wrongLength 0x02 := by intro l; unfold frameOAW; split <;> simp [eq_comm]
    have hAR : ∀ l, frameOAR l = .error e → e = .wrongLength 0x03 := by intro l; unfold frameOAR; split <;> [split; skip] <;> simp [eq_comm]
    simp only [decodeFrame]
    repeat' split
    all_goals first
      | (rename_i hb; subst hb; intro h; right; refine ⟨rfl, ?_⟩; first | exact hS _ h | exact hO _ _ _ h | exact hW _ h | exact hA _ h | exact hAW _ h | exact hAR _ h)
      | (intro h; left; refine ⟨?_, ?_⟩
         · simp only [isOpcode, List.contains_cons, List.contains_nil, Bool.or_eq_false_iff, beq_eq_false_iff_ne, ne_eq]; simp_all
         · simpa [eq_comm] using h)

theorem bytes_of_frame {bits : List Bool} {c : FrameCmd} (h : frameOfBits bits = some c) :
    ∃ vs, bytesOfBits bits = some vs ∧ decodeFrame vs = .ok c := by
  simp only [frameOfBits] at h
  split at h
  · simp at h
  · rename_i vs hv
    refine ⟨vs, hv, ?_⟩
    cases hd : decodeFrame vs with
    | error e => simp [hd, Except.toOption] at h
    | ok x => simp [hd, Except.toOption] at h; rw [h]

/-- A frame of R101 closes, unless it is a read past the end of the array. -/
theorem closeStops_of_frame {d : Dev} {c : FrameCmd} (h : frameOfBits d.frame = some c) :
    d.closeStops = match c with
      | .read a n => if d.heardBusy = false ∧ 0 < n.toNat ∧ Config.flashSize < a.toNat + n.toNat then some .pastArrayEnd else none
      | _ => none := by
  obtain ⟨vs, hv, hd⟩ := bytes_of_frame h
  simp only [Dev.closeStops, hv, hd]
  cases c <;> rfl

/-- A frame of no format is refused, unless DEV is busy and it is no status read (20_memory.md R82). -/
theorem closeStops_of_none {d : Dev} (h : frameOfBits d.frame = none) :
    d.closeStops =
      match bytesOfBits d.frame with
      | some (b :: _) =>
        if isOpcode b then if d.busy ∧ b ≠ 0x05 then none else some .wrongFrameLength
        else if d.busy then none else some (.reservedOpcode b)
      | _ => if d.busy then none else some .wrongFrameLength := by
  simp only [Dev.closeStops]
  cases hv : bytesOfBits d.frame with
  | none => rfl
  | some vs =>
    simp only
    cases hd : decodeFrame vs with
    | ok c => simp [frameOfBits, hv, hd, Except.toOption] at h
    | error e =>
      obtain ⟨rfl, rfl⟩ | ⟨b, rest, rfl, ⟨hb, rfl⟩ | ⟨hb, rfl⟩⟩ := decodeFrame_error hd
      · rfl
      · simp [hb]
      · simp [hb]

/-! ### A `deselect` -/

theorem deselect_runs {s : State} (h1 : s.opr = none) (h2 : s.dir = .master) (h3 : s.ph ≠ .idle) (h4 : s.ph ≠ .deselected)
    (h5 : s.ph ≠ .selected) : exec .deselect s = runUnless s.dev.tick.closeStops ((s.start .deselect).deselect.finish .ok none) := by
  have hb : s.blockInFrame = none := by simp [State.blockInFrame, h1, h2, h3, h4]
  have he : s.blockEmpty = none := by simp [State.blockEmpty, h5]
  simp only [exec, execDeselect, hb, he, Option.none_or]

/-- What it leaves in SEQ, whatever the frame. -/
theorem deselect_closes {s t : State} (h1 : s.opr = none) (h2 : s.dir = .master) (h : exec .deselect s = .next t) :
    ∃ d w, t = { s with
      cs := true, sck := false, ph := .idle, bufRef := none, err := .ok, ret := none
      trace := s.trace ++ [.drive .cs true, .drive .sck false, .delayUs s.params.tDeselect], dev := d, draws := w } ∧ d.frame = [] := by
  obtain ⟨-, rfl⟩ := runUnless_next h
  refine ⟨(s.start .deselect).deselect.dev, (s.start .deselect).deselect.draws, ?_, State.deselect_frame _⟩
  have e := (BusRun.refl (s := s.start .deselect)).deselect.eq
  simp only [State.deselect_cs, State.deselect_sck, State.deselect_di, State.deselect_sr, State.deselect_bitcnt, State.deselect_ph, State.deselect_st,
    State.deselect_trace] at e
  rw [e]
  generalize (s.start .deselect).deselect.dev = d
  generalize (s.start .deselect).deselect.draws = w
  obtain ⟨⟩ := s
  simp only at h1
  subst h1
  rfl

/-- What it leaves in DEV: the commit, and two more events. -/
theorem deselect_next {s t : State} (h : exec .deselect s = .next t) :
    t.dev = s.tick.commit.dev.ticks 2 ∧ s.dev.tick.closeStops = none := by
  obtain ⟨hb, rfl⟩ := runUnless_next h
  refine ⟨?_, ?_⟩
  · show (s.start .deselect).deselect.dev = _
    rw [State.deselect_dev]
    have := State.commit_congr (s := (s.start .deselect).tick) (t := s.tick) rfl rfl rfl
    rw [this.1]
  · simpa using (Option.or_eq_none_iff.1 hb).2

/-! ### A receive -/

theorem readsPastEnd_iff (b : Byte) (rest : List Byte) :
    ReadsPastEnd (b :: rest) ↔
      b = 0x03 ∧ 3 < rest.length ∧ Config.flashSize < (frameAddr (bitsOfBytes (b :: rest))).toNat + (rest.length - 3) := by
  constructor
  · rintro ⟨a, more, h, hm, ha⟩
    obtain ⟨rfl, rfl⟩ : b = 0x03 ∧ rest = addrBytes a ++ more := by simpa using h
    rw [frameAddr_bits]
    have hl : (addrBytes a ++ more).length = 3 + more.length := by simp [addrBytes]; omega
    have : 0 < more.length := List.length_pos_iff.2 hm
    exact ⟨rfl, by omega, by rw [hl]; omega⟩
  · rintro ⟨rfl, hl, ha⟩
    obtain ⟨a2, a1, a0, more, rfl⟩ : ∃ a2 a1 a0 more, rest = a2 :: a1 :: a0 :: more := by
      match rest, hl with
      | a2 :: a1 :: a0 :: more, _ => exact ⟨a2, a1, a0, more, rfl⟩
    have e : a2 :: a1 :: a0 :: more = addrBytes (addrOfBytes a2 a1 a0) ++ more := by rw [addrBytes_addrOfBytes]; rfl
    rw [e, frameAddr_bits] at ha
    refine ⟨addrOfBytes a2 a1 a0, more, by rw [addrBytes_addrOfBytes]; rfl, ?_, ?_⟩
    · rintro rfl; simp at hl
    · have : (addrBytes (addrOfBytes a2 a1 a0) ++ more).length - 3 = more.length := by simp [addrBytes]
      rw [this] at ha
      exact ha

theorem asksTwice_iff (b : Byte) (rest : List Byte) : AsksTwice (b :: rest) ↔ b = 0x05 ∧ 2 ≤ rest.length := by
  constructor
  · rintro ⟨x, y, more, h⟩
    obtain ⟨rfl, rfl⟩ : b = 0x05 ∧ rest = x :: y :: more := by simpa using h
    simp
  · rintro ⟨rfl, h⟩
    match rest, h with
    | x :: y :: more, _ => exact ⟨x, y, more, rfl⟩

/-- The bits DEV clocks in while SEQ receives are whole bytes. -/
theorem bitsOfBytes_held (n : Nat) (b : Bool) : bitsOfBytes (List.replicate n (heldByte b)) = List.replicate (8 * n) b := by
  induction n with
  | zero => rfl
  | succ n ih => rw [List.replicate_succ, bitsOfBytes_cons, ih, heldByte_bits, List.replicate_append_replicate]; congr 1; omega

/-- When `n` more bytes may be received behind whole bytes, and why not. -/
theorem blockAnswer_bytes {s : State} {vs : List Byte} (hf : s.dev.frame = bitsOfBytes vs) (hv : vs ≠ []) (n : Nat) :
    (AsksTwice (vs ++ List.replicate n (heldByte s.di)) → s.blockAnswer n = some .secondStatusByte) ∧
    (¬ AsksTwice (vs ++ List.replicate n (heldByte s.di)) →
      (s.dev.heardBusy = false → ReadsPastEnd (vs ++ List.replicate n (heldByte s.di)) → s.blockAnswer n = some .pastArrayEnd) ∧
      ((s.dev.heardBusy = false → ¬ ReadsPastEnd (vs ++ List.replicate n (heldByte s.di))) → s.blockAnswer n = none)) := by
  obtain ⟨b, rest, rfl⟩ := List.exists_cons_of_ne_nil hv
  rw [List.cons_append]
  have hb : s.dev.frame ++ List.replicate (8 * n) s.di = bitsOfBytes (b :: (rest ++ List.replicate n (heldByte s.di))) := by
    rw [hf, ← bitsOfBytes_held, ← bitsOfBytes_append]; rfl
  have hl := bitsOfBytes_length (b :: (rest ++ List.replicate n (heldByte s.di)))
  rw [List.length_cons] at hl
  rw [asksTwice_iff, readsPastEnd_iff]
  simp only [State.blockAnswer, hb, frameByte_bits_cons_zero, hl]
  generalize (rest ++ List.replicate n (heldByte s.di)).length = m
  refine ⟨fun h => if_pos ⟨h.1, by omega⟩, fun h => ?_⟩
  rw [if_neg (fun k => h ⟨k.1, by omega⟩)]
  have e : (8 * (m + 1) - 32) / 8 = m - 3 := by omega
  rw [e]
  refine ⟨fun h1 h2 => if_pos ⟨h2.1, by omega, h1, h2.2.2⟩, fun h1 => if_neg fun k => h1 k.2.2.1 ⟨k.1, by omega, k.2.2.2⟩⟩

end Sys2Proof.Machine
end

