-- ==== Sys2Proof/Tests/Slice0.lean ====
section
/-! SUPPORT. Tests. Expected results come from spec/95_test_vectors.md (the vector is named at each test) or from the encodings of
30_encoding.md. The last part shows, for every statement with hypotheses, states and operands that meet them. -/

namespace Sys2Proof.Tests

open Sys2Proof.Machine

/-! ### Helpers -/

/-- Parameters for the tests: WEL_BIT = 1, READY_LEVEL = 1, no limit, no waits, BUSY shown in the raw poll, BLOCK_SIZE = 256. -/
def pars : Params where
  extraPolls := none
  readyLevel := true
  welIndex := 0
  eraseWait := .none
  wrsrWait := .none
  rawPollShowsBusy := true
  blockLog := 8
  tBit := 1
  tSelect := 10
  tDeselect := 10
  tProgram := 10

/-- A ready machine after `init`: DEV ready with MEM[0x012345] = 0xDE, MEM[0x012346] = 0xAD, status bits drawn as 0, busy cycles
over after no event. -/
def ready : State :=
  { State.reset with
    dir := .master, cs := true, params := pars, bufs := [[0, 0]]
    dev := { Dev.reset with mem := [(0x012345, 0xDE), (0x012346, 0xAD)] }
    draws := { levels := [], srxs := [0, 0], latencies := [some 0, some 0], visits := [none], count := 0 } }

/-- The same machine in a frame that HOST has opened, the given bytes sent. -/
def framed (vs : List Byte) (p : Phase) : State :=
  { ready with cs := false, ph := p, dev := { ready.dev with frame := bitsOfBytes vs } }

/-- A busy DEV that never completes. -/
def dead : State := { ready with dev := { ready.dev with busy := true, wel := true, left := none } }

/-- The next state of an instruction, if there is one. -/
def ran (i : Instr) (s : State) : Option State :=
  match exec i s with
  | .next t => some t
  | _ => none

/-- The refusal of an instruction, if it is refused. -/
def refusal (r : Result) : Option Refusal :=
  match r with
  | .refused e => some e
  | _ => none

theorem next_of_ran {i : Instr} {s : State} (h : (ran i s).isSome = true) : ∃ t, exec i s = .next t := by
  simp only [ran] at h
  split at h
  · exact ⟨_, ‹_›⟩
  · simp at h

/-! ### WellFormed (30_encoding.md R109, R111, 70_reset_and_hazards.md R251): one ill-formed term for each check -/

theorem test_port_missing_address :
    Presented.wellFormed { op := .eraseBlock } = false ∧ decode { op := .eraseBlock } = .error (.missing .address) := ⟨rfl, rfl⟩
theorem test_port_missing_length :
    Presented.wellFormed { op := .receiveBytes, buffer := some 0 } = false ∧
      decode { op := .receiveBytes, buffer := some 0 } = .error (.missing .length) := ⟨rfl, rfl⟩
theorem test_port_missing_value :
    Presented.wellFormed { op := .sendByte } = false ∧ decode { op := .sendByte } = .error (.missing .value) := ⟨rfl, rfl⟩
theorem test_port_missing_buffer :
    Presented.wellFormed { op := .readBlock, address := some 0, length := some 0 } = false ∧
      decode { op := .readBlock, address := some 0, length := some 0 } = .error (.missing .buffer) := ⟨rfl, rfl⟩
theorem test_port_extra_address :
    Presented.wellFormed { op := .readStatus, address := some 0 } = false ∧
      decode { op := .readStatus, address := some 0 } = .error (.notTaken .address) := ⟨rfl, rfl⟩
theorem test_port_extra_length :
    Presented.wellFormed { op := .init, length := some 0 } = false ∧
      decode { op := .init, length := some 0 } = .error (.notTaken .length) := ⟨rfl, rfl⟩
theorem test_port_extra_value :
    Presented.wellFormed { op := .eraseBlock, address := some 0, value := some 0 } = false ∧
      decode { op := .eraseBlock, address := some 0, value := some 0 } = .error (.notTaken .value) := ⟨rfl, rfl⟩
theorem test_port_extra_buffer :
    Presented.wellFormed { op := .writeByte, address := some 0, value := some 0, buffer := some 0 } = false ∧
      decode { op := .writeByte, address := some 0, value := some 0, buffer := some 0 } = .error (.notTaken .buffer) := ⟨rfl, rfl⟩
/-- A 24-bit address: 0xFFFFFF fits, 0x1000000 does not. -/
theorem test_port_wide_address :
    Presented.wellFormed { op := .eraseBlock, address := some 0x1000000 } = false ∧
      decode { op := .eraseBlock, address := some 0x1000000 } = .error (.tooWide .address) ∧
      decode { op := .eraseBlock, address := some 0xFFFFFF } = .ok (.eraseBlock 0xFFFFFF) := ⟨by decide, rfl, rfl⟩
theorem test_port_wide_length :
    Presented.wellFormed { op := .receiveBytes, length := some 65536, buffer := some 0 } = false ∧
      decode { op := .receiveBytes, length := some 65536, buffer := some 0 } = .error (.tooWide .length) := ⟨by decide, rfl⟩
theorem test_port_wide_value :
    Presented.wellFormed { op := .writeStatus, value := some 256 } = false ∧
      decode { op := .writeStatus, value := some 256 } = .error (.tooWide .value) := ⟨by decide, rfl⟩
theorem test_buffer_too_short :
    Instr.wellFormed [[0, 0]] (.readBlock 0 3 0) = false ∧ Instr.wellFormed [[0, 0]] (.readBlock 0 2 0) = true ∧
      refusal (exec (.writeBlock 0 0 3) ready) = some .bufferTooShort := by decide

/-! ### Decoding at the port (30_encoding.md R111): every operation, its operands written out -/

theorem test_decode_select : decode { op := .select } = .ok .select := rfl
theorem test_decode_deselect : decode { op := .deselect } = .ok .deselect := rfl
theorem test_decode_sendByte : decode { op := .sendByte, value := some 0xB0 } = .ok (.sendByte 0b10110000) := rfl
theorem test_decode_receiveByte : decode { op := .receiveByte } = .ok .receiveByte := rfl
theorem test_decode_receiveBytes : decode { op := .receiveBytes, length := some 2, buffer := some 1 } = .ok (.receiveBytes 2 1) := rfl
theorem test_decode_init : decode { op := .init } = .ok .init := rfl
theorem test_decode_disable : decode { op := .disable } = .ok .disable := rfl
theorem test_decode_readStatus : decode { op := .readStatus } = .ok .readStatus := rfl
theorem test_decode_waitUntilReady : decode { op := .waitUntilReady } = .ok .waitUntilReady := rfl
theorem test_decode_writeEnable : decode { op := .writeEnable } = .ok .writeEnable := rfl
theorem test_decode_writeDisable : decode { op := .writeDisable } = .ok .writeDisable := rfl
theorem test_decode_readBlock :
    decode { op := .readBlock, address := some 0x012345, length := some 2, buffer := some 1 } = .ok (.readBlock 0x012345 2 1) := rfl
theorem test_decode_writeByte :
    decode { op := .writeByte, address := some 0x012345, value := some 0xDE } = .ok (.writeByte 0x012345 0xDE) := rfl
theorem test_decode_writeStatus : decode { op := .writeStatus, value := some 0x1C } = .ok (.writeStatus 0x1C) := rfl
theorem test_decode_eraseBlock : decode { op := .eraseBlock, address := some 0x012345 } = .ok (.eraseBlock 0x012345) := rfl
theorem test_decode_writeBlock :
    decode { op := .writeBlock, address := some 0x3FFFFF, length := some 1, buffer := some 0 } = .ok (.writeBlock 0x3FFFFF 0 1) := rfl

/-! ### Decoding on the wire, bit by bit (30_encoding.md R101 to R106, E2, E8): first bit first -/

/-- `0000_0101` and a byte held by DI: the status read; `0000_0101` alone: the raw poll (R107). -/
theorem test_wire_status :
    frameOfBits [false, false, false, false, false, true, false, true, true, true, true, true, true, true, true, true] =
      some .readStatus ∧
      frameOfBits [false, false, false, false, false, true, false, true] = some .rawPoll := by decide
/-- `0000_0110` and `0000_0100`. -/
theorem test_wire_latch :
    frameOfBits [false, false, false, false, false, true, true, false] = some .writeEnable ∧
      frameOfBits [false, false, false, false, false, true, false, false] = some .writeDisable := by decide
/-- `0000_0001 0001_1100`: WriteStatus(0x1C). -/
theorem test_wire_writeStatus :
    frameOfBits [false, false, false, false, false, false, false, true, false, false, false, true, true, true, false, false] =
      some (.writeStatus 0x1C) := by decide
/-- `0000_0011 0000_0001 0010_0011 0100_0101`: a read of 0 bytes at 0x012345. -/
theorem test_wire_read :
    frameOfBits [false, false, false, false, false, false, true, true, false, false, false, false, false, false, false, true,
      false, false, true, false, false, false, true, true, false, true, false, false, false, true, false, true] =
      some (.read 0x012345 0) := by decide
/-- `0000_0010 0000_0001 0010_0011 0100_0101 1101_1110`: program 0xDE at 0x012345. -/
theorem test_wire_program :
    frameOfBits [false, false, false, false, false, false, true, false, false, false, false, false, false, false, false, true,
      false, false, true, false, false, false, true, true, false, true, false, false, false, true, false, true,
      true, true, false, true, true, true, true, false] = some (.program 0x012345 0xDE) := by decide
/-- `1101_1000 0000_0001 0010_0011 0100_0101`: erase the block of 0x012345. -/
theorem test_wire_erase :
    frameOfBits [true, true, false, true, true, false, false, false, false, false, false, false, false, false, false, true,
      false, false, true, false, false, false, true, true, false, true, false, false, false, true, false, true] =
      some (.erase 0x012345) := by decide
/-- A frame cut short, one byte too long, and a reserved opcode (R108) are no frames. -/
theorem test_wire_refused :
    decodeFrame [0x02, 0x01, 0x23, 0x45] = .error (.wrongLength 0x02) ∧ decodeFrame [0x06, 0x00] = .error (.wrongLength 0x06) ∧
      decodeFrame [0x9F] = .error (.reservedOpcode 0x9F) := ⟨rfl, rfl, rfl⟩
/-- The opcode words of the table; the rows of the primitives have no wire byte. -/
theorem test_table_words :
    decodeTableWord 8 0x05 = some .readStatus ∧ decodeTableWord 8 0x06 = some .writeEnable ∧
      decodeTableWord 8 0x04 = some .writeDisable ∧ decodeTableWord 8 0x01 = some (.writeStatus 0) ∧
      decodeTableWord 8 0x03 = some (.readBlock 0 0 0) ∧ decodeTableWord 8 0x02 = some (.writeByte 0 0) ∧
      decodeTableWord 8 0xD8 = some (.eraseBlock 0) ∧ decodeTableWord 8 0x9F = none ∧
      decodeTableWord 40 0xDE45230102 = some (.writeByte 0x012345 0xDE) := by decide

/-! ### One step of each operation -/

/-- V-A1. -/
theorem test_select :
    (ran .select ready).map (fun t => (t.trace, t.cs, t.sck, t.ph)) =
      some ([.drive .sck false, .drive .cs false, .delayUs 10], false, false, .selected) := by decide
/-- V-A2. -/
theorem test_deselect :
    (ran .deselect (framed [0x06] .opcodeSent)).map (fun t => (t.trace, t.cs, t.sck, t.ph)) =
      some ([.drive .cs true, .drive .sck false, .delayUs 10], true, false, .idle) := by decide +kernel
/-- 20_memory.md R86: the bare opcode 0x9F of a frame that DEV hears has no meaning. -/
theorem test_deselect_reserved : refusal (exec .deselect (framed [0x9F] .opcodeSent)) = some (.reservedOpcode 0x9F) := by decide +kernel
/-- E1: 0b10110000 goes out as 1,0,1,1,0,0,0,0; SR, BITCNT, DI and SCK end at 0; 40 events. -/
theorem test_sendByte_E1 :
    (ran (.sendByte 0b10110000) (framed [] .selected)).map
        (fun t => (t.trace.filterMap fun e => match e with | .drive .di b => some b | _ => none)) =
      some [true, false, true, true, false, false, false, false] := by decide +kernel
/-- V-A3 (0xA5) and the one group of events per bit. -/
theorem test_sendByte_A5 :
    (ran (.sendByte 0xA5) (framed [] .selected)).map (fun t => (t.trace.take 5, t.sr, t.bitcnt, t.di, t.ph)) =
      some ([.drive .di true, .drive .sck true, .delayShort, .drive .sck false, .delayShort], 0, 0, true, .opcodeSent) := by
  decide +kernel
/-- V-A4: samples 1,0,1,0,0,1,0,1 give 0xA5, whatever SR held. -/
theorem test_receiveByte_A5 :
    (ran .receiveByte { framed [0x06] .opcodeSent with
        sr := 0xFF, draws := { ready.draws with levels := [true, false, true, false, false, true, false, true] } }).map
        (fun t => (t.ret, t.sr, t.trace.length, t.trace.take 5)) =
      some (some 0xA5, 0xA5, 40, [.drive .sck true, .delayShort, .sample true, .drive .sck false, .delayShort]) := by decide +kernel
/-- R133, R247: no byte sent in this frame. -/
theorem test_receiveByte_early : refusal (exec .receiveByte (framed [] .selected)) = some .noByteSent := by decide +kernel
/-- V-A5: count = 2, samples of 0xDE then 0xAD. -/
theorem test_receiveBytes :
    (ran (.receiveBytes 2 0) { framed [0x06] .opcodeSent with
        draws := { ready.draws with
          levels := [true, true, false, true, true, true, true, false, true, false, true, false, true, true, false, true] } }).map
        (fun t => (t.bufs, t.trace.length, t.idx)) = some ([[0xDE, 0xAD]], 80, 2) := by decide +kernel
/-- V-A5: count = 0. -/
theorem test_receiveBytes_none :
    (ran (.receiveBytes 0 0) (framed [0x06] .opcodeSent)).map (fun t => (t.bufs, t.trace, t.idx)) = some ([[0, 0]], [], 0) := by
  decide +kernel
/-- V-A6, from reset. -/
theorem test_init :
    (ran .init State.reset).map (fun t => (t.trace, t.dir, t.cs, t.sck, t.ph)) =
      some ([.dir .master], .master, true, false, .idle) := by decide
/-- V-A7, and `ReadStatus` refused behind it. -/
theorem test_disable :
    (ran .disable ready).map (fun t => (t.trace, t.dir, t.cs, t.sck, refusal (exec .readStatus t))) =
      some ([.dir .released], .released, true, false, some .busReleased) := by decide +kernel
/-- 93_implementation_defined.md U2: any operation but `init` while DIR = Released. -/
theorem test_disable_released : refusal (exec .disable State.reset) = some .busReleased := by decide
/-- V-B1: busy, latch set, WEL_BIT = 1: 0x03, 86 events. -/
theorem test_readStatus : (ran .readStatus dead).map (fun t => (t.ret, t.st, t.trace.length)) = some (some 0x03, 0x03, 86) := by
  decide +kernel
/-- V-B1: WEL_BIT = 7, ready, latch set: 0x80. -/
theorem test_readStatus_wel7 :
    (ran .readStatus { ready with params := { pars with welIndex := 6 }, dev := { ready.dev with wel := true } }).map (·.ret) =
      some (some 0x80) := by decide +kernel
/-- V-B3: READY_LEVEL = 1, ready at once: 47 events, POLLCNT = 1, OK. -/
theorem test_waitUntilReady :
    (ran .waitUntilReady ready).map (fun t => (t.trace.length, t.trace[43]?, t.pollcnt, t.err, t.opr)) =
      some (47, some (.sample true), 1, .ok, none) := by decide +kernel
/-- V-B6: POLL_LIMIT = some 1, a dead device: `S >05 ~0 D`, DeviceTimeout, the bus idle. -/
theorem test_waitUntilReady_timeout :
    (ran .waitUntilReady { dead with params := { pars with extraPolls := some 0 } }).map
        (fun t => (t.trace.length, t.trace[43]?, t.err, t.cs, t.ph)) =
      some (47, some (.sample false), .deviceTimeout, true, .idle) := by decide +kernel
/-- V-A8: the 46 events of `S >06 D`, in full, and V-B8: WEL 0 to 1. -/
theorem test_writeEnable :
    (ran .writeEnable ready).map (fun t => (t.trace, t.dev.wel)) =
      some ([.drive .sck false, .drive .cs false, .delayUs 10,
        .drive .di false, .drive .sck true, .delayShort, .drive .sck false, .delayShort,
        .drive .di false, .drive .sck true, .delayShort, .drive .sck false, .delayShort,
        .drive .di false, .drive .sck true, .delayShort, .drive .sck false, .delayShort,
        .drive .di false, .drive .sck true, .delayShort, .drive .sck false, .delayShort,
        .drive .di false, .drive .sck true, .delayShort, .drive .sck false, .delayShort,
        .drive .di true, .drive .sck true, .delayShort, .drive .sck false, .delayShort,
        .drive .di true, .drive .sck true, .delayShort, .drive .sck false, .delayShort,
        .drive .di false, .drive .sck true, .delayShort, .drive .sck false, .delayShort,
        .drive .cs true, .drive .sck false, .delayUs 10], true) := by decide +kernel
/-- V-B9: WEL 1 to 0; a busy device keeps it. -/
theorem test_writeDisable :
    (ran .writeDisable { ready with dev := { ready.dev with wel := true } }).map (fun t => (t.trace.length, t.dev.wel)) =
      some (46, false) ∧
      (ran .writeDisable dead).map (fun t => t.dev.wel) = some true := by decide +kernel
/-- V-C3: two bytes at 0x012345; 246 events. -/
theorem test_readBlock :
    (ran (.readBlock 0x012345 2 0) ready).map (fun t => (t.bufs, t.trace.length, t.addr, t.len, t.idx, t.sr)) =
      some ([[0xDE, 0xAD]], 246, 0x012345, 2, 2, 0xAD) := by decide +kernel
/-- V-C1: 0x3FFFFF and 2: InvalidArgument, empty trace, buffer untouched; 0x3FFFFF and 1 pass. -/
theorem test_readBlock_range :
    (ran (.readBlock 0x3FFFFF 2 0) ready).map (fun t => (t.err, t.trace, t.bufs)) = some (.invalidArgument, [], [[0, 0]]) ∧
      inRange 0x3FFFFF 1 = true := by decide +kernel
/-- V-C4: the byte over 0xFF, WEL = 1, 252 events, DI = 0, VAL = 0xDE; the byte beside it stays. -/
theorem test_writeByte :
    (ran (.writeByte 0x012345 0xDE) { ready with dev := { ready.dev with mem := [(0x012345, 0xFF), (0x012346, 0xAD)] } }).map
        (fun t => (t.dev.read 0x012345, t.dev.read 0x012346, t.dev.wel, t.trace.length, t.di, t.val)) =
      some (0xDE, 0xAD, true, 252, false, 0xDE) := by decide +kernel
/-- V-C1, V-C4: 0x400000 is InvalidArgument, and not even the WriteEnable frame is sent. -/
theorem test_writeByte_range :
    (ran (.writeByte 0x400000 0) ready).map (fun t => (t.err, t.trace)) = some (.invalidArgument, []) := by decide +kernel
/-- V-D2, WRSR_WAIT = none: 178 events, VAL = 0x1C, and P5: the latch is clear when the write takes no time. -/
theorem test_writeStatus :
    (ran (.writeStatus 0x1C) ready).map (fun t => (t.trace.length, t.val, t.err, t.dev.wel)) = some (178, 0x1C, .ok, false) := by
  decide +kernel
/-- V-D3, ERASE_WAIT = none: 258 events; 0x012300 and 0x0123FF become 0xFF, 0x0122FF and 0x012400 stay. BLOCK_SIZE is a parameter
(R191): with 16 the block is 0x012340 to 0x01234F. -/
theorem test_eraseBlock :
    (ran (.eraseBlock 0x012345) { ready with
        dev := { ready.dev with mem := [(0x0122FF, 0xAA), (0x012300, 0), (0x0123FF, 0), (0x012400, 0xBB)] } }).map
        (fun t => (t.trace.length, t.dev.read 0x0122FF, t.dev.read 0x012300, t.dev.read 0x0123FF, t.dev.read 0x012400)) =
      some (258, 0xAA, 0xFF, 0xFF, 0xBB) ∧
      (ran (.eraseBlock 0x012345) { ready with
          params := { pars with blockLog := 4 }
          dev := { ready.dev with mem := [(0x01233F, 0xAA), (0x012340, 0), (0x01234F, 0), (0x012350, 0xBB)] } }).map
        (fun t => (t.dev.read 0x01233F, t.dev.read 0x012340, t.dev.read 0x01234F, t.dev.read 0x012350)) =
      some (0xAA, 0xFF, 0xFF, 0xBB) := by decide +kernel
/-- V-D4, n = 1 at 0x000010, ready at once: 385 events, the byte programmed, the latch clear. -/
theorem test_writeBlock :
    (ran (.writeBlock 0x000010 0 1) { ready with bufs := [[0x55]], dev := { ready.dev with mem := [(0x10, 0xFF)] } }).map
        (fun t => (t.trace.length, t.dev.read 0x10, t.dev.wel, t.idx, t.err)) = some (385, 0x55, false, 1, .ok) := by decide +kernel
/-- V-D4, n = 0: `S >04 D`, 46 events; at 0x400000 InvalidArgument. -/
theorem test_writeBlock_empty :
    (ran (.writeBlock 0x000010 0 0) ready).map (·.trace.length) = some 46 ∧
      (ran (.writeBlock 0x400000 0 0) ready).map (fun t => (t.err, t.trace)) = some (.invalidArgument, []) := by decide +kernel

/-! ### Witnesses: states and operands that meet the hypotheses of the statements -/

/-- A state at rest between commands, with the invariant. -/
theorem ready_inv : ready.Inv where
  mem := by decide
  bitcnt := rfl
  settled := by decide
  released := by decide
  clock := by decide
  chipSelect := by decide
  frame := by decide
  whole := fun h => absurd rfl h
  reference := fun _ => rfl
  running := fun op h => by simp [ready, State.reset] at h
  polls := by simp [ready, pars, Params.pollLimit]

/-- A frame that HOST has opened. -/
def opened : State := framed [0x05] .opcodeSent

/-- A command that waits with status polls, no byte of two done, DEV dead. -/
def waiting (op : Op) : State :=
  { dead with opr := some op, len := 2, bufRef := some 0, params := { pars with wrsrWait := .pollStatus, eraseWait := .pollStatus } }

/-- The same with POLL_LIMIT = some 1, and with DEV ready at the poll and WriteBlock at its last byte. -/
def waitingLimited (op : Op) : State := { waiting op with params := { (waiting op).params with extraPolls := some 0 } }
def waitingDone (op : Op) : State := { waiting op with idx := 1, dev := { dead.dev with left := some 43 } }

/-- A command that waits with raw polls. -/
def rawWaiting (op : Op) : State :=
  { opened with
    opr := some op, ph := .dataPhase, params := { pars with wrsrWait := .waitUntilReady, eraseWait := .waitUntilReady } }

/-- R139, R191, R194: a poll that shows ready, 86 events, then `S >04 D`, 46 events; the latch is clear. -/
theorem test_eraseBlock_poll :
    (match step (waitingDone .eraseBlock) with
      | .next t => some (t.trace.length, t.opr, t.err, t.dev.wel, t.pollcnt)
      | _ => none) = some (132, none, .ok, false, 1) := by decide +kernel
/-- R212, R217: POLL_LIMIT = some 1 reached: one frame, no WriteDisable, the bus idle, the latch as DEV has it. -/
theorem test_writeStatus_timeout :
    (match step (waitingLimited .writeStatus) with
      | .next t => some (t.trace.length, t.opr, t.err, t.dev.wel, t.ph)
      | _ => none) = some (86, none, .deviceTimeout, true, .idle) := by decide +kernel

/-- A frame that carries out something: DEV ready with its latch set. -/
def writable (vs : List Byte) : State :=
  { framed vs .dataPhase with dev := { ready.dev with frame := bitsOfBytes vs, wel := true } }

theorem witness_InitTakesBus : (ready.opr = none ∧ ready.ph = .idle) ∧ State.reset.opr = none ∧ State.reset.ph = .idle := by decide

theorem witness_DisableReleasesBus :
    ready.Accepts ∧ ready.draws.visit.1 = none ∧
      Draws.visit { ready.draws with visits := [some ⟨[(0x3FFFFF, 1), (0x400000, 2)], true, true, 0, none⟩] } =
        (some ⟨[(0x3FFFFF, 1), (0x400000, 2)], true, true, 0, none⟩, { ready.draws with visits := [] }) := by decide

theorem witness_ReleasedRefuses :
    State.reset.dir = .released ∧ Instr.disable ≠ .init ∧ State.reset.opr = none ∧ State.reset.ph = .idle := by decide

theorem witness_DirChangesOnlyByLifecycle :
    (∃ t, exec .readStatus ready = .next t) ∧ (waiting .eraseBlock).opr = some .eraseBlock ∧
      ∃ t, step (waiting .eraseBlock) = .next t := ⟨next_of_ran (by decide), rfl, _, rfl⟩

theorem witness_SelectOpensFrame :
    (ready.opr = none ∧ ready.dir = .master ∧ ready.ph = .idle) ∧
      opened.opr = none ∧ opened.dir = .master ∧ opened.ph ≠ .idle := by decide

/-- Reads up to the array's end and one byte past it; a frame of no format with DEV busy and with DEV ready; a status frame of three
bytes, refused though DEV is busy; a reserved opcode; an empty frame. -/
theorem witness_DeselectClosesFrame :
    (opened.opr = none ∧ opened.dir = .master ∧ opened.ph ≠ .idle ∧ opened.ph ≠ .deselected ∧ opened.ph ≠ .selected) ∧
      (frameOfBits (framed [0x03, 0x3F, 0xFF, 0xFF, 0] .dataPhase).dev.frame = some (.read 0x3FFFFF 1) ∧
        (0x3FFFFF : Addr).toNat + (1 : Len).toNat ≤ Config.flashSize) ∧
      (frameOfBits (bitsOfBytes [0x02, 0x00]) = none ∧ dead.dev.tick.busy = true) ∧
      ((framed [0x9F] .opcodeSent).dev.frame = bitsOfBytes [0x9F] ∧ isOpcode 0x9F = false ∧ ready.dev.tick.busy = false) ∧
      (frameOfBits (bitsOfBytes [0x05, 0xFF, 0xFF]) = none ∧ isOpcode 0x05 = true ∧ isOpcode 0x02 = true) ∧
      (frameOfBits (framed [0x03, 0x3F, 0xFF, 0xFF, 0, 0] .dataPhase).dev.frame = some (.read 0x3FFFFF 2) ∧
        (framed [0x03, 0x3F, 0xFF, 0xFF, 0, 0] .dataPhase).dev.heardBusy = false ∧
        Config.flashSize < (0x3FFFFF : Addr).toNat + (2 : Len).toNat) ∧
      (framed [] .selected).ph = .selected ∧ ready.ph = .idle := by decide

/-- A busy DEV with a frame 0x06 and with a frame of no format. -/
def deadFrame (vs : List Byte) : State := { opened with dev := { dead.dev with frame := bitsOfBytes vs } }

theorem witness_DeselectCommitsFrame_ignored :
    ((∃ t, exec .deselect (deadFrame [0x06]) = .next t) ∧ dead.dev.tick.busy = true) ∧
      ((∃ t, exec .deselect (deadFrame [0x02, 0x00]) = .next t) ∧ frameOfBits (bitsOfBytes [0x02, 0x00]) = none) ∧
      ((∃ t, exec .deselect (framed [0x05, 0xFF] .dataPhase) = .next t) ∧
        frameOfBits (bitsOfBytes [0x05, 0xFF]) = some .readStatus) ∧
      ((∃ t, exec .deselect opened = .next t) ∧ frameOfBits (bitsOfBytes [0x05]) = some .rawPoll) ∧
      (∃ t, exec .deselect (framed [0x03, 0, 0, 0] .addressSent) = .next t) ∧
        frameOfBits (bitsOfBytes [0x03, 0, 0, 0]) = some (.read 0 0) :=
  ⟨⟨next_of_ran (by decide), by decide⟩, ⟨next_of_ran (by decide), by decide⟩, ⟨next_of_ran (by decide), by decide⟩,
    ⟨next_of_ran (by decide), by decide⟩, next_of_ran (by decide), by decide⟩

theorem witness_DeselectCommitsFrame_latchClear :
    (framed [0x01, 0x1C] .dataPhase).dev.wel = false ∧
      ((∃ t, exec .deselect (framed [0x01, 0x1C] .dataPhase) = .next t) ∧
        frameOfBits (bitsOfBytes [0x01, 0x1C]) = some (.writeStatus 0x1C)) ∧
      ((∃ t, exec .deselect (framed [0x02, 0x3F, 0xFF, 0xFF, 0x00] .dataPhase) = .next t) ∧
        frameOfBits (bitsOfBytes [0x02, 0x3F, 0xFF, 0xFF, 0x00]) = some (.program 0x3FFFFF 0)) ∧
      (∃ t, exec .deselect (framed [0xD8, 0x3F, 0xFF, 0xFF] .dataPhase) = .next t) ∧
        frameOfBits (bitsOfBytes [0xD8, 0x3F, 0xFF, 0xFF]) = some (.erase 0x3FFFFF) :=
  ⟨rfl, ⟨next_of_ran (by decide), by decide⟩, ⟨next_of_ran (by decide), by decide⟩, next_of_ran (by decide), by decide⟩

theorem witness_DeselectCommitsFrame_accepted :
    (writable []).dev.tick.busy = false ∧ (writable []).dev.wel = true ∧
      ((∃ t, exec .deselect (writable [0x06]) = .next t) ∧ frameOfBits (bitsOfBytes [0x06]) = some .writeEnable) ∧
      ((∃ t, exec .deselect (writable [0x04]) = .next t) ∧ frameOfBits (bitsOfBytes [0x04]) = some .writeDisable) ∧
      (∃ t, exec .deselect (writable [0x01, 0x1C]) = .next t) ∧
      (∃ t, exec .deselect (writable [0x02, 0x3F, 0xFF, 0xFF, 0x00]) = .next t) ∧
      (∃ t, exec .deselect (writable [0xD8, 0x3F, 0xFF, 0xFF]) = .next t) ∧
      ((∃ t, exec .deselect (writable [0x02, 0x40, 0x00, 0x00, 0x00]) = .next t) ∧
        frameOfBits (bitsOfBytes [0x02, 0x40, 0x00, 0x00, 0x00]) = some (.program 0x400000 0)) ∧
      (∃ t, exec .deselect (writable [0xD8, 0x40, 0x00, 0x00]) = .next t) ∧
        frameOfBits (bitsOfBytes [0xD8, 0x40, 0x00, 0x00]) = some (.erase 0x400000) :=
  ⟨rfl, rfl, ⟨next_of_ran (by decide), by decide⟩, ⟨next_of_ran (by decide), by decide⟩, next_of_ran (by decide),
    next_of_ran (by decide), next_of_ran (by decide), ⟨next_of_ran (by decide), by decide⟩, next_of_ran (by decide), by decide⟩

theorem witness_SendByteShiftsOut :
    ((framed [] .selected).InFrame ∧ (framed [] .selected).dev.frame = []) ∧
      ((framed [0x06] .dataPhase).InFrame ∧ (framed [0x06] .dataPhase).ph = .dataPhase ∧
        8 ≤ (framed [0x06] .dataPhase).dev.frame.length) ∧
      ((framed [0x06] .opcodeSent).ph ≠ .dataPhase ∧ isAddressed 0x06 = false) ∧
      (isAddressed 0x02 = true ∧ [0x01].length < 2 ∧ [0x01, 0x23].length = 2 ∧ 2 < [0x01, 0x23, 0x45].length ∧
        (framed [0x02, 0x01, 0x23] .opcodeSent).dev.frame = bitsOfBytes (0x02 :: [0x01, 0x23])) ∧
      ready.opr = none ∧ ready.dir = .master ∧ ready.ph = .idle := by decide

/-- A first status byte and a second; the last byte of the array and the one past it. -/
theorem witness_ReceiveByteShiftsIn :
    (opened.InFrame ∧ opened.ph ≠ .selected ∧ opened.dev.frame = bitsOfBytes [0x05] ∧
        ¬ AsksTwice ([0x05] ++ [heldByte opened.di]) ∧ ¬ ReadsPastEnd ([0x05] ++ [heldByte opened.di])) ∧
      (¬ AsksTwice ([0x03, 0x3F, 0xFF, 0xFF] ++ [heldByte false]) ∧ ¬ ReadsPastEnd ([0x03, 0x3F, 0xFF, 0xFF] ++ [heldByte false])) ∧
      AsksTwice ([0x05, 0x00] ++ [heldByte false]) ∧
      (ReadsPastEnd ([0x03, 0x3F, 0xFF, 0xFF, 0x00] ++ [heldByte false]) ∧ opened.dev.heardBusy = false) ∧
      ((framed [] .selected).InFrame ∧ (framed [] .selected).ph = .selected) ∧
      ready.opr = none ∧ ready.dir = .master ∧ ready.ph = .idle := by
  refine ⟨⟨by decide, by decide, by decide, ?_, ?_⟩, ⟨?_, ?_⟩, ?_, ⟨?_, rfl⟩, by decide, by decide⟩ <;>
    simp only [List.cons_append, asksTwice_iff, readsPastEnd_iff] <;> decide

/-- The last byte of the array, and a read two bytes in. -/
theorem witness_ReceiveByteAnswered :
    (opened.InFrame ∧ (∃ t, exec .receiveByte opened = .next t) ∧ opened.dev.frame = bitsOfBytes [0x05]) ∧
      ((framed [0x03, 0x3F, 0xFF, 0xFF] .addressSent).InFrame ∧
        (∃ t, exec .receiveByte (framed [0x03, 0x3F, 0xFF, 0xFF] .addressSent) = .next t) ∧
        (framed [0x03, 0x3F, 0xFF, 0xFF] .addressSent).dev.frame = bitsOfBytes ([0x03] ++ addrBytes 0x3FFFFF ++ []) ∧
        (framed [0x03, 0x3F, 0xFF, 0xFF] .addressSent).dev.heardBusy = false ∧
        (0x3FFFFF : Addr).toNat + ([] : List Byte).length < Config.flashSize) ∧
      (framed [0x03, 0x01, 0x23, 0x45, 0xFF, 0xFF] .dataPhase).InFrame ∧
        (framed [0x03, 0x01, 0x23, 0x45, 0xFF, 0xFF] .dataPhase).dev.frame =
          bitsOfBytes ([0x03] ++ addrBytes 0x012345 ++ [0xFF, 0xFF]) :=
  ⟨⟨by decide, next_of_ran (by decide), rfl⟩, ⟨by decide, next_of_ran (by decide), by decide, rfl, by decide⟩, by decide, by decide⟩

/-- The buffer just long enough; two bytes up to the array's end, and past it; two status bytes; a count of 0; no byte sent. -/
theorem witness_ReceiveBytesFillsBuffer :
    ((framed [0x03, 0x3F, 0xFF, 0xFE] .addressSent).InFrame ∧ (framed [0x03, 0x3F, 0xFF, 0xFE] .addressSent).ph ≠ .selected ∧
        (2 : Len) ≠ 0 ∧ (2 : Len).toNat ≤ bufferRoom opened.bufs (some 0)) ∧
      (¬ AsksTwice ([0x03, 0x3F, 0xFF, 0xFE] ++ List.replicate 2 (heldByte false)) ∧
        ¬ ReadsPastEnd ([0x03, 0x3F, 0xFF, 0xFE] ++ List.replicate 2 (heldByte false))) ∧
      ReadsPastEnd ([0x03, 0x3F, 0xFF, 0xFF] ++ List.replicate 2 (heldByte false)) ∧
      AsksTwice ([0x05] ++ List.replicate 2 (heldByte false)) ∧
      ((framed [] .selected).InFrame ∧ (framed [] .selected).ph = .selected ∧ (1 : Len) ≠ 0) ∧
      ready.opr = none ∧ ready.dir = .master ∧ ready.ph = .idle := by
  refine ⟨by decide, ⟨?_, ?_⟩, ?_, ?_, by decide, by decide⟩ <;>
    simp only [List.cons_append, asksTwice_iff, readsPastEnd_iff] <;> decide

theorem witness_FrameOpenRefuses :
    opened.opr = none ∧ opened.dir = .master ∧ opened.ph ≠ .idle ∧ (∀ v, Instr.select ≠ .sendByte v) ∧ Instr.select ≠ .deselect ∧
      Instr.select ≠ .receiveByte ∧ ∀ n r, Instr.select ≠ .receiveBytes n r :=
  ⟨rfl, rfl, by decide, by simp, by simp, by simp, by simp⟩

/-- One byte short, and a reference that names no buffer. -/
theorem witness_ShortBufferRefused :
    (bufferRoom ready.bufs (some 0) < (3 : Len).toNat ∧ bufferRoom ready.bufs (some 1) < (1 : Len).toNat ∧ ready.Accepts) ∧
      opened.InFrame ∧ opened.ph ≠ .selected ∧ bufferRoom opened.bufs (some 0) < (3 : Len).toNat := by decide

/-- For the statements about ReadStatus, WriteEnable, WriteDisable and WaitUntilReady's first poll. -/
theorem witness_Accepts : ready.Accepts ∧ dead.Accepts := by decide

theorem witness_WaitUntilReadyFirstPoll :
    (ready.Accepts ∧ ready.params.rawPollShowsBusy = true ∧ (ready.dev.ticks 44).busy = false) ∧
      (dead.Accepts ∧ (dead.dev.ticks 44).busy = true ∧ dead.params.pollLimit ≠ some 1) ∧
      (State.Accepts { dead with params := { pars with extraPolls := some 0 } } ∧
        Params.pollLimit { pars with extraPolls := some 0 } = some 1) ∧
      State.Accepts { ready with params := { pars with rawPollShowsBusy := false } } := by decide

/-- For WaitUntilReadyReturns: DEV ready, and busy with its last event before the sample. -/
theorem witness_WaitUntilReadyReturns :
    ready.Accepts ∧ ready.params.rawPollShowsBusy = true ∧ (ready.dev.ticks 44).busy = false ∧
      (Dev.ticks { ready.dev with busy := true, left := some 43 } 44).busy = false ∧
      (Dev.ticks { ready.dev with busy := true, left := some 44 } 44).busy = true := by decide

/-- The first address past the array, and a range one byte too long; the fault itself; two commands that end in a later step. -/
theorem witness_RangeFaults :
    ready.Accepts ∧ ((0 : Len).toNat ≤ bufferRoom ready.bufs (some 0) ∧ Config.flashSize ≤ (0x400000 : Addr).toNat) ∧
      ((2 : Len).toNat ≤ bufferRoom ready.bufs (some 0) ∧ ¬ Config.flashSize ≤ (0x3FFFFF : Addr).toNat ∧
        Config.flashSize < (0x3FFFFF : Addr).toNat + (2 : Len).toNat) ∧
      (ran (.readBlock 0x3FFFFF 2 0) ready).map (fun t => (t.opr, t.err)) = some (none, .invalidArgument) ∧
      ∀ op ∈ [Op.eraseBlock, .writeBlock], (waitingDone op).opr = some op ∧
        inRange (waitingDone op).addr (waitingDone op).len.toNat = true ∧
        (match step (waitingDone op) with
          | .next t => some t.opr
          | _ => none) = some none := by decide +kernel

/-- The last byte of a range that ends with the array. -/
theorem witness_ByteAddressFits : inRange 0x3FFFFE (2 : Len).toNat = true ∧ (1 : Len).toNat < (2 : Len).toNat := by decide

/-- The last byte of the array, a read of none, and the two reads together with their next states. -/
theorem witness_ReadBlock :
    ready.Accepts ∧ ready.dev.busy = false ∧
      ((1 : Len).toNat ≤ bufferRoom ready.bufs (some 0) ∧ (0x3FFFFF : Addr).toNat < Config.flashSize ∧
        (0x3FFFFF : Addr).toNat + (1 : Len).toNat ≤ Config.flashSize ∧ ∃ t, exec (.readBlock 0x3FFFFF 1 0) ready = .next t) ∧
      ((0 : Len).toNat ≤ bufferRoom ready.bufs (some 7) ∧ (0x3FFFFF : Addr).toNat + (0 : Len).toNat ≤ Config.flashSize ∧
        ∃ t, exec (.readBlock 0x3FFFFF 0 7) ready = .next t) :=
  ⟨by decide, rfl, ⟨by decide, by decide, by decide, next_of_ran (by decide)⟩, by decide, by decide, next_of_ran (by decide)⟩

theorem witness_WriteByteProgramsOneByte :
    ready.Accepts ∧ (0x3FFFFF : Addr).toNat < Config.flashSize ∧ ready.dev.busy = false ∧ dead.Accepts ∧ dead.dev.BusyFor 250 ∧
      Dev.BusyFor { dead.dev with left := some 250 } 250 := by
  refine ⟨by decide, by decide, rfl, by decide, ⟨rfl, by simp [dead]⟩, rfl, by simp⟩

/-- DEV ready and DEV dead. -/
theorem witness_WriteStatusWrites :
    (ready.Accepts ∧ ready.params.wrsrWait = .none ∧ ready.dev.busy = false) ∧ dead.Accepts ∧ dead.params.wrsrWait = .none := by decide

theorem witness_EraseBlockErases :
    ready.Accepts ∧ (0x3FFFFF : Addr).toNat < Config.flashSize ∧ ready.params.eraseWait = .none ∧ ready.dev.busy = false ∧
      (dead.Accepts ∧ dead.params.eraseWait = .none) ∧
      0x3FFF00 / ready.params.blockSize = (0x3FFFFF : Addr).toNat / ready.params.blockSize ∧
      0x3FFEFF / ready.params.blockSize ≠ (0x3FFFFF : Addr).toNat / ready.params.blockSize := by decide

/-- Each command, each mode, with and without a limit of 1, DEV ready and DEV dead. -/
theorem witness_CompletionWaitFirstPoll :
    (∀ m ∈ [WaitMode.pollStatus, .waitUntilReady],
      State.Accepts { ready with params := { pars with wrsrWait := m, eraseWait := m } } ∧
        State.Accepts { dead with params := { pars with wrsrWait := m, eraseWait := m, extraPolls := some 0 } }) ∧
      (0x3FFFFF : Addr).toNat < Config.flashSize ∧ dead.dev.Dead ∧ Params.pollLimit { pars with extraPolls := some 0 } = some 1 ∧
      pars.pollLimit ≠ some 1 ∧ pars.rawPollShowsBusy = true := by decide

/-- The three wait modes; a busy cycle of 45 more events is just over when the poll is answered. -/
theorem witness_EraseBlockCompletes :
    (0x3FFFFF : Addr).toNat < Config.flashSize ∧ (45 : Nat) < 46 ∧
      ∀ m, State.Accepts { ready with params := { pars with eraseWait := m }, draws := { ready.draws with latencies := [some 45] } } ∧
        (Draws.latency { ready.draws with latencies := [some 45] }).1 = some 45 ∧
        Params.rawPollShowsBusy { pars with eraseWait := m } = true := by
  refine ⟨by decide, by decide, fun m => ?_⟩
  cases m <;> decide

theorem witness_WriteStatusCompletes :
    ready.dev.busy = false ∧ (45 : Nat) < 46 ∧
      ∀ m, State.Accepts { ready with params := { pars with wrsrWait := m }, draws := { ready.draws with latencies := [some 45] } } ∧
        (Draws.latency { ready.draws with latencies := [some 45], count := 1 }).1 = some 45 ∧
        Params.rawPollShowsBusy { pars with wrsrWait := m } = true := by
  refine ⟨by decide, by decide, fun m => ?_⟩
  cases m <;> decide

theorem witness_WriteBlockEmpty : ready.Accepts ∧ (0x3FFFFF : Addr).toNat < Config.flashSize := by decide

/-- The last byte of the array, and the last two; DEV ready, and dead with a limit of 1. -/
theorem witness_WriteBlockFirstByte :
    ready.Accepts ∧ ((1 : Len) ≠ 0 ∧ (1 : Len).toNat ≤ bufferRoom ready.bufs (some 0) ∧ (0x3FFFFF : Addr).toNat < Config.flashSize ∧
        (0x3FFFFF : Addr).toNat + (1 : Len).toNat ≤ Config.flashSize) ∧
      ((2 : Len) ≠ 0 ∧ (2 : Len) ≠ 1 ∧ (2 : Len).toNat ≤ bufferRoom ready.bufs (some 0) ∧
        (0x3FFFFE : Addr).toNat + (2 : Len).toNat ≤ Config.flashSize) ∧
      dead.Accepts ∧ dead.dev.Dead ∧ State.Accepts { dead with params := { pars with extraPolls := some 0 } } := by decide

/-- Two bytes at the end of the array, the busy cycles just over at their polls. -/
theorem witness_WriteBlockProgramsAll :
    ready.Accepts ∧ ready.dev.busy = false ∧ (2 : Len) ≠ 0 ∧ (2 : Len).toNat ≤ bufferRoom ready.bufs (some 0) ∧
      (0x3FFFFE : Addr).toNat < Config.flashSize ∧ (0x3FFFFE : Addr).toNat + (2 : Len).toNat ≤ Config.flashSize ∧
      (Draws.latencies { ready.draws with latencies := [some 0, some 46] }) = [0, 46].map some ++ [] ∧
      [0, 46].length = (2 : Len).toNat ∧ ∀ k ∈ [0, 46], k < 47 := by decide

theorem witness_WriteBlockFrame :
    (∃ t, exec (.writeBlock 0x3FFFFF 0 1) ready = .next t) ∧ (waiting .writeBlock).opr = some .writeBlock ∧
      inRange (waiting .writeBlock).addr (waiting .writeBlock).len.toNat = true ∧ ∃ t, step (waiting .writeBlock) = .next t :=
  ⟨next_of_ran (by decide), rfl, by decide, _, rfl⟩

/-- A busy poll with the limit reached, one without, and a poll that shows ready, WriteBlock's at its last byte. -/
theorem witness_StatusPollGoesOn :
    (∀ op ∈ [Op.writeStatus, .eraseBlock, .writeBlock], (waiting op).opr = some op ∧ (waiting op).params.wrsrWait = .pollStatus ∧
      (waiting op).params.eraseWait = .pollStatus ∧ ((waiting op).dev.ticks 44).busy = true ∧ (waiting op).params.pollLimit = none) ∧
      (∀ op ∈ [Op.writeStatus, .eraseBlock, .writeBlock], (waitingLimited op).opr = some op ∧
        ((waitingLimited op).dev.ticks 44).busy = true ∧ (waitingLimited op).params.wrsrWait = .pollStatus ∧
        (waitingLimited op).params.eraseWait = .pollStatus ∧ (waitingLimited op).params.pollLimit = some 1 ∧
        1 ≤ (waitingLimited op).pollcnt + 1) ∧
      ∀ op ∈ [Op.writeStatus, .eraseBlock, .writeBlock], (waitingDone op).opr = some op ∧
        ((waitingDone op).dev.ticks 44).busy = false ∧ (waitingDone op).params.wrsrWait = .pollStatus ∧
        (waitingDone op).params.eraseWait = .pollStatus ∧ (waitingDone op).idx.toNat + 1 = (waitingDone op).len.toNat := by decide

theorem witness_WriteBlockNextByte :
    State.opr { waiting .writeBlock with dev := ready.dev } = some .writeBlock ∧ (ready.dev.ticks 44).busy = false ∧
      inRange (waiting .writeBlock).addr (waiting .writeBlock).len.toNat = true ∧
      (waiting .writeBlock).idx.toNat + 1 < (waiting .writeBlock).len.toNat := by decide

/-- The three commands; DEV ready, DEV busy with and without a limit, and the premise of R75 not taken. -/
theorem witness_RawPollGoesOn :
    (∀ op ∈ [Op.waitUntilReady, .writeStatus, .eraseBlock], (rawWaiting op).opr = some op ∧ (rawWaiting op).cs = false ∧
      (rawWaiting op).sck = false ∧ (rawWaiting op).dev.frame = bitsOfBytes [0x05] ∧
      (rawWaiting op).params.wrsrWait = .waitUntilReady ∧ (rawWaiting op).params.eraseWait = .waitUntilReady ∧
      (rawWaiting op).params.rawPollShowsBusy = true ∧ (rawWaiting op).dev.tick.busy = false ∧
      (rawWaiting op).params.pollLimit = none) ∧
      (∀ op ∈ [Op.waitUntilReady, .writeStatus, .eraseBlock],
        State.opr { rawWaiting op with dev := { dead.dev with frame := bitsOfBytes [0x05] } } = some op ∧
        Dev.busy (Dev.tick { dead.dev with frame := bitsOfBytes [0x05] }) = true) ∧
      Params.pollLimit { (rawWaiting .waitUntilReady).params with extraPolls := some 0 } = some 1 ∧
      Params.rawPollShowsBusy { (rawWaiting .waitUntilReady).params with rawPollShowsBusy := false } = false := by decide

theorem witness_DeadDevice :
    (∀ op ∈ [Op.writeStatus, .eraseBlock, .writeBlock], (waiting op).opr = some op ∧ (waiting op).params.wrsrWait = .pollStatus ∧
      (waiting op).params.eraseWait = .pollStatus ∧ (waiting op).params.pollLimit = none ∧ (waiting op).dev.Dead) ∧
      Params.pollLimit { pars with extraPolls := some 2 } = some 3 ∧ (waiting .eraseBlock).pollcnt < 3 := by decide

theorem witness_DeadDeviceIgnoresAll :
    (Instr.writeEnable ≠ .disable ∧ dead.dev.Dead ∧ ∃ t, exec .writeEnable dead = .next t) ∧
      (waiting .writeBlock).opr = some .writeBlock ∧ (waiting .writeBlock).dev.Dead ∧ ∃ t, step (waiting .writeBlock) = .next t :=
  ⟨⟨by decide, by decide, next_of_ran (by decide)⟩, rfl, by decide, _, rfl⟩

/-- WriteDisable, HOST's own frame 0x04, an EraseBlock that has ended, and one that ends in a later step. -/
theorem witness_LatchPersists :
    (ran .writeDisable { ready with dev := { ready.dev with wel := true } }).map (·.dev.wel) = some false ∧
      ((writable [0x04]).dev.wel = true ∧ (ran .deselect (writable [0x04])).map (·.dev.wel) = some false) ∧
      (ran (.eraseBlock 0x3FFFFF) { ready with dev := { ready.dev with wel := true } }).map (·.dev.wel) = some false ∧
      (waitingDone .eraseBlock).opr = some .eraseBlock ∧ (waitingDone .eraseBlock).dev.wel = true ∧
      frameOfBits (waitingDone .eraseBlock).dev.frame ≠ some .writeDisable ∧
      (match step (waitingDone .eraseBlock) with
        | .next t => some t.dev.wel
        | _ => none) = some false := by
  refine ⟨?_, ?_, ?_, ?_, ?_, ?_, ?_⟩ <;> decide +kernel

/-- The last block of the array, a busy cycle that takes no time. -/
theorem witness_EraseThenRead :
    State.Accepts { ready with bufs := [List.replicate 256 0] } ∧ ready.dev.busy = false ∧
      (0x3FFF00 : Addr).toNat < Config.flashSize ∧ (0x3FFF00 : Addr).toNat % ready.params.blockSize = 0 ∧
      (256 : Len).toNat ≤ ready.params.blockSize ∧ (256 : Len).toNat ≤ bufferRoom [List.replicate 256 0] (some 0) ∧
      (ran (.eraseBlock 0x3FFF00) { ready with bufs := [List.replicate 256 0] }).map (fun t => (t.opr, t.err, t.dev.busy)) =
        some (none, .ok, false) := by
  refine ⟨by decide, rfl, by decide, by decide, by decide, by decide +kernel, by decide +kernel⟩

theorem witness_WriteThenRead :
    ready.Accepts ∧ ready.dev.busy = false ∧ (2 : Len) ≠ 0 ∧ (2 : Len).toNat ≤ bufferRoom ready.bufs (some 0) ∧
      (0x3FFFFE : Addr).toNat < Config.flashSize ∧ (0x3FFFFE : Addr).toNat + (2 : Len).toNat ≤ Config.flashSize ∧
      (∀ j, j < 2 → Dev.read { ready.dev with mem := [(0x3FFFFE, 0xFF), (0x3FFFFF, 0xFF)] } (0x3FFFFE + j) = 0xFF) ∧
      ready.draws.latencies = [0, 0].map some ++ [] ∧ [0, 0].length = (2 : Len).toNat ∧ (∀ k ∈ [0, 0], k < 47) ∧
      ∃ t, exec (.writeBlock 0x3FFFFE 0 2) { ready with dev := { ready.dev with mem := [(0x3FFFFE, 0xFF), (0x3FFFFF, 0xFF)] } } =
        .next t :=
  ⟨by decide, rfl, by decide, by decide, by decide, by decide, by decide, by decide, by decide, by decide, next_of_ran (by decide)⟩

theorem witness_ArrayFrame :
    (∃ t, exec .select ready = .next t) ∧ (∃ t, exec (.sendByte 0xFF) (framed [] .selected) = .next t) ∧
      (∃ t, exec .receiveByte opened = .next t) ∧ (∃ t, exec (.receiveBytes 2 0) (framed [0x06] .opcodeSent) = .next t) ∧
      (∃ t, exec .init State.reset = .next t) ∧ (∃ t, exec .readStatus ready = .next t) ∧
      (∃ t, exec .waitUntilReady dead = .next t) ∧ (∃ t, exec .writeEnable ready = .next t) ∧
      (∃ t, exec .writeDisable ready = .next t) ∧ (∃ t, exec (.readBlock 0x3FFFFF 1 0) ready = .next t) ∧
      (∃ t, exec (.writeStatus 0xFF) dead = .next t) :=
  ⟨next_of_ran (by decide), next_of_ran (by decide), next_of_ran (by decide), next_of_ran (by decide), next_of_ran (by decide),
    next_of_ran (by decide), next_of_ran (by decide), next_of_ran (by decide), next_of_ran (by decide), next_of_ran (by decide),
    next_of_ran (by decide)⟩

theorem witness_StepRunsCommand :
    ready.opr = none ∧ State.commands { ready with commands := [encode .readStatus] } = encode .readStatus :: [] ∧
      decode { op := .sendByte, value := some 256 } = .error (.tooWide .value) ∧ ready.commands = [] := ⟨rfl, rfl, rfl, rfl⟩

theorem witness_StepRunsTableWord :
    decodeTableWord 8 0x06 = some .writeEnable ∧ ready.dir = .master ∧ State.reset.dir = .released := by decide

theorem witness_OneCommandAtATime :
    (waiting .eraseBlock).opr = some .eraseBlock ∧ (∃ t, step (waiting .eraseBlock) = .next t) ∧
      ∃ t, step { waiting .eraseBlock with dev := ready.dev } = .next t := ⟨rfl, ⟨_, rfl⟩, _, rfl⟩

theorem witness_CommandEndsIdle :
    ready.Inv ∧ (ran .readStatus ready).map (fun t => (t.opr, t.dir)) = some (none, .master) ∧
      Instr.readStatus.op.isPrimitive = false ∧
      (ran .deselect opened).map (fun t => (t.opr, t.dir)) = some (none, .master) :=
  ⟨ready_inv, by decide +kernel, rfl, by decide +kernel⟩

/-- A command taken, an idle step, and a poll. -/
theorem witness_StepKeepsInv :
    ready.Inv ∧ step ready = .next ready ∧
      (State.Inv { ready with commands := [encode .readStatus] } ∧
        ∃ t, step { ready with commands := [encode .readStatus] } = .next t) ∧
      State.Inv { dead with opr := some .eraseBlock, params := { pars with eraseWait := .pollStatus } } ∧
        ∃ t, step { dead with opr := some .eraseBlock, params := { pars with eraseWait := .pollStatus } } = .next t :=
  ⟨ready_inv, rfl, ⟨⟨by decide, rfl, by decide, by decide, by decide, by decide, by decide, fun h => absurd rfl h, fun _ => rfl,
    fun op h => by simp [ready, State.reset] at h, by simp [ready, pars, Params.pollLimit]⟩, _, rfl⟩,
    ⟨by decide, rfl, by decide, by decide, by decide, by decide, by decide, fun h => absurd rfl h, fun _ => rfl,
      fun op h => by simp only [Option.some.injEq] at h; subst h; exact .inr ⟨rfl, rfl⟩, by simp [pars, Params.pollLimit]⟩, _, rfl⟩

end Sys2Proof.Tests
end

section
/-! PROOFS. The state, the port and the invariant of a run (10_state.md). The main lemmas: what a step can do (`step_next_cases`), where
a command comes to rest (`exec_rests`, `resume_rests`), and the frame that HOST's own primitives leave open (`State.FrameOpen`). -/

namespace Sys2Proof.Machine

/-! ### What a step can do -/

/-- HOST's form of an instruction is read back as that instruction (30_encoding.md R109, R111). -/
theorem decode_encode (i : Instr) : decode (encode i) = .ok i := by
  have hx : (encode i).extra = none := by cases i <;> rfl
  rw [decode, hx]
  cases i <;>
    simp only [encode, bind_ok_iff, pure_ok_iff, Presented.field_ok_iff, Presented.bufferRef_ok_iff, Presented.get, Option.some.injEq,
      exists_eq_left', BitVec.toNat_inj]

theorem step_running {s : State} {op : Op} (ho : s.opr = some op) : step s = s.resume op := by simp only [step, ho]

theorem step_quiet {s : State} (ho : s.opr = none) (hc : s.commands = []) : step s = .next s := by
  simp only [step, ho, State.nextCommand, hc]

theorem step_command {s : State} {p : Presented} {rest : List Presented} {i : Instr} (ho : s.opr = none)
    (hc : s.commands = p :: rest) (hd : decode p = .ok i) : step s = exec i { s with commands := rest } := by
  simp only [step, ho, State.nextCommand, hc, hd]

theorem step_malformed {s : State} {p : Presented} {rest : List Presented} {e : DecodeError} (ho : s.opr = none)
    (hc : s.commands = p :: rest) (hd : decode p = .error e) : step s = .refused (.malformedCommand e) := by
  simp only [step, ho, State.nextCommand, hc, hd]

theorem State.readyForCommand_opr (s : State) : s.readyForCommand.opr = none := by
  simp only [State.readyForCommand]
  split <;> rfl

/-- A step that answers goes on with a waiting command, does nothing, or runs HOST's next command (10_state.md R36). -/
theorem step_next_cases {s t : State} (h : step s = .next t) :
    (∃ op, s.opr = some op ∧ s.resume op = .next t) ∨ t = s ∨
      ∃ i rest, s.opr = none ∧ exec i { s with commands := rest } = .next t := by
  obtain ho | ⟨op, ho⟩ := Option.eq_none_or_eq_some s.opr
  · cases hc : s.commands with
    | nil => rw [step_quiet ho hc] at h; cases h; exact .inr (.inl rfl)
    | cons p rest =>
      cases hd : decode p with
      | error e => rw [step_malformed ho hc hd] at h; cases h
      | ok i => exact .inr (.inr ⟨i, rest, ho, step_command ho hc hd ▸ h⟩)
  · exact .inl ⟨op, ho, step_running ho ▸ h⟩

/-! ### The check that comes first for every instruction -/

/-- The check an instruction makes first: a lifecycle check for `init`, an open frame for the primitives inside one, a held bus with
no frame open for the rest. -/
def State.blockFor (s : State) : Instr → Option Refusal
  | .init => s.blockInit
  | .deselect | .sendByte _ | .receiveByte | .receiveBytes _ _ => s.blockInFrame
  | _ => s.blockCommand

theorem exec_blocked {i : Instr} {s : State} {r : Refusal} (h : s.blockFor i = some r) : exec i s = .refused r := by
  cases i with
  | init =>
    have hb : s.blockInit = some r := h
    simp [exec, execInit, runUnless, hb]
  | deselect | sendByte | receiveByte | receiveBytes =>
    have hb : s.blockInFrame = some r := h
    simp [exec, execDeselect, execSendByte, execReceiveByte, execReceiveBytes, runUnless, hb]
  | _ =>
    have hb : s.blockCommand = some r := h
    simp [exec, execSelect, execDisable, execReadStatus, execWaitUntilReady, execWriteEnable, execWriteDisable, execReadBlock,
      execWriteByte, execWriteStatus, execEraseBlock, execWriteBlock, runUnless, hb]

theorem block_none_of_next {i : Instr} {s t : State} (h : exec i s = .next t) : s.blockFor i = none := by
  cases hb : s.blockFor i with
  | none => rfl
  | some r => rw [exec_blocked hb] at h; cases h

/-- While a command runs no other is taken (10_state.md R36). -/
theorem block_of_running {i : Instr} {s : State} {op : Op} (ho : s.opr = some op) : s.blockFor i = some .commandRunning := by
  obtain ⟨hc, hi, hf⟩ := block_running ho
  cases i with
  | init => exact hi
  | deselect | sendByte | receiveByte | receiveBytes => exact hf
  | _ => exact hc

/-- Every instruction but `init` runs only on a held bus (70_reset_and_hazards.md R242). -/
theorem master_of_next {i : Instr} {s t : State} (hi : i ≠ .init) (h : exec i s = .next t) : s.dir = .master := by
  have hb := block_none_of_next h
  cases i with
  | init => exact absurd rfl hi
  | deselect | sendByte | receiveByte | receiveBytes =>
    obtain ⟨-, hd, -⟩ := blockInFrame_none_iff.1 hb
    exact hd
  | _ =>
    obtain ⟨-, hd, -⟩ := blockCommand_none_iff.1 hb
    exact hd

/-! ### Bytes received and read frames (40_bus_primitives.md R134, 42_data_commands.md R170) -/

theorem State.receiveBytes_received (s : State) (n : Len) :
    ∃ rs, rs.length = n.toNat ∧ Received { s with idx := 0 } (s.receiveBytes n.toNat) rs :=
  State.receiveTurns_received { s with idx := 0 } n.toNat (by simpa using n.isLt)

/-- The read frame closes the bus and moves bytes into the buffer; DIR, POLLCNT, the parameters and the array stay. -/
theorem State.readFrame_leaves (s : State) (a : Addr) (n : Len) :
    (s.readFrame a n.toNat).Closed ∧ (s.readFrame a n.toNat).dir = s.dir ∧ (s.readFrame a n.toNat).pollcnt = s.pollcnt ∧
      (s.readFrame a n.toNat).params = s.params ∧ (s.readFrame a n.toNat).dev.mem = s.dev.mem := by
  have hi : (s.readOpen a n.toNat).idx.toNat = 0 := by rw [s.readOpen_eq]; rfl
  obtain ⟨rs, hl, h⟩ := (s.readOpen a n.toNat).receiveTurns_received n.toNat (by rw [hi, Nat.zero_add]; exact n.isLt)
  rw [s.readFrame_run a n.toNat n.isLt rs hl h]
  exact ⟨⟨rfl, rfl, rfl, rfl, rfl⟩, rfl, rfl, rfl, Dev.ticks_mem _ _⟩

theorem State.receiveBytes_dir (s : State) (n : Len) : (s.receiveBytes n.toNat).dir = s.dir := by
  obtain ⟨rs, -, h⟩ := s.receiveBytes_received n
  rw [h.eq]

theorem State.receiveBytes_pollcnt (s : State) (n : Len) : (s.receiveBytes n.toNat).pollcnt = s.pollcnt := by
  obtain ⟨rs, -, h⟩ := s.receiveBytes_received n
  rw [h.eq]

theorem State.receiveBytes_params (s : State) (n : Len) : (s.receiveBytes n.toNat).params = s.params := by
  obtain ⟨rs, -, h⟩ := s.receiveBytes_received n
  rw [h.eq]

/-! ### DIR (10_state.md R21) -/

/-- The instructions but `init` and `disable` leave DIR alone. -/
theorem dir_of_next {i : Instr} {s t : State} (h1 : i ≠ .init) (h2 : i ≠ .disable) (h : exec i s = .next t) : t.dir = s.dir := by
  cases i with
  | init => exact absurd rfl h1
  | disable => exact absurd rfl h2
  | select | deselect | sendByte | receiveByte | readStatus | writeEnable | writeDisable =>
    obtain ⟨-, rfl⟩ := runUnless_next h
    simp
  | receiveBytes n r =>
    have hd := State.receiveBytes_dir { s.start .receiveBytes with bufRef := some r } n
    simp only [exec, execReceiveBytes] at h
    split at h <;> (obtain ⟨-, rfl⟩ := runUnless_next h; exact hd)
  | waitUntilReady =>
    obtain ⟨-, rfl⟩ := runUnless_next h
    exact (CmdRun.afterPoll (rest := State.waitDone) (fun _ k => k.finish _ _)
      ((State.openRawPoll_cmdRun (s.start .waitUntilReady)).trans (State.rawPoll_cmdRun _))).dir
  | readBlock a n r =>
    obtain ⟨-, rfl⟩ := runUnless_next h
    split
    · obtain ⟨-, hd, -⟩ := State.readFrame_leaves { s.start .readBlock with addr := a, len := n, bufRef := some r } a n
      exact hd
    · rfl
  | writeByte a v =>
    obtain ⟨-, rfl⟩ := runUnless_next h
    split
    · rw [State.finish_dir, State.programFrames_dir]; rfl
    · rfl
  | writeStatus v =>
    obtain ⟨-, rfl⟩ := runUnless_next h
    exact (CmdRun.completionWait
      (BusRun.cmdRun ((BusRun.refl (s := { s.start .writeStatus with val := v }).opcodeFrame 0x06).dataFrame 0x01 v)) _).dir
  | eraseBlock a =>
    obtain ⟨-, rfl⟩ := runUnless_next h
    split
    · exact (CmdRun.completionWait
        (BusRun.cmdRun ((BusRun.refl (s := { s.start .eraseBlock with addr := a }).opcodeFrame 0x06).addressFrame 0xD8 a)) _).dir
    · rfl
  | writeBlock a r n =>
    obtain ⟨-, rfl⟩ := runUnless_next h
    split
    · exact (CmdRun.blockLoop n.toNat (CmdRun.refl { s.start .writeBlock with addr := a, len := n, bufRef := some r, idx := 0 })).dir
    · rfl

/-- `init` takes the bus, or is refused. -/
theorem init_cases (s : State) : exec .init s = .refused .frameOpen ∨ exec .init s = .refused .commandRunning ∨
    ∃ t, exec .init s = .next t ∧ t.dir = .master := by
  simp only [exec, execInit, State.blockInit]
  split
  · exact .inr (.inl rfl)
  · split
    · exact .inl rfl
    · exact .inr (.inr ⟨_, rfl, rfl⟩)

/-- A visit of another master leaves SEQ alone (20_memory.md R93). -/
theorem State.visited_eq (s : State) : s.visited = { s with dev := s.visited.dev, draws := s.visited.draws } := by
  simp only [State.visited]
  split <;> rfl

theorem State.release_dir (s : State) : s.release.dir = .released := congrArg State.dir (State.visited_eq _)

/-- `disable` releases the bus, or is refused. -/
theorem disable_cases (s : State) : exec .disable s = .refused .busReleased ∨ exec .disable s = .refused .frameOpen ∨
    exec .disable s = .refused .commandRunning ∨ ∃ t, exec .disable s = .next t ∧ t.dir = .released := by
  simp only [exec, execDisable, State.blockCommand]
  split
  · exact .inr (.inr (.inl rfl))
  · split
    · exact .inl rfl
    · split
      · exact .inr (.inl rfl)
      · exact .inr (.inr (.inr ⟨_, rfl, State.release_dir _⟩))

/-- What runs and is not `disable` ends with the bus held. -/
theorem master_after_next {i : Instr} {s t : State} (hi : i ≠ .disable) (h : exec i s = .next t) : t.dir = .master := by
  by_cases hn : i = .init
  · subst hn
    obtain ⟨-, rfl⟩ := runUnless_next h
    rfl
  · rw [dir_of_next hn hi h, master_of_next hn h]

/-! ### Where a command that waits goes, whatever the state (10_state.md R36) -/

theorem CmdRun.commands {s t : State} (h : CmdRun s t) : t.commands = s.commands := by rw [h]

/-- The bus deselected, its clock low. -/
def State.BusIdle (s : State) : Prop := s.ph = .idle ∧ s.cs = true ∧ s.sck = false

theorem State.BusIdle.nextByte {s : State} (h : s.BusIdle) : s.nextByte.BusIdle := ⟨h.1, h.2.1, h.2.2⟩
theorem State.BusIdle.takeByte {s : State} (h : s.BusIdle) : s.takeByte.BusIdle := ⟨h.1, h.2.1, h.2.2⟩

/-- The command still runs, or it has ended with the bus idle. -/
def State.Stands (s : State) (op : Op) : Prop := s.opr = some op ∨ s.opr = none ∧ s.BusIdle

theorem State.BusIdle.finish_stands {s : State} (h : s.BusIdle) (op : Op) (e : Err) (r : Option Byte) :
    (s.finish e r).Stands op := .inr ⟨rfl, h⟩

theorem State.closing_stands (s : State) (op : Op) : s.closing.Stands op :=
  State.BusIdle.finish_stands (s := s.opcodeFrame 0x04) ⟨by simp, by simp, by simp⟩ op _ _

theorem afterPoll_stands {p : Poll × State} {op : Op} {rest : State → State} (ho : p.2.opr = some op)
    (hb : p.1 ≠ .busy → p.2.BusIdle) (hr : p.1 = .ready → (rest p.2).Stands op) : (afterPoll rest p).Stands op := by
  obtain ⟨_ | _ | _, t⟩ := p
  · exact hr rfl
  · exact .inl ho
  · exact (hb nofun).finish_stands op _ _

theorem State.rawPoll_busIdle (s : State) (h : s.rawPoll.1 ≠ .busy) : s.rawPoll.2.BusIdle := by
  simp only [State.rawPoll] at h ⊢
  split at h
  · exact absurd rfl h
  · exact ⟨by simp, by simp, by simp⟩

theorem State.continueWait_stands {s : State} {op : Op} (ho : s.opr = some op) (mode : WaitMode) :
    (s.continueWait mode State.closing).Stands op := by
  cases mode with
  | none => exact s.closing_stands op
  | waitUntilReady =>
    exact afterPoll_stands (s.rawPoll_opr.trans ho) s.rawPoll_busIdle fun _ => State.closing_stands _ op
  | pollStatus =>
    exact afterPoll_stands (s.statusPoll_opr.trans ho) (fun _ => s.statusPoll_end) fun _ => State.closing_stands _ op

theorem State.blockLoop_stands {op : Op} (k : Nat) :
    ∀ s : State, s.opr = some op → s.BusIdle → (State.blockLoop k s).Stands op := by
  induction k with
  | zero => exact fun s _ _ => s.closing_stands op
  | succ k ih =>
    intro s ho hb
    have hp : s.blockByte.statusPoll.2.opr = some op := by rw [State.statusPoll_opr, s.blockByte_eq]; exact ho
    have he : s.blockByte.statusPoll.2.BusIdle := s.blockByte.statusPoll_end
    rw [State.blockLoop]
    split
    · exact afterPoll_stands hp (fun _ => he) fun _ => ih _ ((State.nextByte_opr _).trans hp) he.nextByte
    · exact hb.takeByte.finish_stands op _ _

theorem resume_stands {op : Op} {s t : State} (ho : s.opr = some op) (h : s.resume op = .next t) : t.Stands op := by
  cases op <;> simp only [State.resume, Host.Outcome.next.injEq, reduceCtorEq] at h <;> subst h
  case waitUntilReady =>
    exact afterPoll_stands (rest := State.waitDone) (s.rawPoll_opr.trans ho) s.rawPoll_busIdle fun hv =>
      (s.rawPoll_busIdle (by rw [hv]; decide)).finish_stands _ _ _
  case writeStatus => exact State.continueWait_stands ho _
  case eraseBlock => exact State.continueWait_stands ho _
  case writeBlock =>
    have hp := s.statusPoll_opr.trans ho
    have he : s.statusPoll.2.BusIdle := s.statusPoll_end
    exact afterPoll_stands (rest := State.blockGoesOn) hp (fun _ => he) fun _ =>
      State.blockLoop_stands _ _ ((State.nextByte_opr _).trans hp) he.nextByte

/-! ### The array (10_state.md R42, 20_memory.md R68) -/

theorem State.sendByte_mem (s : State) (v : Byte) : (s.sendByte v).dev.mem = s.dev.mem :=
  State.sendBits_mem 8 { s with sr := v, bitcnt := 8 }

theorem State.receiveBytes_mem (s : State) (n : Nat) : (s.receiveBytes n).dev.mem = s.dev.mem :=
  State.receiveTurns_mem n { s with idx := 0 }

/-- The operations that cannot change a byte of the array: they close no frame of a program or an erase, and let no other master in. -/
def storesNothing : Op → Bool
  | .deselect | .disable | .writeByte | .eraseBlock | .writeBlock => false
  | _ => true

/-- The instructions that store nothing leave the array as it is. -/
theorem mem_of_next {i : Instr} {s t : State} (hi : storesNothing i.op = true) (h : exec i s = .next t) : t.dev.mem = s.dev.mem := by
  cases i with
  | deselect | disable | writeByte | eraseBlock | writeBlock => cases hi
  | select =>
    obtain ⟨-, rfl⟩ := runUnless_next h
    simp [State.select_dev]
  | sendByte v =>
    obtain ⟨-, rfl⟩ := runUnless_next h
    rw [State.finish_dev, State.setPhase_dev, State.sendByte_mem]; rfl
  | receiveByte =>
    obtain ⟨-, rfl⟩ := runUnless_next h
    rw [State.finish_dev, State.setPhase_dev, State.receiveByte_mem]; rfl
  | receiveBytes n r =>
    simp only [exec, execReceiveBytes] at h
    have hm := State.receiveBytes_mem { s.start .receiveBytes with bufRef := some r } n.toNat
    split at h <;> (obtain ⟨-, rfl⟩ := runUnless_next h; exact hm)
  | init =>
    obtain ⟨-, rfl⟩ := runUnless_next h
    exact Dev.tick_mem _
  | readStatus =>
    obtain ⟨-, rfl⟩ := runUnless_next h
    obtain ⟨-, hm, -⟩ := (s.start .readStatus).statusFrame_dev
    exact hm
  | waitUntilReady =>
    obtain ⟨-, rfl⟩ := runUnless_next h
    rw [afterPoll_mem (rest := State.waitDone) (fun _ => rfl), State.openRawPoll_rawPoll_mem]; rfl
  | writeEnable =>
    obtain ⟨-, rfl⟩ := runUnless_next h
    rw [State.finish_dev, (State.writeEnableFrame _).1]; exact Dev.ticks_mem _ _
  | writeDisable =>
    obtain ⟨-, rfl⟩ := runUnless_next h
    exact State.closing_mem (s.start .writeDisable)
  | readBlock a n r =>
    obtain ⟨-, rfl⟩ := runUnless_next h
    split
    · obtain ⟨-, -, -, -, hm⟩ := State.readFrame_leaves { s.start .readBlock with addr := a, len := n, bufRef := some r } a n
      exact hm
    · rfl
  | writeStatus v =>
    obtain ⟨-, rfl⟩ := runUnless_next h
    exact (State.completionWait_mem _ _).trans (State.writeStatusFrames_mem _ v)

/-! ### Where a command comes to rest (10_state.md R36, R37) -/

theorem State.PollsKept.of_eq {s t : State} (h : s.PollsKept) (hc : t.pollcnt = s.pollcnt) (hp : t.params = s.params) :
    t.PollsKept := by
  rw [State.PollsKept, hc, hp]
  exact h

theorem BusRun.pollsKept {s t : State} (h : BusRun s t) (hk : s.PollsKept) : t.PollsKept := hk.of_eq h.pollcnt h.params

theorem State.Inv.pollsKept {s : State} (h : s.Inv) : s.PollsKept := fun l hl => (h.polls l hl).1

theorem State.Inv.withCommands {s : State} (h : s.Inv) (ho : s.opr = none) (cs : List Presented) :
    State.Inv { s with commands := cs } where
  mem := h.mem
  bitcnt := h.bitcnt
  settled := h.settled
  released := h.released
  clock := h.clock
  chipSelect := h.chipSelect
  frame := h.frame
  whole := h.whole
  reference := h.reference
  running := fun op e => absurd (ho.symm.trans e) (by simp)
  polls := h.polls

/-- Taking a command's operands leaves a closed bus closed. -/
theorem State.Closed.taken {s t : State} (h : s.Closed)
    (ht : t = { s with opr := t.opr, addr := t.addr, len := t.len, val := t.val, idx := t.idx, bufRef := t.bufRef }) : t.Closed := by
  rw [ht]
  exact ⟨h.ph, h.cs, h.sck, h.bitcnt, h.frame⟩

theorem State.Closed.rangeFault {s t : State} (h : s.Closed) (hk : s.PollsKept) (op : Op)
    (ht : t = { s with opr := t.opr, addr := t.addr, len := t.len, val := t.val, idx := t.idx, bufRef := t.bufRef }) :
    (t.raise .invalidArgument).Rests op :=
  (h.taken ht).rest (hk.of_eq (by rw [ht]) (by rw [ht])) op _ _

/-- The operation waits as the mode says: inside a raw poll's frame, or between status frames (43_composite_commands.md R193). -/
def WaitsBy (p : Params) (op : Op) (mode : WaitMode) : Prop :=
  ∀ t : State, t.params = p → (t.Waiting op ↔ mode = .waitUntilReady ∧ t.RawPolling ∨ mode = .pollStatus ∧ t.ph = .idle)

theorem waitsBy_writeStatus (p : Params) : WaitsBy p .writeStatus p.wrsrWait := fun _ h => h ▸ Iff.rfl

theorem waitsBy_eraseBlock (p : Params) : WaitsBy p .eraseBlock p.eraseWait := fun _ h => h ▸ Iff.rfl

theorem WaitsBy.completionWait_rests {p : Params} {s : State} {op : Op} {mode : WaitMode} (h : WaitsBy p op mode) (he : s.params = p)
    (ho : s.opr = some op) (hk : s.PollsKept) : (s.completionWait mode State.closing).Rests op :=
  State.completionWait_rests mode ho hk (fun t hp hm hr => (h t (hp.trans he)).2 (.inl ⟨hm, hr⟩))
    fun t hp hm hi => (h t (hp.trans he)).2 (.inr ⟨hm, hi⟩)

theorem WaitsBy.continueWait_rests {s : State} {op : Op} {mode : WaitMode} (h : WaitsBy s.params op mode) (ho : s.opr = some op)
    (hl : s.PollsLeft) (hw : s.Waiting op) (hraw : s.RawPolling → s.RawBus) : (s.continueWait mode State.closing).Rests op := by
  refine State.continueWait_rests mode ho hl (fun hm => hraw ?_) (fun t hp hm hr => (h t hp).2 (.inl ⟨hm, hr⟩))
    fun t hp hm hi => (h t hp).2 (.inr ⟨hm, hi⟩)
  obtain ⟨-, hr⟩ | ⟨hn, -⟩ := (h s rfl).1 hw
  · exact hr
  · rw [hm] at hn; cases hn

/-- Every instruction but the open-frame primitives and `disable` ends with the bus closed, or waits. -/
theorem exec_rests {i : Instr} {s t : State} (hs : s.Inv) (hi : i.op.isPrimitive = false ∨ i = .deselect) (hd : i ≠ .disable)
    (h : exec i s = .next t) : t.Rests i.op := by
  have hb := block_none_of_next h
  have hk := hs.pollsKept
  cases i with
  | disable => exact absurd rfl hd
  | select | sendByte | receiveByte | receiveBytes => simp [Instr.op, Op.isPrimitive] at hi
  | deselect =>
    obtain ⟨-, rfl⟩ := runUnless_next h
    have hc : (s.start .deselect).deselect.Closed := ⟨by simp, by simp, by simp, by simpa using hs.bitcnt, State.deselect_frame _⟩
    exact hc.rest (BusRun.pollsKept (s := s.start .deselect) BusRun.refl.deselect hk) _ _ _
  | init =>
    obtain ⟨-, rfl⟩ := runUnless_next h
    have hp := (blockInit_none_iff.1 hb).2
    have hc : (State.setDir { s.start .init with cs := true, sck := false } .master).Closed :=
      ⟨hp, rfl, rfl, hs.bitcnt, (Dev.tick_frame _).trans (hs.frame hp)⟩
    exact hc.rest hk _ _ _
  | readStatus =>
    obtain ⟨-, rfl⟩ := runUnless_next h
    have hc : (s.start .readStatus).statusFrame.Closed := ⟨by simp, by simp, by simp, by simp, by simp⟩
    exact hc.rest (BusRun.pollsKept (s := s.start .readStatus) BusRun.refl.statusFrame hk) _ _ _
  | waitUntilReady =>
    obtain ⟨-, rfl⟩ := runUnless_next h
    obtain ⟨ho, hl⟩ := (s.start .waitUntilReady).openRawPoll_bus
    have he := State.rawPoll_ends ho hl
    exact afterPoll_rests (rest := State.waitDone) he (fun hv => (he.ended (by rw [hv]; decide)).rest he.kept _ _ _) fun hw hl' =>
      hw.rests hl' ((State.rawPoll_opr _).trans (State.openRawPoll_opr _)) hw.raw
  | writeEnable =>
    obtain ⟨-, rfl⟩ := runUnless_next h
    exact (opcodeFrame_closed _ _).rest (BusRun.pollsKept (s := s.start .writeEnable) (BusRun.refl.opcodeFrame _) hk) _ _ _
  | writeDisable =>
    obtain ⟨-, rfl⟩ := runUnless_next h
    exact State.closing_rests (s.start .writeDisable) hk _
  | readBlock a n r =>
    obtain ⟨-, rfl⟩ := runUnless_next h
    have hc := (closed_of_inv hs (blockCommand_none_iff.1 hb)).1
    split
    · obtain ⟨hc', -, hn, hp, -⟩ := State.readFrame_leaves { s.start .readBlock with addr := a, len := n, bufRef := some r } a n
      exact hc'.rest (hk.of_eq hn hp) _ _ _
    · exact hc.rangeFault hk _ rfl
  | writeByte a v =>
    obtain ⟨-, rfl⟩ := runUnless_next h
    have hc := (closed_of_inv hs (blockCommand_none_iff.1 hb)).1
    split
    · exact (programFrames_closed _ a v).rest
        (BusRun.pollsKept (s := { s.start .writeByte with addr := a, val := v }) (BusRun.refl.programFrames _ _) hk) _ _ _
    · exact hc.rangeFault hk _ rfl
  | writeStatus v =>
    obtain ⟨-, rfl⟩ := runUnless_next h
    have hf := (BusRun.refl (s := { s.start .writeStatus with val := v }).opcodeFrame 0x06).dataFrame 0x01 v
    exact (waitsBy_writeStatus s.params).completionWait_rests hf.params hf.opr (hf.pollsKept hk)
  | eraseBlock a =>
    obtain ⟨-, rfl⟩ := runUnless_next h
    have hc := (closed_of_inv hs (blockCommand_none_iff.1 hb)).1
    split
    · have hf := (BusRun.refl (s := { s.start .eraseBlock with addr := a }).opcodeFrame 0x06).addressFrame 0xD8 a
      exact (waitsBy_eraseBlock s.params).completionWait_rests hf.params hf.opr (hf.pollsKept hk)
    · exact hc.rangeFault hk _ rfl
  | writeBlock a r n =>
    obtain ⟨hw, rfl⟩ := runUnless_next h
    have hc := (closed_of_inv hs (blockCommand_none_iff.1 hb)).1
    split
    · rename_i hr
      have hroom : n.toNat ≤ bufferRoom s.bufs r := by
        by_contra hn
        simp [(blockBuffer_short (a := a) (Nat.lt_of_not_le hn)).2.1] at hw
      exact State.blockLoop_rests _ _ rfl (hc.taken rfl) hk (.inr ⟨hr, by simp, hroom⟩)
    · exact hc.rangeFault hk _ rfl

/-- A command runs only on a held bus (70_reset_and_hazards.md R242). -/
theorem State.Inv.master_of_running {s : State} {op : Op} (h : s.Inv) (ho : s.opr = some op) : s.dir = .master := by
  cases hd : s.dir with
  | master => rfl
  | released => exact absurd ((h.released hd).2.symm.trans ho) (by simp)

/-- A waiting command, gone on, ends with the bus closed or waits again. -/
theorem resume_rests {op : Op} {s t : State} (hs : s.Inv) (ho : s.opr = some op) (h : s.resume op = .next t) : t.Rests op := by
  have hw := hs.running op ho
  have hl : s.PollsLeft := fun l e => (hs.polls l e).2 (by simp [ho])
  have hm := hs.master_of_running ho
  have hraw (hr : s.RawPolling) : s.RawBus :=
    ⟨by rw [← Bool.not_eq_true, hs.chipSelect hm, hr.1]; decide, hs.clock hm, hs.bitcnt, hr⟩
  cases op <;> simp only [State.resume, Host.Outcome.next.injEq, reduceCtorEq] at h <;> subst h
  case waitUntilReady =>
    have he := State.rawPoll_ends (hraw hw) hl
    exact afterPoll_rests (rest := State.waitDone) he (fun hv => (he.ended (by rw [hv]; decide)).rest he.kept _ _ _) fun hb hl' =>
      hb.rests hl' (s.rawPoll_opr.trans ho) hb.raw
  case writeStatus => exact (waitsBy_writeStatus _).continueWait_rests ho hl hw hraw
  case eraseBlock => exact (waitsBy_eraseBlock _).continueWait_rests ho hl hw hraw
  case writeBlock =>
    obtain ⟨-, hr, hi, hroom⟩ := hw
    have he := s.statusPoll_ends hl
    have hp := s.statusPoll_opr.trans ho
    have hrun := s.statusPoll_cmdRun
    have hidx := s.statusPoll_idx.1
    have href := s.statusPoll_bufRef
    have hlen := s.len.isLt
    refine afterPoll_rests (rest := State.blockGoesOn) he (fun hv => ?_) fun hc hl' => hc.rests hl' hp ?_
    · have hc := he.ended (by rw [hv]; decide)
      have hk := he.kept
      generalize s.statusPoll.2 = u at *
      have hn : u.nextByte.idx.toNat = s.idx.toNat + 1 := by rw [State.nextByte_idx, hidx, len_succ_toNat (by omega)]
      refine State.blockLoop_rests _ u.nextByte hp (hc.taken rfl) hk (.inr ?_)
      rw [hn, State.nextByte_addr, State.nextByte_len, State.nextByte_bufs, State.nextByte_bufRef, hrun.addr, hrun.len, hrun.bufs,
        href, hidx]
      exact ⟨hr, by omega, hroom⟩
    · generalize s.statusPoll.2 = u at *
      refine ⟨hc.ph, ?_⟩
      rw [hrun.addr, hrun.len, hrun.bufs, href, hidx]
      exact ⟨hr, hi, hroom⟩

/-! ### A frame that HOST has open (10_state.md R35, R37) -/

/-- The bus inside a frame that HOST opened, `vs` the whole bytes clocked in. -/
structure State.FrameOpen (s : State) (vs : List Byte) : Prop where
  dir : s.dir = .master
  cs : s.cs = false
  sck : s.sck = false
  bitcnt : s.bitcnt = 0
  opened : s.ph ≠ .idle
  settled : s.ph ≠ .deselected
  frame : s.dev.frame = bitsOfBytes vs
  fresh : vs = [] ↔ s.ph = .selected

/-- Between two primitives of an open frame the invariant holds. -/
theorem State.FrameOpen.finish_inv {s : State} {vs : List Byte} (h : s.FrameOpen vs) (hk : s.PollsKept) {e : Err} {r : Option Byte}
    (hm : (s.finish e r).dev.mem.wf) : (s.finish e r).Inv where
  mem := hm
  bitcnt := h.bitcnt
  settled := h.settled
  released := fun e => by rw [State.finish_dir, h.dir] at e; cases e
  clock := fun _ => h.sck
  chipSelect := fun _ => by simp [h.cs, h.opened]
  frame := fun e => absurd e h.opened
  whole := fun _ => ⟨vs, h.frame, h.fresh⟩
  reference := fun _ => rfl
  running := fun op e => by simp at e
  polls := fun l hl => ⟨hk l hl, fun e => absurd rfl e⟩

theorem State.Inv.frameOpen {s : State} (h : s.Inv) (hb : s.blockInFrame = none) : ∃ vs, s.FrameOpen vs := by
  obtain ⟨-, hd, hp, hq⟩ := blockInFrame_none_iff.1 hb
  obtain ⟨vs, hf, hn⟩ := h.whole hp
  exact ⟨vs, hd, by rw [← Bool.not_eq_true, h.chipSelect hd]; exact hp, h.clock hd, h.bitcnt, hp, hq, hf, hn⟩

/-- PH inside a frame, behind its first byte. -/
def Phase.BehindByte (p : Phase) : Prop := p = .opcodeSent ∨ p = .addressSent ∨ p = .dataPhase

theorem phaseAfterSend_behindByte (bits : List Bool) (p : Phase) : (phaseAfterSend bits p).BehindByte := by
  unfold phaseAfterSend
  split_ifs <;> simp [Phase.BehindByte]

/-- Whole bytes clocked in keep the frame open. -/
theorem State.FrameOpen.clocked {s t : State} {vs ws : List Byte} {n : Nat} {p : Phase} (h : s.FrameOpen vs)
    (hc : Clocked s t n (bitsOfBytes ws)) (hd : t.dir = s.dir) (hk : t.sck = false) (hb : t.bitcnt = 0) (hp : p.BehindByte)
    (hn : vs ++ ws ≠ []) : (t.setPhase p).FrameOpen (vs ++ ws) where
  dir := hd.trans h.dir
  cs := hc.cs.trans h.cs
  sck := hk
  bitcnt := hb
  opened := by obtain rfl | rfl | rfl := hp <;> simp
  settled := by obtain rfl | rfl | rfl := hp <;> simp
  frame := by rw [State.setPhase_dev, hc.frame, h.frame, bitsOfBytes_append]
  fresh := by obtain rfl | rfl | rfl := hp <;> simpa using hn

theorem select_keeps_inv {s t : State} (hs : s.Inv) (h : exec .select s = .next t) : t.Inv := by
  have hm := (exec_devRun (by simp) h).wf hs.mem
  obtain ⟨hb, rfl⟩ := runUnless_next h
  have hd := (blockCommand_none_iff.1 hb).2.1
  have ho : (s.start .select).select.FrameOpen [] :=
    ⟨by simpa using hd, by simp, by simp, by simpa using hs.bitcnt, by simp, by simp, by rw [State.select_dev]; rfl, by simp⟩
  exact ho.finish_inv (BusRun.pollsKept (s := s.start .select) BusRun.refl.select hs.pollsKept) hm

theorem sendByte_keeps_inv {v : Byte} {s t : State} (hs : s.Inv) (h : exec (.sendByte v) s = .next t) : t.Inv := by
  have hm := (exec_devRun (by simp) h).wf hs.mem
  obtain ⟨vs, hf⟩ := hs.frameOpen (block_none_of_next h)
  obtain ⟨-, rfl⟩ := runUnless_next h
  have hc : Clocked s ((s.start .sendByte).sendByte v) 40 (bitsOfBytes [v]) :=
    (State.sendByte_clocked (s := s.start .sendByte) hf.cs v).from_dev rfl rfl
  exact (hf.clocked hc (by simp) (by simp) (by simp) (phaseAfterSend_behindByte _ _) (by simp)).finish_inv
    (((BusRun.refl (s := s.start .sendByte).sendByte v).setPhase _).pollsKept hs.pollsKept) hm

theorem receiveByte_keeps_inv {s t : State} (hs : s.Inv) (h : exec .receiveByte s = .next t) : t.Inv := by
  have hm := (exec_devRun (by simp) h).wf hs.mem
  obtain ⟨vs, hf⟩ := hs.frameOpen (block_none_of_next h)
  obtain ⟨-, rfl⟩ := runUnless_next h
  have hc : Clocked s (s.start .receiveByte).receiveByte 40 (bitsOfBytes [heldByte s.di]) :=
    (State.receiveByte_clocked (s := s.start .receiveByte) hf.cs).from_dev rfl rfl
  exact (hf.clocked hc (by simp) (by simp) (by simp) (.inr (.inr rfl)) (by simp)).finish_inv
    (((BusRun.refl (s := s.start .receiveByte).receiveByte).setPhase _).pollsKept hs.pollsKept) hm

/-- At least one byte received keeps the frame open. -/
theorem State.FrameOpen.receiveBytes {s : State} {vs : List Byte} {n : Len} (h : s.FrameOpen vs) (hn : n ≠ 0) :
    ∃ ws, ((s.receiveBytes n.toNat).setPhase .dataPhase).FrameOpen ws := by
  obtain ⟨rs, hl, hr⟩ := s.receiveBytes_received n
  have hrs : rs ≠ [] := by
    rintro rfl
    exact hn (BitVec.eq_of_toNat_eq hl.symm)
  have hc := (hr.clocked h.cs).from_dev (s := s) rfl rfl
  exact ⟨_, h.clocked hc (s.receiveBytes_dir n) (hr.sck h.sck) (hr.bitcnt hrs) (.inr (.inr rfl)) (by simp [hrs])⟩

theorem receiveBytes_keeps_inv {n : Len} {r : BufRef} {s t : State} (hs : s.Inv) (h : exec (.receiveBytes n r) s = .next t) :
    t.Inv := by
  have hm := (exec_devRun (by simp) h).wf hs.mem
  obtain ⟨vs, hf⟩ := hs.frameOpen (block_none_of_next h)
  have hu : State.FrameOpen { s.start .receiveBytes with bufRef := some r } vs :=
    ⟨hf.dir, hf.cs, hf.sck, hf.bitcnt, hf.opened, hf.settled, hf.frame, hf.fresh⟩
  simp only [exec, execReceiveBytes] at h
  split at h
  · rename_i hn
    obtain ⟨-, rfl⟩ := runUnless_next h
    subst hn
    exact State.FrameOpen.finish_inv (s := { s.start .receiveBytes with bufRef := some r, idx := 0 })
      ⟨hu.dir, hu.cs, hu.sck, hu.bitcnt, hu.opened, hu.settled, hu.frame, hu.fresh⟩ hs.pollsKept hm
  · rename_i hn
    obtain ⟨-, rfl⟩ := runUnless_next h
    obtain ⟨ws, ho⟩ := hu.receiveBytes hn
    exact ho.finish_inv (hs.pollsKept.of_eq (State.receiveBytes_pollcnt _ n) (State.receiveBytes_params _ n)) hm

/-! ### Every step keeps the invariant -/

theorem State.visited_frame (s : State) : s.visited.dev.frame = s.dev.frame := by
  simp only [State.visited]
  split <;> rfl

theorem State.visited_wf {s : State} (h : s.dev.mem.wf) : s.visited.dev.mem.wf := by
  simp only [State.visited]
  split
  · exact h
  · exact Memory.wf_writeAll h _

theorem State.release_eq (s : State) :
    s.release = { s with
      dir := .released, trace := s.trace ++ [.dir .released], dev := s.release.dev, draws := s.release.draws } := State.visited_eq _

theorem disable_keeps_inv {s t : State} (hs : s.Inv) (h : exec .disable s = .next t) : t.Inv := by
  obtain ⟨hb, rfl⟩ := runUnless_next h
  obtain ⟨-, -, hp⟩ := blockCommand_none_iff.1 hb
  have hm : (s.start .disable).release.dev.mem.wf := State.visited_wf (by simpa [State.setDir] using hs.mem)
  have hf : (s.start .disable).release.dev.frame = [] :=
    (State.visited_frame _).trans (by simpa [State.setDir] using hs.frame hp)
  rw [State.release_eq]
  exact {
    mem := hm, bitcnt := hs.bitcnt, settled := hs.settled, released := fun _ => ⟨hp, rfl⟩
    clock := nofun, chipSelect := nofun, frame := fun _ => hf, whole := fun e => absurd hp e
    reference := fun _ => rfl, running := nofun, polls := fun l hl => ⟨hs.pollsKept l hl, fun e => absurd rfl e⟩ }

/-- Every instruction keeps the invariant. -/
theorem exec_keeps_inv {i : Instr} {s t : State} (hs : s.Inv) (h : exec i s = .next t) : t.Inv := by
  by_cases hd : i = .disable
  · exact disable_keeps_inv hs (hd ▸ h)
  have rests (hi : i.op.isPrimitive = false ∨ i = .deselect) : t.Inv :=
    inv_of_rests (exec_rests hs hi hd h) (master_after_next hd h) ((exec_devRun hd h).wf hs.mem)
  cases i with
  | select => exact select_keeps_inv hs h
  | sendByte v => exact sendByte_keeps_inv hs h
  | receiveByte => exact receiveByte_keeps_inv hs h
  | receiveBytes n r => exact receiveBytes_keeps_inv hs h
  | deselect => exact rests (.inr rfl)
  | _ => exact rests (.inl rfl)

/-- A waiting command, gone on, keeps the invariant. -/
theorem resume_keeps_inv {op : Op} {s t : State} (hs : s.Inv) (ho : s.opr = some op) (h : s.resume op = .next t) : t.Inv :=
  inv_of_rests (resume_rests hs ho h) ((resume_cmdRun h).dir.trans (hs.master_of_running ho)) ((resume_devRun h).wf hs.mem)

/-! ### The statements -/

/-- Settles O56: a step goes on with a waiting command, does nothing, or runs an instruction, and each keeps the invariant. -/
theorem stepKeepsInv : Obligations.StepKeepsInv := by
  intro s t hs h
  obtain ⟨op, ho, h⟩ | rfl | ⟨i, rest, ho, h⟩ := step_next_cases h
  · exact resume_keeps_inv hs ho h
  · exact hs
  · exact exec_keeps_inv (hs.withCommands ho rest) h

/-- Settles O6: by the two lifecycle operations' checks, and by what the other instructions and the waits leave alone. -/
theorem dirChangesOnlyByLifecycle : Obligations.DirChangesOnlyByLifecycle :=
  ⟨init_cases, disable_cases, fun _ _ _ h1 h2 h => dir_of_next h1 h2 h,
    fun _ _ _ ho h => (resume_cmdRun (step_running ho ▸ h)).dir⟩

/-- Settles O45: each of these instructions is one that stores nothing. -/
theorem arrayFrame : Obligations.ArrayFrame := by
  intro i s t hi h b
  have hn : storesNothing i.op = true := by
    rcases hi with rfl | ⟨_, rfl⟩ | rfl | ⟨_, _, rfl⟩ | rfl | rfl | rfl | rfl | rfl | ⟨_, _, _, rfl⟩ | ⟨_, rfl⟩ <;> rfl
  exact Dev.read_congr (mem_of_next hn h) b

/-- Settles O54: the first check refuses every instruction, and a poll leaves its command running or ended with the bus idle. -/
theorem oneCommandAtATime : Obligations.OneCommandAtATime := by
  refine ⟨fun i s op ho => exec_blocked (block_of_running ho), fun s t op ho h => ?_⟩
  rw [step_running ho] at h
  refine ⟨(resume_cmdRun h).commands, ?_⟩
  obtain hr | ⟨hn, hb⟩ := resume_stands ho h
  · exact ⟨.inl hr, fun e => absurd (hr.symm.trans e) (by simp)⟩
  · exact ⟨.inr hn, fun _ => hb⟩

/-- Settles O55: what does not wait has come to rest with the bus closed. -/
theorem commandEndsIdle : Obligations.CommandEndsIdle := by
  intro i s t hs h ho hd hi
  by_cases hn : i = .disable
  · subst hn
    obtain ⟨-, rfl⟩ := runUnless_next h
    rw [State.finish_dir, State.release_dir] at hd
    cases hd
  · obtain ⟨-, -, hc, -⟩ | ⟨hr, -⟩ := exec_rests hs hi hn h
    · exact ⟨hc.ph, hc.cs, hc.sck, hc.bitcnt, hc.frame⟩
    · exact absurd (hr.symm.trans ho) (by simp)

/-- Settles O1. -/
theorem resetState : Obligations.ResetState := ⟨rfl, rfl, rfl, rfl, rfl, rfl, rfl, rfl, rfl, rfl, step_quiet rfl rfl⟩

/-- Settles O2: reset is released and idle, the array empty, and no poll counted. -/
theorem resetInv : Obligations.ResetInv where
  mem := by decide
  bitcnt := rfl
  settled := nofun
  released := fun _ => ⟨rfl, rfl⟩
  clock := nofun
  chipSelect := nofun
  frame := fun _ => rfl
  whole := fun e => absurd rfl e
  reference := fun _ => rfl
  running := nofun
  polls := fun l _ => ⟨Nat.zero_le l, fun e => absurd rfl e⟩

/-- Settles O42. -/
theorem statusByteBits : Obligations.StatusByteBits := fun p b w x =>
  ⟨busyBit_statusByte p b w x, welBit_statusByte p b w x, drawnBit_statusByte p b w x⟩

/-- Settles O52: the three ways a step begins with no command running. -/
theorem stepRunsCommand : Obligations.StepRunsCommand :=
  ⟨fun i _ _ ho hc => step_command ho hc (decode_encode i), fun _ _ _ _ ho hc hd => step_malformed ho hc hd, fun _ => step_quiet⟩

/-- Settles O53: the word's instruction is put first at the port, and is read back from there. -/
theorem stepRunsTableWord : Obligations.StepRunsTableWord := by
  intro s nbits w i h
  have hp : s.withFetchWord nbits w = { s.readyForCommand with commands := encode i :: s.commands } := by
    simp only [State.withFetchWord, State.presentWord, h]
  rw [hp, step_command (s := { s.readyForCommand with commands := encode i :: s.commands }) s.readyForCommand_opr rfl (decode_encode i)]
  cases hd : s.dir <;> simp only [State.readyForCommand, hd]

end Sys2Proof.Machine
end

section
/-! PROOFS. DEV, the flash device, as the statements on it ask (20_memory.md). The main lemmas: what a `deselect` makes of the frame it
closes (`deselect_ignored`, `deselect_accepted` and one lemma per frame), what each command leaves of the latch (`Latches`), and what a
read of a ready device brings into the buffer (`readBlock_answered`). -/

namespace Sys2Proof.Machine

/-! ### The frame a `deselect` closes (20_memory.md R72, R76 to R83) -/

theorem State.commit_ignored {s : State} (h : ∀ c, frameOfBits s.dev.frame = some c → s.dev.accepts c = false) :
    s.commit.dev = { s.dev with frame := [] } := by
  cases hf : frameOfBits s.dev.frame with
  | none => simp only [State.commit, hf]
  | some c => simp [State.commit_of_frame hf, h c hf]

theorem State.commit_accepted {s : State} {c : FrameCmd} (hf : frameOfBits s.dev.frame = some c) (ha : s.dev.accepts c = true) :
    s.commit.dev = { (s.carryOut c).dev with frame := [] } := by
  simp [State.commit_of_frame hf, ha]

/-- A frame DEV does not accept as CS rises changes neither the array nor the latch nor SRX. -/
theorem deselect_ignored {s t : State} (h : exec .deselect s = .next t)
    (hc : ∀ c, frameOfBits s.dev.frame = some c → s.dev.tick.accepts c = false) :
    t.dev.mem = s.dev.mem ∧ t.dev.wel = s.dev.wel ∧ t.dev.srx = s.dev.srx := by
  rw [(deselect_next h).1, State.commit_ignored (s := s.tick) (by simpa using hc)]
  simp

/-- A frame DEV accepts as CS rises is carried out, and two more events follow. -/
theorem deselect_accepted {s t : State} {c : FrameCmd} (h : exec .deselect s = .next t) (hf : frameOfBits s.dev.frame = some c)
    (ha : s.dev.tick.accepts c = true) : t.dev = Dev.ticks { (s.tick.carryOut c).dev with frame := [] } 2 := by
  rw [(deselect_next h).1, State.commit_accepted (s := s.tick) (by simpa using hf) ha]

/-- The frames that write the latch (20_memory.md R76, R77), on a ready device. -/
theorem deselect_latch {s t : State} {c : FrameCmd} {w : Bool} (h : exec .deselect s = .next t)
    (hf : frameOfBits s.dev.frame = some c) (hw : c = .writeEnable ∧ w = true ∨ c = .writeDisable ∧ w = false)
    (hb : s.dev.tick.busy = false) :
    t.dev.wel = w ∧ t.dev.busy = false ∧ t.dev.mem = s.dev.mem ∧ t.dev.srx = s.dev.srx := by
  have ha : s.dev.tick.accepts c = true := by obtain ⟨rfl, -⟩ | ⟨rfl, -⟩ := hw <;> simp [Dev.accepts, hb]
  have he : (s.tick.carryOut c).dev = { s.dev.tick with wel := w } := by obtain ⟨rfl, rfl⟩ | ⟨rfl, rfl⟩ := hw <;> rfl
  rw [deselect_accepted h hf ha, he]
  exact ⟨by simp, Dev.ticks_busy_mono hb, by simp, by simp⟩

/-- DEV `e` after a `deselect` at which `d` took a frame and began a busy cycle of length `l` (20_memory.md R78, R80, R81): the latch as
it was, the array `m`, SRX `x`, and the cycle two events old. -/
structure Dev.Wrote (d e : Dev) (m : Memory) (x : Byte) (l : Option Nat) : Prop where
  wel : e.wel = d.wel
  mem : e.mem = m
  srx : e.srx = x
  busy : e.busy = stillBusy l 2

/-- A frame that DEV accepts and that begins a busy cycle. -/
theorem deselect_wrote {s t : State} {c : FrameCmd} {l : Option Nat} (h : exec .deselect s = .next t)
    (hf : frameOfBits s.dev.frame = some c) (ha : s.dev.tick.accepts c = true) (hl : (s.tick.carryOut c).dev.StartsBusy l)
    (hw : (s.tick.carryOut c).dev.wel = s.dev.tick.wel) :
    s.dev.Wrote t.dev (s.tick.carryOut c).dev.mem (s.tick.carryOut c).dev.srx l := by
  rw [deselect_accepted h hf ha]
  exact ⟨by simp [hw], by simp, by simp, by simp [Dev.ticks_busy, hl.1, hl.2]⟩

section
variable {s t : State} (h : exec .deselect s = .next t) (hb : s.dev.tick.busy = false) (hw : s.dev.wel = true)
include h hb hw

/-- A status write (20_memory.md R78). -/
theorem deselect_writeStatus {v : Byte} (hf : frameOfBits s.dev.frame = some (.writeStatus v)) :
    s.dev.Wrote t.dev s.dev.mem (Config.freeSrxAfterWrite v s.draws.count)
      (Draws.latency { s.draws with count := s.draws.count + 1 }).1 := by
  have k := deselect_wrote h hf (by simp [Dev.accepts, hb, hw]) ⟨rfl, rfl⟩ rfl
  exact ⟨k.wel, k.mem.trans s.dev.tick_mem, k.srx, k.busy⟩

/-- A program of the byte it reaches, if there is one (20_memory.md R80). -/
theorem deselect_program {a : Addr} {v : Byte} (hf : frameOfBits s.dev.frame = some (.program a v)) :
    s.dev.Wrote t.dev (s.dev.programmed (s.draws.target a).1 v) s.dev.srx (s.draws.target a).2.latency.1 := by
  have k := deselect_wrote h hf (by simp [Dev.accepts, hb, hw]) ⟨rfl, rfl⟩ rfl
  refine ⟨k.wel, k.mem.trans ?_, k.srx.trans s.dev.tick_srx, k.busy⟩
  show s.dev.tick.programmed (s.draws.target a).1 v = _
  simp [Dev.programmed, Dev.read_congr s.dev.tick_mem]

/-- An erase of the block of the byte it reaches, if there is one (20_memory.md R81). -/
theorem deselect_erase {a : Addr} (hf : frameOfBits s.dev.frame = some (.erase a)) :
    s.dev.Wrote t.dev (s.dev.erased s.params (s.draws.target a).1) s.dev.srx (s.draws.target a).2.latency.1 := by
  have k := deselect_wrote h hf (by simp [Dev.accepts, hb, hw]) ⟨rfl, rfl⟩ rfl
  refine ⟨k.wel, k.mem.trans ?_, k.srx.trans s.dev.tick_srx, k.busy⟩
  show s.dev.tick.erased s.params (s.draws.target a).1 = _
  simp [Dev.erased]

end

theorem Draws.target_outside {a : Addr} (h : Config.flashSize ≤ a.toNat) (d : Draws) :
    (d.target a).2 = { d with count := d.count + 1 } := by
  simp [Draws.target, Nat.not_lt.2 h]

/-- A frame that acts on the byte it reaches as `f` says: the byte addressed, inside the array; outside it a free byte of the array, or
none, and one more draw is taken (20_memory.md R69). -/
theorem Dev.Wrote.reached {d e : Dev} {m : Memory} {x : Byte} {w : Draws} {a : Addr} {f : Nat → Nat → Byte}
    (k : d.Wrote e m x (w.target a).2.latency.1)
    (hr : ∀ b, e.read b = match (w.target a).1 with | some y => f y b | none => d.read b) :
    (a.toNat < Config.flashSize → e.busy = stillBusy w.latency.1 2 ∧ ∀ b, e.read b = f a.toNat b) ∧
      (Config.flashSize ≤ a.toNat →
        e.busy = stillBusy (Draws.latency { w with count := w.count + 1 }).1 2 ∧
          match (w.target a).1 with
          | some y => y < Config.flashSize ∧ ∀ b, e.read b = f y b
          | none => ∀ b, e.read b = d.read b) := by
  refine ⟨fun ha => ?_, fun ha => ⟨by rw [k.busy, Draws.target_outside ha], ?_⟩⟩
  · rw [Draws.target_inside ha] at k hr
    exact ⟨k.busy, hr⟩
  · cases ht : (w.target a).1 with
    | none => rw [ht] at hr; exact hr
    | some y => rw [ht] at hr; exact ⟨Draws.target_lt ht, hr⟩

/-! ### The latch (20_memory.md R77, R85) -/

/-- The latch is set, or a command has ended OK. -/
def State.Latches (s : State) : Prop := s.Latched ∨ s.opr = none ∧ s.err = .ok

theorem State.Latched.nextByte {s : State} (h : s.Latched) : s.nextByte.Latched := h
theorem State.Latched.finish {s : State} (h : s.Latched) (e : Err) (r : Option Byte) : (s.finish e r).Latched := h

theorem State.closing_latches (s : State) : s.closing.Latches := .inr ⟨rfl, rfl⟩

/-- What holds of each way a poll can end a step holds of the step. -/
theorem afterPoll_of {P : State → Prop} {rest : State → State} {p : Poll × State} (hr : P (rest p.2))
    (ht : P (p.2.raise .deviceTimeout)) (hb : P p.2) : P (afterPoll rest p) := by
  obtain ⟨_ | _ | _, t⟩ := p
  · exact hr
  · exact hb
  · exact ht

theorem afterPoll_latches {rest : State → State} {p : Poll × State} (hr : (rest p.2).Latches) (hp : p.2.Latched) :
    (afterPoll rest p).Latches := afterPoll_of hr (.inl hp) (.inl hp)

theorem State.statusPoll_latched {s : State} (hw : s.Latched) : s.statusPoll.2.Latched := s.statusPoll_wel.trans hw

theorem State.continueWait_latches {s : State} (hf : frameOfBits s.dev.frame ≠ some .writeDisable) (hw : s.Latched)
    (mode : WaitMode) : (s.continueWait mode State.closing).Latches := by
  cases mode with
  | none => exact s.closing_latches
  | waitUntilReady => exact afterPoll_latches (State.closing_latches _) (State.rawPoll_wel hf hw)
  | pollStatus => exact afterPoll_latches (State.closing_latches _) (State.statusPoll_latched hw)

theorem State.completionWait_latches {s : State} (hw : s.Latched) (mode : WaitMode) :
    (s.completionWait mode State.closing).Latches := by
  cases mode with
  | none => exact s.closing_latches
  | waitUntilReady => exact afterPoll_latches (State.closing_latches _) (State.openRawPoll_wel hw)
  | pollStatus => exact afterPoll_latches (State.closing_latches _) (State.statusPoll_latched (s := s.startPolls) hw)

theorem State.blockByte_latched {s : State} (ha : inRange (byteAddr s.addr s.idx) 1 = true) (hw : s.Latched) :
    s.blockByte.Latched := by
  have hp : (s.takeByte.programFrames (byteAddr s.addr s.idx) s.nextVal).Latched :=
    State.programFrames_wel _ _ (inRange_iff.1 ha).1 hw
  simp only [State.Latched, s.blockByte_eq, Dev.tick_wel]
  exact hp

theorem State.blockLoop_latches (k : Nat) : ∀ s : State, s.Latched → (State.blockLoop k s).Latches := by
  induction k with
  | zero => exact fun s _ => s.closing_latches
  | succ k ih =>
    intro s hw
    rw [State.blockLoop]
    split
    · rename_i ha
      have hp := State.statusPoll_latched (State.blockByte_latched ha hw)
      exact afterPoll_latches (ih _ hp.nextByte) hp
    · exact .inl hw

theorem State.readFrame_latched {s : State} (hw : s.Latched) (a : Addr) (n : Len) : (s.readFrame a n.toNat).Latched := by
  have hi : (s.readOpen a n.toNat).idx.toNat = 0 := by rw [s.readOpen_eq]; rfl
  obtain ⟨rs, hl, h⟩ := (s.readOpen a n.toNat).receiveTurns_received n.toNat (by rw [hi, Nat.zero_add]; exact n.isLt)
  rw [State.Latched, s.readFrame_run a n.toNat n.isLt rs hl h]
  exact (Dev.ticks_wel _ _).trans hw

/-- The operations that can end with the latch fallen: they send a frame 0x04, close a frame of HOST's own, or let another master in. -/
def mayUnlatch : Op → Bool
  | .deselect | .disable | .writeDisable | .writeStatus | .eraseBlock | .writeBlock => true
  | _ => false

/-- The others keep a latch that is set. -/
theorem latched_of_next {i : Instr} {s t : State} (hi : mayUnlatch i.op = false) (h : exec i s = .next t) (hw : s.Latched) :
    t.Latched := by
  cases i with
  | deselect | disable | writeDisable | writeStatus | eraseBlock | writeBlock => cases hi
  | select =>
    obtain ⟨-, rfl⟩ := runUnless_next h
    simpa [State.Latched, State.select_dev] using hw
  | sendByte v =>
    obtain ⟨-, rfl⟩ := runUnless_next h
    exact (State.sendBits_wel 8 { s.start .sendByte with sr := v, bitcnt := 8 }).trans hw
  | receiveByte =>
    obtain ⟨-, rfl⟩ := runUnless_next h
    exact (State.receiveByte_wel (s.start .receiveByte)).trans hw
  | receiveBytes n r =>
    have hl := State.receiveTurns_wel n.toNat { s.start .receiveBytes with bufRef := some r, idx := 0 }
    simp only [exec, execReceiveBytes] at h
    split at h <;> (obtain ⟨-, rfl⟩ := runUnless_next h; exact hl.trans hw)
  | init =>
    obtain ⟨-, rfl⟩ := runUnless_next h
    exact (Dev.tick_wel _).trans hw
  | readStatus =>
    obtain ⟨-, rfl⟩ := runUnless_next h
    obtain ⟨-, -, hl, -⟩ := (s.start .readStatus).statusFrame_dev
    exact hl.trans hw
  | waitUntilReady =>
    obtain ⟨-, rfl⟩ := runUnless_next h
    have hp : (s.start .waitUntilReady).openRawPoll.rawPoll.2.Latched := State.openRawPoll_wel hw
    exact afterPoll_of (rest := State.waitDone) hp hp hp
  | writeEnable =>
    obtain ⟨-, rfl⟩ := runUnless_next h
    rw [State.Latched, State.finish_dev, (State.enableFrame_dev _).1, Dev.enabled_wel]
    exact Dev.latchAfterEnable_set hw
  | readBlock a n r =>
    obtain ⟨-, rfl⟩ := runUnless_next h
    split
    · exact State.readFrame_latched (s := { s.start .readBlock with addr := a, len := n, bufRef := some r }) hw a n
    · exact hw
  | writeByte a v =>
    obtain ⟨-, rfl⟩ := runUnless_next h
    split
    · rename_i ha
      exact State.programFrames_wel (s := { s.start .writeByte with addr := a, val := v }) a v (inRange_iff.1 ha).1 hw |>.finish _ _
    · exact hw

/-- The three commands with a closing WriteDisable keep a latch that is set, unless they have ended OK. -/
theorem latches_of_next {i : Instr} {s t : State} (hi : i.op = .writeStatus ∨ i.op = .eraseBlock ∨ i.op = .writeBlock)
    (h : exec i s = .next t) (hw : s.Latched) : t.Latches := by
  cases i with
  | writeStatus v =>
    obtain ⟨-, rfl⟩ := runUnless_next h
    exact State.completionWait_latches (State.writeStatusFrames_wel (s := { s.start .writeStatus with val := v }) v hw) _
  | eraseBlock a =>
    obtain ⟨-, rfl⟩ := runUnless_next h
    split
    · rename_i ha
      exact State.completionWait_latches
        (State.eraseFrames_wel (s := { s.start .eraseBlock with addr := a }) a (inRange_iff.1 ha).1 hw) _
    · exact .inl hw
  | writeBlock a r n =>
    obtain ⟨-, rfl⟩ := runUnless_next h
    split
    · exact State.blockLoop_latches _ _ hw
    · exact .inl hw
  | _ => simp [Instr.op] at hi

/-- A `deselect` of HOST's keeps a latch that is set, unless it closes a frame 0x04. -/
theorem deselect_latched {s t : State} (h : exec .deselect s = .next t) (hf : frameOfBits s.dev.frame ≠ some .writeDisable)
    (hw : s.Latched) : t.Latched := by
  obtain ⟨-, rfl⟩ := runUnless_next h
  exact State.deselect_wel (s := s.start .deselect) hf hw

/-- A waiting command, gone on, keeps a latch that is set, unless it has ended OK; WaitUntilReady keeps it even then. -/
theorem resume_latches {op : Op} {s t : State} (h : s.resume op = .next t)
    (hf : frameOfBits s.dev.frame ≠ some .writeDisable) (hw : s.Latched) : t.Latched ∨ op ≠ .waitUntilReady ∧ t.Latches := by
  cases op <;> simp only [State.resume, Host.Outcome.next.injEq, reduceCtorEq] at h <;> subst h
  case waitUntilReady =>
    have hp := State.rawPoll_wel hf hw
    exact .inl (afterPoll_of (rest := State.waitDone) hp hp hp)
  case writeStatus => exact .inr ⟨by decide, State.continueWait_latches hf hw _⟩
  case eraseBlock => exact .inr ⟨by decide, State.continueWait_latches hf hw _⟩
  case writeBlock =>
    have hp := State.statusPoll_latched hw
    exact .inr ⟨by decide, afterPoll_latches (rest := State.blockGoesOn) (State.blockLoop_latches _ _ hp.nextByte) hp⟩

theorem State.Latches.ended {t : State} (h : t.Latches) (hw : t.dev.wel = false) : t.opr = none ∧ t.err = .ok :=
  h.resolve_left fun k => by rw [State.Latched, hw] at k; cases k

/-! ### A read of a ready device (42_data_commands.md R170, 20_memory.md R79) -/

theorem Dev.bytes_length (d : Dev) (a n : Nat) : (d.bytes a n).length = n := by simp [Dev.bytes]

/-- The read frame that DEV hears while ready: the bytes of the array go into the buffer, and no free value is taken. -/
theorem State.readFrame_answered {s : State} {a : Addr} {n : Len} {r : BufRef} (hr : s.bufRef = some r)
    (hn : n.toNat ≤ bufferRoom s.bufs r) (hb : (s.dev.ticks 2).busy = false) (ha : a.toNat + n.toNat ≤ Config.flashSize) :
    s.readFrame a n.toNat = { s with
      cs := true, sck := false, di := (a.extractLsb' 0 8).getLsbD 0, sr := (s.dev.bytes a.toNat n.toNat).getLastD 0, bitcnt := 0
      ph := .idle, trace := s.trace ++ readFrameEvents s.params a (s.dev.bytes a.toNat n.toNat), idx := n
      bufs := bufferStore s.bufs r (s.dev.bytes a.toNat n.toNat)
      dev := { s.dev.ticks (166 + 40 * n.toNat) with frame := [], heardBusy := false } } := by
  have he := s.readOpen_eq a n.toNat
  have hm : (s.readOpen a n.toNat).dev.mem = s.dev.mem := by simp [he]
  obtain ⟨h, hw⟩ := State.receiveTurns_answered (s := s.readOpen a n.toNat) (a := a) (more := []) (by rw [he]) (by rw [he]; simp)
    (by rw [he]; exact hb) n.toNat (by simpa using ha) (by rw [he]; simpa using n.isLt)
  rw [List.length_nil, Nat.add_zero, Dev.bytes_congr hm] at h
  have hl := Dev.bytes_length s.dev a.toNat n.toNat
  rw [s.readFrame_run a n.toNat n.isLt _ hl h, hw, hr, bufferFill_zero _ _ _ (by rw [hl]; exact hn), hb, he]
  simp [List.getLast_eq_getLastD]

theorem bufferBytes_bufferStore {bufs : List (List Byte)} {r : BufRef} {vs : List Byte} (h : vs.length ≤ bufferRoom bufs r) :
    bufferBytes (bufferStore bufs r vs) r vs.length = vs := by
  refine List.ext_getElem (by simp [bufferBytes]) fun k _ hk => ?_
  simp [bufferBytes, bufferGet_bufferStore h, hk]

/-- ReadBlock of a ready device ends with the bytes of the array in its buffer. -/
theorem readBlock_answered {a : Addr} {n : Len} {r : BufRef} {s : State} (hs : s.Accepts) (hb : s.dev.busy = false)
    (hn : n.toNat ≤ bufferRoom s.bufs r) (ha : a.toNat < Config.flashSize) (he : a.toNat + n.toNat ≤ Config.flashSize) :
    ∃ u, exec (.readBlock a n r) s = .next u ∧ bufferBytes u.bufs r n.toNat = s.dev.bytes a.toNat n.toNat := by
  refine ⟨_, readBlock_run a n r s hs hn ha he, ?_⟩
  have hu := State.readFrame_answered (s := { s.start .readBlock with addr := a, len := n, bufRef := some r }) rfl hn
    (Dev.ticks_busy_mono hb) he
  have hl := Dev.bytes_length s.dev a.toNat n.toNat
  have hst := bufferBytes_bufferStore (bufs := s.bufs) (r := r) (vs := s.dev.bytes a.toNat n.toNat) (by rw [hl]; exact hn)
  rw [hl] at hst
  exact hu ▸ hst

theorem Dev.bytes_eq_map {d : Dev} {a n : Nat} {f : Nat → Byte} (h : ∀ j, j < n → d.read (a + j) = f j) :
    d.bytes a n = (List.range n).map f := List.map_congr_left fun j hj => h j (List.mem_range.1 hj)

/-! ### EraseBlock and WriteBlock (43_composite_commands.md R191, R192) -/

theorem State.completionWait_stands {s : State} {op : Op} (ho : s.opr = some op) (mode : WaitMode) :
    (s.completionWait mode State.closing).Stands op := by
  cases mode with
  | none => exact s.closing_stands op
  | waitUntilReady => exact State.continueWait_stands (s.openRawPoll_opr.trans ho) .waitUntilReady
  | pollStatus => exact State.continueWait_stands (s := s.startPolls) ho .pollStatus

/-- The erase frames of a ready device erase the block (20_memory.md R81). -/
theorem State.eraseFrames_read {s : State} {a : Addr} (ha : a.toNat < Config.flashSize) (hb : s.dev.busy = false) (b : Nat) :
    ((s.opcodeFrame 0x06).addressFrame 0xD8 a).dev.read b =
      if b / s.params.blockSize = a.toNat / s.params.blockSize then 0xFF else s.dev.read b := by
  rw [(s.eraseFrames_dev a ha).1, if_pos ⟨Dev.ticks_busy_mono hb, Dev.latchAfterEnable_ready hb⟩, Dev.read_ticks,
    ← Dev.read_eraseBlock s.dev s.params a.toNat b]
  rfl

/-- EraseBlock of a ready device: the block is erased when the step ends, the buffers are kept, and with no command running any
longer the bus is idle. -/
theorem eraseBlock_leaves {a : Addr} {s t : State} (hs : s.Accepts) (hb : s.dev.busy = false) (ha : a.toNat < Config.flashSize)
    (h : exec (.eraseBlock a) s = .next t) :
    t.dir = .master ∧ t.bufs = s.bufs ∧ (t.opr = none → t.ph = .idle) ∧
      ∀ b, t.dev.read b = if b / s.params.blockSize = a.toNat / s.params.blockSize then 0xFF else s.dev.read b := by
  obtain rfl : _ = t := by simpa [eraseBlock_next a s hs ha] using h
  have hf := (BusRun.refl (s := { s.start .eraseBlock with addr := a }).opcodeFrame 0x06).addressFrame 0xD8 a
  have hc := hf.cmdRun.completionWait s.params.eraseWait
  refine ⟨hc.dir.trans hs.2.1, hc.bufs, fun hn => ?_, fun b => ?_⟩
  · obtain hr | ⟨-, hi, -⟩ := State.completionWait_stands hf.opr s.params.eraseWait
    · exact absurd (hr.symm.trans hn) (by simp)
    · exact hi
  · rw [Dev.read_congr (State.completionWait_mem _ _)]
    exact State.eraseFrames_read (s := { s.start .eraseBlock with addr := a }) ha hb b

theorem writeBlock_next {a : Addr} {r : BufRef} {n : Len} {s : State} (hs : s.Accepts) (hn : n.toNat ≤ bufferRoom s.bufs r)
    (hr : inRange a n.toNat = true) :
    exec (.writeBlock a r n) s =
      .next (State.blockLoop n.toNat { s.start .writeBlock with addr := a, len := n, bufRef := some r, idx := 0 }) := by
  simp only [exec, execWriteBlock, blockCommand_accepts hs, (blockBuffer_room (a := a) hn).2.1, Option.none_or, runUnless, hr, if_true]

/-! ### The statements -/

/-- Settles O40: what reaches DEV is a chain of events, and a dead device ignores each of them. -/
theorem deadDeviceIgnoresAll : Obligations.DeadDeviceIgnoresAll := by
  refine ⟨fun i s t hi hd h => ?_, fun op s t ho hd h => ?_⟩
  · have k := (exec_devRun hi h).dead hd
    exact ⟨k.mem, k.wel, k.srx, k.dead⟩
  · have k := (resume_devRun (step_running ho ▸ h)).dead hd
    exact ⟨k.mem, k.wel, k.srx, k.dead⟩

/-- Settles O9: DEV ignores the frame it does not accept and carries out the one it accepts, each frame by its own lemma. -/
theorem deselectCommitsFrame : Obligations.DeselectCommitsFrame := by
  intro s t h
  refine ⟨fun hc => deselect_ignored h fun c hf => ?_, fun hw hc => ?_, fun hb => ⟨fun hf => ?_, fun hf => ?_, fun hw => ?_⟩⟩
  · obtain hb | hn | hn | hn | ⟨a, n, hn⟩ := hc
    · exact Dev.accepts_busy hb c
    · rw [hn] at hf; cases hf
    all_goals (rw [hn] at hf; cases hf; rfl)
  · obtain ⟨hm, hl, hx⟩ := deselect_ignored h fun c hf => by
      obtain ⟨v, hn⟩ | ⟨a, v, hn⟩ | ⟨a, hn⟩ := hc <;> (rw [hn] at hf; cases hf; simp [Dev.accepts, hw])
    exact ⟨hm, hl.trans hw, hx⟩
  · exact deselect_latch h hf (.inl ⟨rfl, rfl⟩) hb
  · exact deselect_latch h hf (.inr ⟨rfl, rfl⟩) hb
  · refine ⟨fun v hf => ?_, fun a v hf => ?_, fun a hf => ?_⟩
    · have k := deselect_writeStatus h hb hw hf
      exact ⟨k.wel.trans hw, k.mem, k.busy⟩
    · have k := deselect_program h hb hw hf
      exact ⟨k.wel.trans hw, k.srx, k.reached fun b => (Dev.read_congr k.mem b).trans (Dev.read_programmed _ _ _ b)⟩
    · have k := deselect_erase h hb hw hf
      exact ⟨k.wel.trans hw, k.srx, k.reached fun b => (Dev.read_congr k.mem b).trans (Dev.read_erased _ _ _ b)⟩

/-- Settles O12: DEV fixes the status byte at the first rising edge, or responds with the byte of the array. -/
theorem receiveByteAnswered : Obligations.ReceiveByteAnswered := by
  intro s t hs h
  obtain ⟨-, -, -, -, hc, -⟩ := hs
  obtain ⟨-, rfl⟩ := runUnless_next h
  refine ⟨fun hf => ?_, fun a more hf hb ha => ?_⟩
  · obtain ⟨hr, -⟩ := State.receiveByte_status (s := s.start .receiveByte) hc hf
    refine ⟨rfl, ?_, ?_⟩ <;> rw [State.finish_sr, State.setPhase_sr, hr]
    · exact busyBit_statusByte _ _ _ _
    · exact welBit_statusByte _ _ _ _
  · obtain ⟨hr, -⟩ := State.receiveByte_responds (s := s.start .receiveByte) hc hf (by simp) (by simp [addrBytes])
      (Dev.responds_read s.params hb ha)
    exact congrArg some hr

/-- Settles O41: the instructions that send no frame 0x04 keep the latch, the others by what they end with. -/
theorem latchPersists : Obligations.LatchPersists := by
  refine ⟨fun i s t hi h hw ht => ?_, fun op s t ho hf h hw ht => ?_⟩
  · have fell : ¬ t.Latched := fun k => by rw [State.Latched, ht] at k; cases k
    cases hm : mayUnlatch i.op with
    | false => exact absurd (latched_of_next hm h hw) fell
    | true =>
      cases i with
      | disable => exact absurd rfl hi
      | writeDisable => exact .inl rfl
      | deselect => exact .inr (.inl ⟨rfl, by_contra fun hf => fell (deselect_latched h hf hw)⟩)
      | writeStatus v => exact .inr (.inr ⟨.inl ⟨v, rfl⟩, (latches_of_next (.inl rfl) h hw).ended ht⟩)
      | eraseBlock a => exact .inr (.inr ⟨.inr (.inl ⟨a, rfl⟩), (latches_of_next (.inr (.inl rfl)) h hw).ended ht⟩)
      | writeBlock a r n =>
        exact .inr (.inr ⟨.inr (.inr ⟨a, r, n, rfl⟩), (latches_of_next (.inr (.inr rfl)) h hw).ended ht⟩)
      | _ => cases hm
  · obtain k | ⟨hn, k⟩ := resume_latches (step_running ho ▸ h) hf hw
    · rw [State.Latched, ht] at k; cases k
    · exact ⟨hn, k.ended ht⟩

/-- Settles O43: the block is erased when EraseBlock has ended, and the read of a ready device brings it back. -/
theorem eraseThenRead : Obligations.EraseThenRead := by
  intro a n r s t hs hb ha hz hn hroom h ho _ htb
  obtain ⟨hd, hbufs, hi, hr⟩ := eraseBlock_leaves hs hb ha h
  have he := blockBase_le s.params ha
  rw [blockBase, hz] at he
  obtain ⟨u, hu, hv⟩ := readBlock_answered (n := n) (r := r) ⟨ho, hd, hi ho⟩ htb (by rw [hbufs]; exact hroom) ha (by omega)
  refine ⟨u, hu, hv.trans ?_⟩
  rw [Dev.bytes_eq_map (f := fun _ => 0xFF), List.map_const', List.length_range]
  intro j hj
  rw [hr, if_pos ((mem_block_iff s.params a.toNat _).1 (by rw [blockBase, hz]; omega))]

/-- Settles O44: WriteBlock's loop programs each byte over 0xFF, and the read of the device it leaves ready brings them back. -/
theorem writeThenRead : Obligations.WriteThenRead := by
  intro a r q n s t ls more hs hb _ hroom hroom' ha he hff hl hlen hk h
  obtain rfl : _ = t := by simpa [writeBlock_next hs hroom (inRange_iff.2 ⟨ha, he⟩)] using h
  obtain ⟨rs, hrs, -, k⟩ :=
    State.blockLoop_done n.toNat { s.start .writeBlock with addr := a, len := n, bufRef := some r, idx := 0 } ls more hb
      (by simpa using he) (by simpa using n.isLt) hl hlen hk
  have hbufs := k.run.bufs
  obtain ⟨u, hu, hv⟩ := readBlock_answered (n := n) (r := q) ⟨k.opr, k.run.dir.trans hs.2.1, k.ph⟩ k.busy
    (by rw [hbufs]; exact hroom') ha he
  refine ⟨u, hu, hv.trans (Dev.bytes_eq_map fun j hj => ?_)⟩
  rw [k.read, if_pos (by simp [hrs, hj])]
  show programFn (s.dev.read (a.toNat + j)) (bufferGet s.bufs (some r) (a.toNat + j - a.toNat)) = _
  rw [hff j hj, Nat.add_sub_cancel_left, programFn, if_pos rfl]

end Sys2Proof.Machine
end

section
/-! PROOFS. The encodings at both ends of the block (30_encoding.md). The main lemmas: a command at the port is HOST's form of the
instruction it decodes to (`encode_of_decode`), every well-formed command decodes (`decode_of_wellFormed`), and a frame is read back
from its bytes (`decodeFrame_encodeFrame`). -/

namespace Sys2Proof

/-! ### What decodes at the port is HOST's form of an instruction (30_encoding.md R109, R111) -/

theorem encode_wellFormed (i : Instr) : (encode i).wellFormed = true := by
  cases i with
  | sendByte v => exact Laws.EncodeWellFormed.sendByte v
  | receiveBytes n r => exact Laws.EncodeWellFormed.receiveBytes n r
  | readBlock a n r => exact Laws.EncodeWellFormed.readBlock a n r
  | writeByte a v => exact Laws.EncodeWellFormed.writeByte a v
  | writeStatus v => exact Laws.EncodeWellFormed.writeStatus v
  | eraseBlock a => exact Laws.EncodeWellFormed.eraseBlock a
  | writeBlock a r n => exact Laws.EncodeWellFormed.writeBlock a r n
  | _ => rfl

theorem extra_none_of_decode {p : Presented} {i : Instr} (h : decode p = .ok i) : p.extra = none := by
  cases hx : p.extra with
  | none => rfl
  | some o => simp only [decode, hx, reduceCtorEq] at h

/-- A command that decodes carries no operand beyond those its operation takes. -/
theorem get_none_of_decode {p : Presented} {i : Instr} {o : Operand} (h : decode p = .ok i)
    (ho : p.op.takes.contains o = false) : p.get o = none := by
  rw [← Option.not_isSome_iff_eq_none]
  exact fun hs => Bool.eq_false_iff.1 ho (Presented.extra_none_iff.1 (extra_none_of_decode h) o hs)

/-- The command that decodes to an instruction is HOST's form of it: the operands taken are those read, and there are no others. -/
theorem encode_of_decode {p : Presented} {i : Instr} (h : decode p = .ok i) : encode i = p := by
  have hx := extra_none_of_decode h
  obtain ⟨op, a, l, v, b⟩ := p
  have ha : op.takes.contains .address = false → a = none := get_none_of_decode h
  have hl : op.takes.contains .length = false → l = none := get_none_of_decode h
  have hv : op.takes.contains .value = false → v = none := get_none_of_decode h
  have hb : op.takes.contains .buffer = false → b = none := get_none_of_decode h
  rw [decode, hx] at h
  cases op <;>
    simp only [bind_ok_iff, pure_ok_iff, Presented.field_ok_iff, Presented.bufferRef_ok_iff, Presented.get, Except.ok.injEq] at h
  case sendByte | writeStatus =>
    obtain ⟨v, rfl, rfl⟩ := h
    rw [ha rfl, hl rfl, hb rfl, encode]
  case receiveBytes =>
    obtain ⟨n, rfl, r, rfl, rfl⟩ := h
    rw [ha rfl, hv rfl, encode]
  case readBlock =>
    obtain ⟨a, rfl, n, rfl, r, rfl, rfl⟩ := h
    rw [hv rfl, encode]
  case writeByte =>
    obtain ⟨a, rfl, v, rfl, rfl⟩ := h
    rw [hl rfl, hb rfl, encode]
  case eraseBlock =>
    obtain ⟨a, rfl, rfl⟩ := h
    rw [hl rfl, hv rfl, hb rfl, encode]
  case writeBlock =>
    obtain ⟨a, rfl, r, rfl, n, rfl, rfl⟩ := h
    rw [hv rfl, encode]
  all_goals
    subst h
    rw [ha rfl, hl rfl, hv rfl, hb rfl, encode]

/-! ### What the port's check takes (30_encoding.md R109) -/

theorem Presented.wellFormed_iff {p : Presented} : p.wellFormed = true ↔ ∀ o, p.operandOk o = true := by
  simp only [Presented.wellFormed, Bool.and_eq_true]
  refine ⟨fun ⟨⟨⟨ha, hl⟩, hv⟩, hb⟩ o => ?_, fun h => ⟨⟨⟨h _, h _⟩, h _⟩, h _⟩⟩
  cases o with
  | address => exact ha
  | length => exact hl
  | value => exact hv
  | buffer => exact hb

/-- The port's check of one operand: it is present exactly where it is taken, and then it fits. -/
theorem Presented.operandOk_iff {p : Presented} {o : Operand} :
    p.operandOk o = true ↔
      (p.op.takes.contains o = true ↔ (p.get o).isSome = true) ∧ ∀ n, p.get o = some n → o.fits n = true := by
  simp only [Presented.operandOk]
  cases p.get o <;> simp

/-- An operand that is taken and passes the check is read, at the width the check is for. -/
theorem Presented.field_of_operandOk {p : Presented} {o : Operand} {w : Nat} (hw : ∀ n, o.fits n = decide (n < 2 ^ w))
    (h : p.operandOk o = true) (ht : p.op.takes.contains o = true) : ∃ v, p.field o w = .ok v := by
  obtain ⟨hs, hf⟩ := Presented.operandOk_iff.1 h
  obtain ⟨n, hn⟩ := Option.isSome_iff_exists.1 (hs.1 ht)
  have hlt : n < 2 ^ w := of_decide_eq_true (hw n ▸ hf n hn)
  exact ⟨BitVec.ofNatLT n hlt, Presented.field_ok hn⟩

theorem Presented.bufferRef_of_operandOk {p : Presented} (h : p.operandOk .buffer = true)
    (ht : p.op.takes.contains .buffer = true) : ∃ r, p.bufferRef = .ok r := by
  obtain ⟨r, hr⟩ := Option.isSome_iff_exists.1 ((Presented.operandOk_iff.1 h).1.1 ht)
  exact ⟨r, Presented.bufferRef_ok_iff.2 hr⟩

/-- A well-formed command decodes: it carries nothing its operation does not take, and each operand taken is read. -/
theorem decode_of_wellFormed {p : Presented} (h : p.wellFormed = true) : ∃ i, decode p = .ok i := by
  have ho := Presented.wellFormed_iff.1 h
  have hx : p.extra = none := Presented.extra_none_iff.2 fun o => (Presented.operandOk_iff.1 (ho o)).1.2
  have ha := Presented.field_of_operandOk (w := 24) (fun _ => rfl) (ho .address)
  have hl := Presented.field_of_operandOk (w := 16) (fun _ => rfl) (ho .length)
  have hv := Presented.field_of_operandOk (w := 8) (fun _ => rfl) (ho .value)
  have hb := Presented.bufferRef_of_operandOk (ho .buffer)
  rw [decode, hx]
  obtain ⟨op, _, _, _, _⟩ := p
  cases op with
  | sendByte | writeStatus =>
    obtain ⟨v, hv⟩ := hv rfl
    simp only [hv]
    exact ⟨_, rfl⟩
  | receiveBytes =>
    obtain ⟨n, hl⟩ := hl rfl
    obtain ⟨r, hb⟩ := hb rfl
    simp only [hl, hb]
    exact ⟨_, rfl⟩
  | readBlock | writeBlock =>
    obtain ⟨a, ha⟩ := ha rfl
    obtain ⟨n, hl⟩ := hl rfl
    obtain ⟨r, hb⟩ := hb rfl
    simp only [ha, hl, hb]
    exact ⟨_, rfl⟩
  | writeByte =>
    obtain ⟨a, ha⟩ := ha rfl
    obtain ⟨v, hv⟩ := hv rfl
    simp only [ha, hv]
    exact ⟨_, rfl⟩
  | eraseBlock =>
    obtain ⟨a, ha⟩ := ha rfl
    simp only [ha]
    exact ⟨_, rfl⟩
  | _ => exact ⟨_, rfl⟩

end Sys2Proof

namespace Sys2Proof.Machine

/-! ### The wire (30_encoding.md R101 to R108) -/

theorem decodeFrame_encodeFrame (c : FrameCmd) : decodeFrame (encodeFrame c) = .ok c := by
  cases c with
  | readStatus => exact decodeFrame_readStatus _
  | rawPoll => exact decodeFrame_rawPoll
  | writeEnable => exact decodeFrame_writeEnable
  | writeDisable => exact decodeFrame_writeDisable
  | writeStatus v => exact decodeFrame_writeStatus v
  | read a n =>
    have h := decodeFrame_read a (List.replicate n.toNat (heldByte (a.getLsbD 0))) (by rw [List.length_replicate]; exact n.isLt)
    rwa [List.length_replicate, BitVec.ofNat_toNat, BitVec.setWidth_eq] at h
  | program a v => exact decodeFrame_program a v
  | erase a => exact decodeFrame_erase a

/-- DEV's address is the number its three bytes write, the high byte first (30_encoding.md R103). -/
theorem addrOfBytes_toNat (a2 a1 a0 : Byte) : (addrOfBytes a2 a1 a0).toNat = a2.toNat * 65536 + a1.toNat * 256 + a0.toNat := by
  rw [addrOfBytes, BitVec.toNat_append, BitVec.toNat_append, ← Nat.shiftLeft_add_eq_or_of_lt a0.isLt,
    ← Nat.shiftLeft_add_eq_or_of_lt a1.isLt, Nat.shiftLeft_eq, Nat.shiftLeft_eq]
  omega

/-- DEV reads the address from the three bytes behind the opcode, whatever follows (20_memory.md R72). -/
theorem frameAddr_bits_cons (op a2 a1 a0 : Byte) (rest : List Byte) :
    frameAddr (bitsOfBytes (op :: a2 :: a1 :: a0 :: rest)) = addrOfBytes a2 a1 a0 := by
  have h := frameAddr_bits op (addrOfBytes a2 a1 a0) rest
  rwa [addrBytes_addrOfBytes] at h

theorem isOpcode_eq_false_iff {b : Byte} :
    isOpcode b = false ↔ b ≠ 0x05 ∧ b ≠ 0x06 ∧ b ≠ 0x04 ∧ b ≠ 0x01 ∧ b ≠ 0x03 ∧ b ≠ 0x02 ∧ b ≠ 0xD8 := by
  simp [isOpcode]

/-- A first byte that is no opcode is refused by name, whatever follows (30_encoding.md R108). -/
theorem decodeFrame_reserved {b : Byte} (h : isOpcode b = false) (rest : List Byte) :
    decodeFrame (b :: rest) = .error (.reservedOpcode b) := by
  obtain ⟨h1, h2, h3, h4, h5, h6, h7⟩ := isOpcode_eq_false_iff.1 h
  simp only [decodeFrame, h1, h2, h3, h4, h5, h6, h7, if_false]

/-! ### The statements -/

/-- Settles O47, for each instruction by reading back its operands. -/
theorem portRoundTrip : Obligations.PortRoundTrip := decode_encode

/-- Settles O49: the bytes of a frame decode to it, and DEV rebuilds the bytes from their bits. -/
theorem wireRoundTrip : Obligations.WireRoundTrip := fun c =>
  ⟨decodeFrame_encodeFrame c, frameOfBits_bytes (decodeFrame_encodeFrame c)⟩

/-- Settles O46: SendAddress puts the three address bytes on the trace, and DEV rebuilds the address from the bytes it clocks in. -/
theorem addressField : Obligations.AddressField := by
  refine ⟨fun a s => ?_, fun op a2 a1 a0 rest => ?_, decodeFrame_program, rfl⟩
  · simp only [State.sendAddress_trace, addressEvents, addrBytes, List.flatMap_cons, List.flatMap_nil, List.append_nil,
      List.append_assoc]
  · rw [frameAddr_bits_cons, addrOfBytes_toNat]

/-- Settles O48: a command that decodes is HOST's form of its instruction, and such a form is well formed. -/
theorem portTakesWellFormed : Obligations.PortTakesWellFormed := by
  refine fun p => ⟨⟨decode_of_wellFormed, fun ⟨i, h⟩ => ?_⟩, fun _ => encode_of_decode⟩
  rw [← encode_of_decode h]
  exact encode_wellFormed i

/-- Settles O50: behind one of the seven opcodes the only error is a wrong length. -/
theorem reservedOpcodes : Obligations.ReservedOpcodes := by
  refine fun b rest => ⟨fun h => ?_, fun h => decodeFrame_reserved (isOpcode_eq_false_iff.2 h) rest⟩
  obtain ⟨hnil, -⟩ | ⟨b', rest', hcons, ⟨hb, -⟩ | ⟨-, he⟩⟩ := decodeFrame_error h
  · cases hnil
  · cases hcons
    exact isOpcode_eq_false_iff.1 hb
  · cases he

/-- Settles O22: a byte of a range that passed the check lies in the array, whose size is 2^22. -/
theorem byteAddressFits : Obligations.ByteAddressFits := by
  intro a n i hr hi
  obtain ⟨-, hend⟩ := inRange_iff.1 hr
  have hlt : a.toNat + i.toNat < Config.flashSize := by omega
  exact ⟨byteAddr_toNat hlt, hlt⟩

/-- Settles O51: each of the eight byte lists is one its format decodes. -/
theorem sanityWords : Obligations.SanityWords :=
  ⟨decodeFrame_writeEnable, decodeFrame_writeDisable, decodeFrame_writeStatus 0x1C, decodeFrame_program 0x012345 0xDE,
    decodeFrame_erase 0x012345, decodeFrame_read 0x012345 [0xFF, 0xFF] (by decide), decodeFrame_rawPoll, decodeFrame_readStatus 0xFF⟩

end Sys2Proof.Machine
end

section
/-! PROOFS. The bus primitives as HOST presents them, and the lifecycle (40_bus_primitives.md R130 to R136). The main lemmas: what
bus traffic between the start and the end of an operation leaves (`BusRun.finish_eq`), when each primitive runs (`sendByte_runs`,
`receiveByte_runs`, `receiveBytes_runs`), and which frames a `deselect` closes (`closeStops_of_inside` and the lemmas behind it). -/

namespace Sys2Proof.Machine

/-! ### An operation from its start to its end (10_state.md R36) -/

/-- What an operation of bus traffic alone leaves, taken with no command running. -/
theorem BusRun.finish_eq {s t : State} {op : Op} (h : BusRun (s.start op) t) (ho : s.opr = none) (e : Err) (r : Option Byte) :
    t.finish e r = { s with
      cs := t.cs, sck := t.sck, di := t.di, sr := t.sr, bitcnt := t.bitcnt, ph := t.ph, st := t.st
      trace := t.trace, dev := t.dev, draws := t.draws, bufRef := none, err := e, ret := r } := by
  conv_lhs => rw [h.eq]
  simp only [State.finish, State.start, ho]

/-- What clocked bits leave in DEV, part by part. -/
theorem Clocked.leaves {s u : State} {n : Nat} {bs : List Bool} (h : Clocked s u n bs) :
    u.dev.frame = s.dev.frame ++ bs ∧ u.dev.mem = s.dev.mem ∧ u.dev.wel = s.dev.wel ∧ u.dev.srx = s.dev.srx ∧
      u.dev.busy = (s.dev.ticks n).busy :=
  ⟨h.frame, h.mem, h.wel, h.srx, h.clock.1⟩

/-- Why no byte may be received and no frame closed right behind a `select` (70_reset_and_hazards.md R246, R247). -/
theorem blockEmpty_selected {s : State} (h : s.ph = .selected) : s.blockEmpty = some .noByteSent := if_pos h

theorem blockEmpty_behind {s : State} (h : s.ph ≠ .selected) : s.blockEmpty = none := if_neg h

/-! ### The lifecycle and `select` -/

theorem disable_runs {s : State} (h : s.Accepts) : exec .disable s = .next ((s.start .disable).release.finish .ok none) := by
  simp only [exec, execDisable, blockCommand_accepts h, runUnless]

theorem select_runs {s : State} (h : s.Accepts) : exec .select s = .next ((s.start .select).select.finish .ok none) := by
  simp only [exec, execSelect, blockCommand_accepts h, runUnless]

/-- DEV as another master leaves it (20_memory.md R93). -/
theorem State.visited_dev (s : State) :
    (s.draws.visit.1 = none → s.visited.dev = s.dev) ∧
      ∀ v, s.draws.visit.1 = some v →
        s.visited.dev = { s.dev with
          mem := s.dev.mem.writeAll v.writes, busy := v.busy, wel := v.wel, srx := v.srx, left := v.left } := by
  refine ⟨fun h => ?_, fun v h => ?_⟩ <;> simp only [State.visited, h]

/-! ### Which frames a `deselect` closes (20_memory.md R79, R82, R86, 93_implementation_defined.md U5, U14) -/

/-- A frame of R101 closes, a read heard while ready only inside the array. -/
theorem closeStops_of_inside {d : Dev} {c : FrameCmd} (h : frameOfBits d.frame = some c)
    (hr : ∀ a n, c = .read a n → 0 < n.toNat → d.heardBusy = false → a.toNat + n.toNat ≤ Config.flashSize) :
    d.closeStops = none := by
  rw [closeStops_of_frame h]
  cases c with
  | read a n => exact if_neg fun ⟨hb, hn, ha⟩ => Nat.not_lt.2 (hr a n rfl hn hb) ha
  | _ => rfl

theorem closeStops_of_past {d : Dev} {a : Addr} {n : Len} (h : frameOfBits d.frame = some (.read a n)) (hn : 0 < n.toNat)
    (hb : d.heardBusy = false) (ha : Config.flashSize < a.toNat + n.toNat) : d.closeStops = some .pastArrayEnd := by
  rw [closeStops_of_frame h]
  exact if_pos ⟨hb, hn, ha⟩

/-- A busy DEV ignores bits that are no frame, behind any first byte but 0x05. -/
theorem closeStops_of_ignored {d : Dev} (h : frameOfBits d.frame = none) (hb : d.busy = true)
    (h5 : ∀ rest, d.frame ≠ bitsOfBytes (0x05 :: rest)) : d.closeStops = none := by
  rw [closeStops_of_none h]
  split
  · rename_i b rest hv
    have hne : b ≠ 0x05 := fun e => h5 rest (e ▸ bitsOfBytes_of_bytesOfBits hv)
    rw [if_pos (show d.busy = true ∧ b ≠ 0x05 from ⟨hb, hne⟩), if_pos hb, ite_self]
  · exact if_pos hb

theorem closeStops_of_reserved {d : Dev} {b : Byte} {rest : List Byte} (hf : d.frame = bitsOfBytes (b :: rest))
    (ho : isOpcode b = false) (hb : d.busy = false) : d.closeStops = some (.reservedOpcode b) := by
  simp only [Dev.closeStops, hf, bytesOfBits_bitsOfBytes, decodeFrame_reserved ho, hb, Bool.false_eq_true, if_false]

/-- Bits that are no frame have the wrong length behind an opcode, or cut short, when DEV would hear them. -/
theorem closeStops_of_wrongLength {d : Dev} (h : frameOfBits d.frame = none)
    (ho : ∀ b rest, d.frame = bitsOfBytes (b :: rest) → isOpcode b = true)
    (hb : d.busy = false ∨ ∃ rest, d.frame = bitsOfBytes (0x05 :: rest)) : d.closeStops = some .wrongFrameLength := by
  rw [closeStops_of_none h]
  split
  · rename_i b rest hv
    have hf := bitsOfBytes_of_bytesOfBits hv
    have hheard : ¬ (d.busy = true ∧ b ≠ 0x05) := by
      rintro ⟨hbusy, hne⟩
      obtain hb | ⟨rest', h5⟩ := hb
      · rw [hb] at hbusy; cases hbusy
      · rw [h5, bytesOfBits_bitsOfBytes] at hv
        cases hv
        exact hne rfl
    rw [if_pos (ho b rest hf), if_neg hheard]
  · rename_i hv
    obtain hb | ⟨rest', h5⟩ := hb
    · simp [hb]
    · exact absurd (by rw [h5, bytesOfBits_bitsOfBytes]) (hv _ _)

/-- A `deselect` that nothing stops answers the bus idle and FRAME empty (40_bus_primitives.md R131). -/
theorem deselect_answers {s : State} (ho : s.opr = none) (hd : s.dir = .master) (h3 : s.ph ≠ .idle) (h4 : s.ph ≠ .deselected)
    (h5 : s.ph ≠ .selected) (hc : s.dev.tick.closeStops = none) :
    ∃ d w,
      exec .deselect s = .next { s with
        cs := true, sck := false, ph := .idle, bufRef := none, err := .ok, ret := none
        trace := s.trace ++ [.drive .cs true, .drive .sck false, .delayUs s.params.tDeselect], dev := d, draws := w } ∧
      d.frame = [] := by
  have hx := deselect_runs ho hd h3 h4 h5
  rw [hc] at hx
  obtain ⟨d, w, he, hf⟩ := deselect_closes ho hd hx
  exact ⟨d, w, hx.trans (congrArg _ he), hf⟩

/-! ### `sendByte` (40_bus_primitives.md R132) -/

theorem sendByte_runs (v : Byte) {s : State} (h : s.InFrame) :
    exec (.sendByte v) s =
      .next ((((s.start .sendByte).sendByte v).setPhase
        (phaseAfterSend ((s.start .sendByte).sendByte v).dev.frame s.ph)).finish .ok none) := by
  obtain ⟨hf, hc⟩ := blockInFrame_inFrame h
  simp only [exec, execSendByte, hf, hc, Option.none_or, runUnless]

/-- PH behind the first byte of a frame (10_state.md R35). -/
theorem phaseAfterSend_first {bits : List Bool} (h : bits.length ≤ 8) (p : Phase) : phaseAfterSend bits p = .opcodeSent := if_pos h

/-- A data phase stays one (10_state.md R35). -/
theorem phaseAfterSend_dataPhase {bits : List Bool} (h : 8 < bits.length) : phaseAfterSend bits .dataPhase = .dataPhase := by
  rw [phaseAfterSend, if_neg (Nat.not_le.2 h), if_pos rfl]

/-- PH behind a byte sent after the opcode and the bytes `rest` (10_state.md R35). -/
theorem phaseAfterSend_behind (op : Byte) (rest : List Byte) (v : Byte) {p : Phase} (hp : p ≠ .dataPhase) :
    phaseAfterSend (bitsOfBytes (op :: rest) ++ bitsOfByte v) p =
      if isAddressed op then if rest.length < 2 then .opcodeSent else if rest.length = 2 then .addressSent else .dataPhase
      else .dataPhase := by
  have hl : (bitsOfBytes (op :: rest) ++ bitsOfByte v).length = 8 * rest.length + 16 := by
    rw [List.length_append, bitsOfBytes_length, bitsOfByte_length, List.length_cons]
    omega
  have hb : frameByte (bitsOfBytes (op :: rest) ++ bitsOfByte v) 0 = op := by
    rw [frameByte_append _ _ _ (by rw [bitsOfBytes_length, List.length_cons]; omega), frameByte_bits_cons_zero]
  simp only [phaseAfterSend, hl, hb, if_neg hp, show ¬ 8 * rest.length + 16 ≤ 8 by omega, if_false,
    show 8 * rest.length + 16 < 32 ↔ rest.length < 2 by omega, show 8 * rest.length + 16 = 32 ↔ rest.length = 2 by omega]

/-- The registers, the lines and the trace after a byte sent inside a frame. -/
theorem sendByte_answers (v : Byte) {s : State} (h : s.InFrame) :
    exec (.sendByte v) s = .next { s with
      di := v.getLsbD 0, sr := 0, bitcnt := 0, ph := phaseAfterSend (s.dev.frame ++ bitsOfByte v) s.ph
      bufRef := none, err := .ok, ret := none, trace := s.trace ++ sendEvents v
      dev := ((s.start .sendByte).sendByte v).dev, draws := ((s.start .sendByte).sendByte v).draws } := by
  have ⟨ho, _, _, _, hc, hk⟩ := h
  have hf := (State.sendByte_clocked (s := s.start .sendByte) hc v).frame
  rw [sendByte_runs v h, (((BusRun.refl (s := s.start .sendByte)).sendByte v).setPhase _).finish_eq ho, hf]
  simp [hk]

/-! ### `receiveByte` (40_bus_primitives.md R133) -/

theorem receiveByte_runs {s : State} (h : s.InFrame) (hp : s.ph ≠ .selected) :
    exec .receiveByte s =
      runUnless (s.blockAnswer 1)
        (((s.start .receiveByte).receiveByte.setPhase .dataPhase).finish .ok (some (s.start .receiveByte).receiveByte.sr)) := by
  obtain ⟨hf, hc⟩ := blockInFrame_inFrame h
  simp only [exec, execReceiveByte, hf, hc, blockEmpty_behind hp, Option.none_or, State.setPhase_sr]

/-- A byte is received: SR is the result, and the bus, DI too, is as it was (10_state.md R22). -/
theorem receiveByte_answers {s : State} (h : s.InFrame) (hp : s.ph ≠ .selected) (ha : s.blockAnswer 1 = none) :
    exec .receiveByte s = .next { s with
      sr := (s.start .receiveByte).receiveByte.sr, bitcnt := 0, ph := .dataPhase, bufRef := none, err := .ok
      ret := some (s.start .receiveByte).receiveByte.sr
      trace := s.trace ++ receiveEvents (s.start .receiveByte).receiveByte.sr
      dev := (s.start .receiveByte).receiveByte.dev, draws := (s.start .receiveByte).receiveByte.draws } := by
  have ⟨ho, _, _, _, _, hk⟩ := h
  rw [receiveByte_runs h hp, ha, runUnless, ((BusRun.refl (s := s.start .receiveByte)).receiveByte.setPhase _).finish_eq ho]
  simp [hk]

theorem not_asksTwice_of_readsPastEnd {vs : List Byte} (h : ReadsPastEnd vs) : ¬ AsksTwice vs := by
  obtain ⟨a, more, rfl, -, -⟩ := h
  rintro ⟨x, y, rest, he⟩
  cases he

/-- Each of the three cases of a receive names its own answer (20_memory.md R74, R79, 93_implementation_defined.md U14). -/
theorem blockAnswer_cases {s : State} {vs ws : List Byte} {n : Nat} (hf : s.dev.frame = bitsOfBytes vs) (hv : vs ≠ [])
    (hw : ws = vs ++ List.replicate n (heldByte s.di)) :
    (¬ AsksTwice ws → (s.dev.heardBusy = false → ¬ ReadsPastEnd ws) → s.blockAnswer n = none) ∧
      (AsksTwice ws → s.blockAnswer n = some .secondStatusByte) ∧
      (s.dev.heardBusy = false → ReadsPastEnd ws → s.blockAnswer n = some .pastArrayEnd) := by
  subst hw
  obtain ⟨htwice, honce⟩ := blockAnswer_bytes hf hv n
  exact ⟨fun ha => (honce ha).2, htwice, fun hb hr => (honce (not_asksTwice_of_readsPastEnd hr)).1 hb hr⟩

/-! ### `receiveBytes` (40_bus_primitives.md R134) -/

/-- The state `receiveBytes`' loop starts in. -/
def State.receiveStart (s : State) (r : BufRef) : State := { s.start .receiveBytes with bufRef := some r, idx := 0 }

theorem receiveBytes_runs {n : Len} {r : BufRef} {s : State} (h : s.InFrame) (hp : s.ph ≠ .selected) (hn : n ≠ 0)
    (hroom : n.toNat ≤ bufferRoom s.bufs r) :
    exec (.receiveBytes n r) s =
      runUnless (s.blockAnswer n.toNat) ((((s.receiveStart r).receiveTurns n.toNat).setPhase .dataPhase).finish .ok none) := by
  obtain ⟨hf, hc⟩ := blockInFrame_inFrame h
  have hb := (blockBuffer_room (a := 0) hroom).2.2
  simp only [exec, execReceiveBytes, hn, if_false, hf, hc, blockEmpty_behind hp, hb, Option.none_or]
  rfl

/-- At least one byte received, the operation ended: SR is the last byte, the buffer holds them all from its first byte on. -/
theorem Received.finish_eq {s t : State} {r : BufRef} {rs : List Byte} (h : Received (s.receiveStart r) t rs) (ho : s.opr = none)
    (hk : s.sck = false) (hrs : rs ≠ []) (hroom : rs.length ≤ bufferRoom s.bufs r) :
    (t.setPhase .dataPhase).finish .ok none = { s with
      sr := rs.getLastD 0, bitcnt := 0, idx := BitVec.ofNat 16 rs.length, bufs := bufferStore s.bufs r rs, ph := .dataPhase
      bufRef := none, err := .ok, ret := none, trace := s.trace ++ rs.flatMap receiveEvents, dev := t.dev, draws := t.draws } := by
  have hsr : t.sr = rs.getLastD 0 := by
    rw [h.sr, List.getLast_cons hrs, List.getLastD_eq_getLast?, List.getLast?_eq_some_getLast hrs, Option.getD_some]
  have hfill := bufferFill_zero s.bufs r rs hroom
  conv_lhs => rw [h.eq, h.sck hk, hsr, h.bitcnt hrs]
  simp [State.receiveStart, State.finish, State.setPhase, State.start, ho, hk, hfill]

/-- The bytes received and the state they are received in, behind which the operation ends (40_bus_primitives.md R134). -/
theorem receiveBytes_answers {n : Len} {r : BufRef} {s : State} (h : s.InFrame) (hp : s.ph ≠ .selected) (hn : n ≠ 0)
    (hroom : n.toNat ≤ bufferRoom s.bufs r) (ha : s.blockAnswer n.toNat = none) :
    ∃ rs u, rs.length = n.toNat ∧ Clocked s u (40 * n.toNat) (List.replicate (8 * n.toNat) s.di) ∧
      exec (.receiveBytes n r) s = .next { s with
        sr := rs.getLastD 0, bitcnt := 0, idx := n, bufs := bufferStore s.bufs r rs, ph := .dataPhase
        bufRef := none, err := .ok, ret := none, trace := s.trace ++ rs.flatMap receiveEvents, dev := u.dev, draws := u.draws } := by
  have ⟨ho, _, _, _, hc, hk⟩ := h
  obtain ⟨rs, hl, hr⟩ := (s.receiveStart r).receiveTurns_received n.toNat (by simpa [State.receiveStart] using n.isLt)
  have hrs : rs ≠ [] := by
    rintro rfl
    exact hn (BitVec.eq_of_toNat_eq hl.symm)
  have hcl := hr.clocked hc
  rw [hl, bitsOfBytes_held] at hcl
  refine ⟨rs, _, hl, hcl.from_dev rfl rfl, ?_⟩
  rw [receiveBytes_runs h hp hn hroom, ha, runUnless, hr.finish_eq ho hk hrs (hl ▸ hroom), hl, BitVec.ofNat_toNat,
    BitVec.setWidth_eq]

/-- A count of 0 takes no turn of the loop, whatever the buffer. -/
theorem receiveBytes_none (r : BufRef) {s : State} (h : s.InFrame) :
    exec (.receiveBytes 0 r) s = .next { s with idx := 0, bufRef := none, err := .ok, ret := none } := by
  have ⟨ho, _⟩ := h
  simp only [exec, execReceiveBytes, (blockInFrame_inFrame h).1, if_true, runUnless]
  exact congrArg (fun o => Host.Outcome.next { s with idx := 0, opr := o, bufRef := none, err := .ok, ret := none }) ho.symm

/-! ### The statements -/

/-- Settles O4: the pins are released with one event, and DEV is then as the drawn visit leaves it. -/
theorem disableReleasesBus : Obligations.DisableReleasesBus := by
  intro s hs
  have ⟨ho, _, _⟩ := hs
  obtain ⟨hnone, hsome⟩ := State.visited_dev ((s.start .disable).setDir .released)
  refine ⟨(s.start .disable).release.dev, (s.start .disable).release.draws, ?_, State.visited_frame _ |>.trans (Dev.tick_frame _), hnone,
    fun v hv => ?_⟩
  · rw [disable_runs hs, State.release_eq]
    simp only [State.finish, State.start, ho]
  · rw [State.release, hsome v hv]
    exact ⟨rfl, rfl, rfl, rfl, congrArg (Memory.writeAll · v.writes) (Dev.tick_mem _)⟩

/-- Settles O8: each outcome is what `Dev.closeStops` says of DEV's frame as CS rises. -/
theorem deselectClosesFrame : Obligations.DeselectClosesFrame := by
  intro s ho hd
  have hf : s.dev.tick.frame = s.dev.frame := Dev.tick_frame _
  have hh : s.dev.tick.heardBusy = s.dev.heardBusy := Dev.tick_heardBusy _
  refine ⟨fun h3 h4 h5 => ?_, fun hp => ?_, fun hp => exec_blocked (blockInFrame_idle ho hd hp)⟩
  · have stops {r : Refusal} (h : s.dev.tick.closeStops = some r) : exec .deselect s = .refused r := by
      rw [deselect_runs ho hd h3 h4 h5, h, runUnless]
    rw [← hf, ← hh]
    refine ⟨fun h => deselect_answers ho hd h3 h4 h5 ?_, fun b rest hb hop hz => stops (closeStops_of_reserved hb hop hz),
      fun h hop hz => stops (closeStops_of_wrongLength h hop hz), fun a n h hn hz ha => stops (closeStops_of_past h hn hz ha)⟩
    obtain ⟨c, hc, hr⟩ | ⟨hc, hb, hne⟩ := h
    · exact closeStops_of_inside hc hr
    · exact closeStops_of_ignored hc hb hne
  · have hb : s.blockInFrame = none := blockInFrame_none_iff.2 ⟨ho, hd, by simp [hp], by simp [hp]⟩
    simp only [exec, execDeselect, hb, blockEmpty_selected hp, Option.none_or, Option.some_or, runUnless]

/-- Settles O10: the eight turns of the loop, and PH by the bits then clocked in. -/
theorem sendByteShiftsOut : Obligations.SendByteShiftsOut := by
  refine fun v s => ⟨fun h => ?_, fun ho hd hp => exec_blocked (blockInFrame_idle ho hd hp)⟩
  have ⟨_, _, _, _, hc, _⟩ := h
  have hcl : Clocked s ((s.start .sendByte).sendByte v) 40 (bitsOfByte v) :=
    (State.sendByte_clocked (s := s.start .sendByte) hc v).from_dev rfl rfl
  have hl : (s.dev.frame ++ bitsOfByte v).length = s.dev.frame.length + 8 := by rw [List.length_append, bitsOfByte_length]
  have hph : (phaseAfterSend (s.dev.frame ++ bitsOfByte v) s.ph).BehindByte := phaseAfterSend_behindByte _ _
  refine ⟨_, _, _, sendByte_answers v h, fun he => ?_, fun hp h8 => ?_, fun op rest hf hp => ?_, ?_, ?_, ?_, hcl.leaves⟩
  · exact phaseAfterSend_first (by rw [hl, he]; rfl) _
  · rw [hp]
    exact phaseAfterSend_dataPhase (by omega)
  · rw [hf, phaseAfterSend_behind op rest v hp]
    refine ⟨fun ha => by simp [ha], fun ha => ⟨fun hr => ?_, fun hr => ?_, fun hr => ?_⟩⟩
    · simp [ha, hr]
    · simp [ha, hr]
    · simp [ha, show ¬ rest.length < 2 by omega, show rest.length ≠ 2 by omega]
  all_goals obtain e | e | e := hph <;> simp [e]

/-- Settles O11: the eight turns of the loop, unless DEV's answer would have no meaning. -/
theorem receiveByteShiftsIn : Obligations.ReceiveByteShiftsIn := by
  refine fun s => ⟨fun vs h hp hf hv => ?_, fun h hp => ?_, fun ho hd hp => exec_blocked (blockInFrame_idle ho hd hp)⟩
  · obtain ⟨hmeans, htwice, hpast⟩ := blockAnswer_cases (n := 1) hf hv rfl
    rw [List.replicate_one] at hmeans htwice hpast
    refine ⟨fun ha hr => ?_, fun ha => ?_, fun hb hr => ?_⟩
    · have ⟨_, _, _, _, hc, _⟩ := h
      have hcl : Clocked s (s.start .receiveByte).receiveByte 40 (List.replicate 8 s.di) :=
        heldByte_bits s.di ▸ (State.receiveByte_clocked (s := s.start .receiveByte) hc).from_dev rfl rfl
      exact ⟨_, _, _, receiveByte_answers h hp (hmeans ha hr), hcl.leaves⟩
    · rw [receiveByte_runs h hp, htwice ha, runUnless]
    · rw [receiveByte_runs h hp, hpast hb hr, runUnless]
  · obtain ⟨hb, hk⟩ := blockInFrame_inFrame h
    simp only [exec, execReceiveByte, hb, hk, blockEmpty_selected hp, Option.none_or, Option.some_or, runUnless]

/-- Settles O13: `n` turns of the loop, unless DEV's answer would have no meaning; a count of 0 takes no turn. -/
theorem receiveBytesFillsBuffer : Obligations.ReceiveBytesFillsBuffer := by
  refine fun n r s => ⟨fun h => ⟨fun vs hp hn hroom hf hv => ?_, fun hn => ?_, fun hp hn => ?_⟩,
    fun ho hd hp => exec_blocked (blockInFrame_idle ho hd hp)⟩
  · obtain ⟨hmeans, htwice, hpast⟩ := blockAnswer_cases (n := n.toNat) hf hv rfl
    refine ⟨fun ha hr => ?_, fun ha => ?_, fun hb hr => ?_⟩
    · obtain ⟨rs, u, hl, hcl, he⟩ := receiveBytes_answers h hp hn hroom (hmeans ha hr)
      refine ⟨rs, u.dev, u.draws, hl, he, fun q k => ?_, hcl.leaves⟩
      rw [bufferGet_bufferStore (hl ▸ hroom), hl]
    · rw [receiveBytes_runs h hp hn hroom, htwice ha, runUnless]
    · rw [receiveBytes_runs h hp hn hroom, hpast hb hr, runUnless]
  · exact hn ▸ receiveBytes_none r h
  · obtain ⟨hb, hk⟩ := blockInFrame_inFrame h
    simp only [exec, execReceiveBytes, hn, if_false, hb, hk, blockEmpty_selected hp, Option.none_or, Option.some_or, runUnless]

/-- Settles O3: nothing blocks it, and its one event is the only one DEV sees. -/
theorem initTakesBus : Obligations.InitTakesBus := by
  intro s ho hp
  simp only [exec, execInit, blockInit_idle ho hp, runUnless, State.setDir, State.tick, State.emit, State.finish, State.start, ho]

/-- Settles O7: the traffic of `select`, and the frame check for an open frame. -/
theorem selectOpensFrame : Obligations.SelectOpensFrame := by
  refine fun s ho hd => ⟨fun hp => ?_, fun hp => exec_blocked (block_frameOpen ho hd hp).1⟩
  rw [select_runs ⟨ho, hd, hp⟩, ((BusRun.refl (s := s.start .select)).select).finish_eq ho, State.select_dev]
  simp [selectEvents]

end Sys2Proof.Machine
end

section
/-! PROOFS. The basic commands (41_basic_commands.md R150 to R153) and the raw polls of a command that waits. The main lemmas: the one
frame of a command from its start to its end (`opcodeFrame_command`, `statusFrame_command`), and a raw poll with what follows it, in
all three outcomes (`afterPoll_rawPoll`). -/

namespace Sys2Proof.Machine

/-! ### When a basic command runs (10_state.md R36) -/

theorem readStatus_runs {s : State} (h : s.Accepts) :
    exec .readStatus s =
      .next ((s.start .readStatus).statusFrame.finish .ok (some (s.start .readStatus).statusFrame.st)) := by
  simp only [exec, execReadStatus, blockCommand_accepts h, runUnless]

theorem writeEnable_runs {s : State} (h : s.Accepts) :
    exec .writeEnable s = .next (((s.start .writeEnable).opcodeFrame 0x06).finish .ok none) := by
  simp only [exec, execWriteEnable, blockCommand_accepts h, runUnless]

theorem writeDisable_runs {s : State} (h : s.Accepts) :
    exec .writeDisable s = .next (((s.start .writeDisable).opcodeFrame 0x04).finish .ok none) := by
  simp only [exec, execWriteDisable, blockCommand_accepts h, runUnless]

theorem waitUntilReady_runs {s : State} (h : s.Accepts) :
    exec .waitUntilReady s = .next (afterPoll State.waitDone (s.start .waitUntilReady).openRawPoll.rawPoll) := by
  simp only [exec, execWaitUntilReady, blockCommand_accepts h, runUnless]

/-! ### Commands of one frame -/

/-- A command that is one frame `S >b D`, taken and ended. -/
theorem opcodeFrame_command {s : State} (h : s.Accepts) (op : Op) (b : Byte) :
    ((s.start op).opcodeFrame b).finish .ok none = { s with
      cs := true, sck := false, di := b.getLsbD 0, sr := 0, bitcnt := 0, bufRef := none, err := .ok, ret := none
      trace := s.trace ++ opcodeFrameEvents s.params b
      dev := ((s.start op).opcodeFrame b).dev, draws := ((s.start op).opcodeFrame b).draws } := by
  obtain ⟨ho, -, hp⟩ := h
  rw [((BusRun.refl (s := s.start op)).opcodeFrame b).finish_eq ho]
  simp [hp]

/-- A command that is one status frame, taken and ended with the status byte. -/
theorem statusFrame_command {s : State} (h : s.Accepts) (op : Op) :
    (s.start op).statusFrame.finish .ok (some (s.start op).statusFrame.st) = { s with
      cs := true, sck := false, di := true, sr := s.statusNow, bitcnt := 0, st := s.statusNow
      bufRef := none, err := .ok, ret := some s.statusNow
      trace := s.trace ++ statusFrameEvents s.params s.statusNow
      dev := { s.dev.ticks 86 with frame := [], heardBusy := (s.dev.ticks 2).busy, status := s.statusNow }
      draws := (s.draws.srx s.dev.srx).2 } := by
  obtain ⟨ho, -, hp⟩ := h
  have hn : (s.start op).statusNow = s.statusNow := rfl
  rw [State.statusFrame_eq, hn]
  simp [State.finish, State.start, ho, hp]

/-! ### A raw poll and what follows it (41_basic_commands.md R151) -/

/-- A raw poll was the last one: its sample is counted and its frame closed. -/
def State.rawClosed (s : State) : State :=
  { s with
    cs := true, sck := false, ph := .idle, pollcnt := s.pollcnt + 1
    trace := s.trace ++ [.sample s.rawLevel] ++ deselectEvents s.params
    dev := { s.dev.ticks 4 with frame := [] }, draws := s.rawDraws }

/-- A raw poll found the device busy with polls left: its sample is counted, the frame stays open. -/
def State.rawWaits (s : State) : State :=
  { s with pollcnt := s.pollcnt + 1, trace := s.trace ++ [.sample s.rawLevel], dev := s.dev.tick, draws := s.rawDraws }

/-- A raw poll with what follows it, in all three outcomes (41_basic_commands.md R151, 60_exceptions.md R212). -/
theorem afterPoll_rawPoll {s : State} (hc : s.cs = false) (hk : s.sck = false) (hf : s.dev.frame = bitsOfByte 0x05)
    (rest : State → State) :
    afterPoll rest s.rawPoll =
      if s.rawLevel = s.params.readyLevel then rest s.rawClosed
      else if limitReached s.params (s.pollcnt + 1) then s.rawClosed.raise .deviceTimeout
      else s.rawWaits := by
  have hv : s.verdict (s.rawLevel == s.params.readyLevel) =
      if s.rawLevel = s.params.readyLevel then .ready
      else if limitReached s.params (s.pollcnt + 1) then .timedOut else .busy := by
    simp only [State.verdict, beq_iff_eq]
  rw [State.rawPoll_eq hc hk hf, hv]
  by_cases hr : s.rawLevel = s.params.readyLevel
  · rw [if_pos hr, if_pos hr]
    rfl
  · rw [if_neg hr, if_neg hr]
    by_cases hl : limitReached s.params (s.pollcnt + 1) = true
    · rw [if_pos hl, if_pos hl]
      rfl
    · rw [if_neg hl, if_neg hl]
      rfl

/-- What the sample of a raw poll shows, and what it takes from the free values (20_memory.md R75). -/
theorem State.rawLevel_shows (s : State) :
    (s.params.rawPollShowsBusy = true →
      s.rawDraws = s.draws ∧ (s.rawLevel = s.params.readyLevel ↔ s.dev.tick.busy = false)) ∧
    (s.params.rawPollShowsBusy = false → s.rawLevel = s.draws.level.1 ∧ s.rawDraws = s.draws.level.2) := by
  refine ⟨fun h => ⟨?_, State.rawLevel_ready h⟩, fun h => ⟨?_, ?_⟩⟩ <;> simp [State.rawDraws, State.rawLevel, h]

/-- A command that waits by raw polls makes its next one in the next step (10_state.md R36). -/
theorem step_rawWait {op : Op} {s : State} (ho : s.opr = some op)
    (hm : op = .waitUntilReady ∨ (op = .writeStatus ∧ s.params.wrsrWait = .waitUntilReady) ∨
      (op = .eraseBlock ∧ s.params.eraseWait = .waitUntilReady)) :
    step s = .next (afterPoll (if op = .waitUntilReady then State.waitDone else State.closing) s.rawPoll) := by
  rw [step_running ho]
  obtain rfl | ⟨rfl, h⟩ | ⟨rfl, h⟩ := hm
  · simp only [State.resume, if_true]
  · simp only [State.resume, h, State.continueWait, reduceCtorEq, if_false]
  · simp only [State.resume, h, State.continueWait, reduceCtorEq, if_false]

/-- The closing WriteDisable behind the last raw poll keeps the array, and clears the latch unless DEV is busy as CS rises
(20_memory.md R77, R82). -/
theorem State.rawClosed_closing_dev (s : State) :
    s.rawClosed.closing.dev.wel = (if (s.dev.ticks 48).busy then s.dev.wel else false) ∧
      s.rawClosed.closing.dev.mem = s.dev.mem := by
  refine ⟨?_, (State.closing_mem _).trans (Dev.ticks_mem _ _)⟩
  have hd : s.rawClosed.dev.ticks 44 = { s.dev.ticks 48 with frame := [] } := by
    rw [State.rawClosed, Dev.ticks_withFrame, Dev.ticks_ticks]
  have hw : s.rawClosed.dev.wel = s.dev.wel := Dev.ticks_wel _ _
  rw [State.closing_dev, hd, hw]

/-! ### The first poll of WaitUntilReady (41_basic_commands.md R151) -/

/-- DEV `n` events after a raw poll's frame is open: 43 more are behind it. -/
theorem State.openRawPoll_ticks (s : State) (n : Nat) :
    s.openRawPoll.dev.ticks n =
      { s.dev.ticks (43 + n) with frame := bitsOfByte 0x05, heardBusy := (s.dev.ticks 2).busy } := by
  rw [State.openRawPoll_eq, Dev.ticks_withHeard, Dev.ticks_ticks]

/-- The first raw poll of WaitUntilReady, with its frame closed. -/
theorem State.openRawPoll_rawClosed (s : State) :
    s.openRawPoll.rawClosed = { s with
      cs := true, sck := false, di := true, sr := 0, bitcnt := 0, ph := .idle, pollcnt := 1
      trace := s.trace ++ selectEvents s.params ++ sendEvents 0x05 ++ [.sample s.openRawPoll.rawLevel] ++ deselectEvents s.params
      dev := { s.dev.ticks 47 with frame := [], heardBusy := (s.dev.ticks 2).busy }, draws := s.openRawPoll.rawDraws } := by
  have hd := s.openRawPoll_ticks 4
  generalize hb : s.openRawPoll.rawLevel = b
  generalize hw : s.openRawPoll.rawDraws = w
  rw [State.rawClosed, hb, hw, hd, State.openRawPoll_eq]

/-- The first raw poll of WaitUntilReady, with its frame open still. -/
theorem State.openRawPoll_rawWaits (s : State) :
    s.openRawPoll.rawWaits = { s with
      cs := false, sck := false, di := true, sr := 0, bitcnt := 0, ph := .dataPhase, pollcnt := 1
      trace := s.trace ++ selectEvents s.params ++ sendEvents 0x05 ++ [.sample s.openRawPoll.rawLevel]
      dev := { s.dev.ticks 44 with frame := bitsOfByte 0x05, heardBusy := (s.dev.ticks 2).busy }
      draws := s.openRawPoll.rawDraws } := by
  have hd : s.openRawPoll.dev.tick = _ := s.openRawPoll_ticks 1
  generalize hb : s.openRawPoll.rawLevel = b
  generalize hw : s.openRawPoll.rawDraws = w
  rw [State.rawWaits, hb, hw, hd, State.openRawPoll_eq]

/-- WaitUntilReady up to its first poll, in all three outcomes: POLLCNT is then 1, and POLL_LIMIT at least 1 (00_scope.md R8). -/
theorem afterPoll_openRawPoll (s : State) (rest : State → State) :
    afterPoll rest s.openRawPoll.rawPoll =
      if s.openRawPoll.rawLevel = s.params.readyLevel then rest s.openRawPoll.rawClosed
      else if s.params.pollLimit = some 1 then s.openRawPoll.rawClosed.raise .deviceTimeout
      else s.openRawPoll.rawWaits := by
  have e := s.openRawPoll_eq
  have hp : s.openRawPoll.params = s.params := by rw [e]
  have hn : s.openRawPoll.pollcnt = 0 := by rw [e]
  rw [afterPoll_rawPoll (by rw [e]) (by rw [e]) (by rw [e]), hp, hn]
  simp only [Nat.zero_add, limitReached_one]

/-- What the first sample shows, 44 events after the command began, and what it takes from the free values (20_memory.md R75). -/
theorem State.openRawPoll_shows (s : State) :
    (s.params.rawPollShowsBusy = true →
      s.openRawPoll.rawDraws = s.draws ∧
        (s.openRawPoll.rawLevel = s.params.readyLevel ↔ (s.dev.ticks 44).busy = false)) ∧
    (s.params.rawPollShowsBusy = false →
      s.openRawPoll.rawLevel = s.draws.level.1 ∧ s.openRawPoll.rawDraws = s.draws.level.2) := by
  have hp : s.openRawPoll.params = s.params := by rw [s.openRawPoll_eq]
  have hw : s.openRawPoll.draws = s.draws := by rw [s.openRawPoll_eq]
  have hd : s.openRawPoll.dev.tick = _ := s.openRawPoll_ticks 1
  have hb : s.openRawPoll.dev.tick.busy = (s.dev.ticks 44).busy := by rw [hd]
  have h := s.openRawPoll.rawLevel_shows
  rwa [hp, hw, hb] at h

/-! ### The statements -/

/-- Settles O16: one status frame, whose byte is the status byte as the response starts. -/
theorem readStatusAnswers : Obligations.ReadStatusAnswers := by
  intro s hs
  refine ⟨s.statusNow, ?_, s.busyBit_statusNow, welBit_statusByte _ _ _ _, fun i h0 hi => drawnBit_statusByte _ _ _ _ i h0 hi⟩
  rw [readStatus_runs hs, statusFrame_command hs]

/-- Settles O17: one frame 0x06. -/
theorem writeEnableSetsLatch : Obligations.WriteEnableSetsLatch := by
  intro s hs
  obtain ⟨hd, hw⟩ := (s.start .writeEnable).writeEnableFrame
  rw [writeEnable_runs hs, opcodeFrame_command hs, hd, hw]
  rfl

/-- Settles O18: one frame 0x04. -/
theorem writeDisableClearsLatch : Obligations.WriteDisableClearsLatch := by
  intro s hs
  obtain ⟨hd, hw⟩ := (s.start .writeDisable).writeDisableFrame
  rw [writeDisable_runs hs, opcodeFrame_command hs, hd, hw]
  rfl

/-- Settles O19: the frame is opened, and its first sample has the three outcomes of a raw poll. -/
theorem waitUntilReadyFirstPoll : Obligations.WaitUntilReadyFirstPoll := by
  intro s hs
  obtain ⟨hshows, hdraws⟩ := (s.start .waitUntilReady).openRawPoll_shows
  refine ⟨(s.start .waitUntilReady).openRawPoll.rawLevel, (s.start .waitUntilReady).openRawPoll.rawDraws, ?_, hshows, hdraws⟩
  rw [waitUntilReady_runs hs, afterPoll_openRawPoll, State.openRawPoll_rawClosed, State.openRawPoll_rawWaits, State.start_params]
  obtain ⟨ho, -, hp⟩ := hs
  generalize (s.start .waitUntilReady).openRawPoll.rawLevel = b
  generalize (s.start .waitUntilReady).openRawPoll.rawDraws = w
  by_cases hb : b = s.params.readyLevel
  · rw [if_pos hb, if_pos hb]
    simp [State.waitDone, State.finish, State.start, ho, hp]
  · rw [if_neg hb, if_neg hb]
    by_cases hl : s.params.pollLimit = some 1
    · rw [if_pos hl, if_pos hl]
      simp [State.raise, State.finish, State.start, ho, hp]
    · rw [if_neg hl, if_neg hl]
      rfl

/-- Settles O20: under the premise of R75 the first sample shows ready. -/
theorem waitUntilReadyReturns : Obligations.WaitUntilReadyReturns := by
  intro s hs hp hr
  obtain ⟨b, w, he, hshows, -⟩ := waitUntilReadyFirstPoll s hs
  obtain ⟨rfl, hb⟩ := hshows hp
  obtain rfl : b = s.params.readyLevel := hb.2 hr
  rw [he, if_pos rfl]

/-- Settles O37: the three outcomes of a raw poll, and behind the first the end of WaitUntilReady or the closing WriteDisable. -/
theorem rawPollGoesOn : Obligations.RawPollGoesOn := by
  intro op s ho hc hk hf hm
  obtain ⟨hshows, hdraws⟩ := s.rawLevel_shows
  have hs := step_rawWait ho hm
  rw [afterPoll_rawPoll hc hk (hf.trans (by simp [bitsOfBytes]))] at hs
  refine ⟨s.rawLevel, s.rawDraws, hshows, hdraws, fun hb hop => ?_, fun hb hop => ?_, fun hb hl => ?_, fun hb hl => ?_⟩
  · rw [hs, if_pos hb, if_pos hop]
    simp [State.waitDone, State.finish, State.rawClosed, hk]
  · obtain ⟨hwel, hmem⟩ := s.rawClosed_closing_dev
    refine ⟨s.rawClosed.closing.dev, ?_, hwel, hmem⟩
    rw [hs, if_pos hb, if_neg hop]
    have e := s.rawClosed.closing_eq
    rw [← s.rawClosed.closing_dev] at e
    generalize s.rawClosed.closing.dev = d at *
    rw [e]
    simp [State.rawClosed, hk]
  · rw [hs, if_neg hb, if_pos (limitReached_iff.2 hl)]
    simp [State.raise, State.finish, State.rawClosed, hk]
  · have hn : ¬ limitReached s.params (s.pollcnt + 1) = true := by
      rw [limitReached_iff]
      rintro ⟨l, he, hle⟩
      exact absurd (hl l he) (Nat.not_lt.2 hle)
    rw [hs, if_neg hb, if_neg hn]
    rfl

end Sys2Proof.Machine
end

section
/-! PROOFS. The data commands (42_data_commands.md R170, R171). The main lemmas: the bytes a read frame stores, for any device
(`State.readFrame_stores`), and what WriteByte's two frames make of a ready device and of a busy one (`State.programFrames_ready`,
`State.programFrames_busy`). -/

namespace Sys2Proof.Machine

/-! ### ReadBlock from its start to its end (42_data_commands.md R170) -/

/-- DI keeps the last bit of the address sent (10_state.md R22). -/
theorem addr_lowByte_lowBit (a : Addr) : (a.extractLsb' 0 8).getLsbD 0 = a.getLsbD 0 := by simp

/-- The read frame, for any device: some bytes are received and stored in the buffer in order. -/
theorem State.readFrame_stores {s : State} {r : BufRef} (a : Addr) (n : Len) (hr : s.bufRef = some r)
    (hn : n.toNat ≤ bufferRoom s.bufs r) :
    ∃ (rs : List Byte) (w : Draws), rs.length = n.toNat ∧
      s.readFrame a n.toNat = { s with
        cs := true, sck := false, di := a.getLsbD 0, sr := rs.getLastD 0, bitcnt := 0, ph := .idle
        trace := s.trace ++ readFrameEvents s.params a rs, idx := n, bufs := bufferStore s.bufs r rs
        dev := { s.dev.ticks (166 + 40 * n.toNat) with frame := [], heardBusy := (s.dev.ticks 2).busy }, draws := w } := by
  have hi : (s.readOpen a n.toNat).idx.toNat = 0 := by rw [s.readOpen_eq]; rfl
  obtain ⟨rs, hl, h⟩ := (s.readOpen a n.toNat).receiveTurns_received n.toNat (by rw [hi, Nat.zero_add]; exact n.isLt)
  refine ⟨rs, ((s.readOpen a n.toNat).receiveTurns n.toNat).draws, hl, ?_⟩
  rw [s.readFrame_run a n.toNat n.isLt rs hl h, hr, bufferFill_zero _ _ _ (hl ▸ hn), addr_lowByte_lowBit, List.getLast_eq_getLastD,
    BitVec.ofNat_toNat, BitVec.setWidth_eq]

/-! ### WriteByte from its start to its end (42_data_commands.md R171) -/

/-- The state WriteByte's frames start in. -/
def State.writeStart (s : State) (a : Addr) (v : Byte) : State := { s.start .writeByte with addr := a, val := v }

theorem writeByte_runs {a : Addr} (v : Byte) {s : State} (h : s.Accepts) (ha : a.toNat < Config.flashSize) :
    exec (.writeByte a v) s = .next (((s.writeStart a v).programFrames a v).finish .ok none) := by
  simp only [exec, execWriteByte, blockCommand_accepts h, runUnless, inRange_one ha, if_true, State.writeStart]

/-- WriteByte, taken and ended: its two frames on the trace, and what they leave in DEV. -/
theorem writeByte_answers {a : Addr} (v : Byte) {s : State} (h : s.Accepts) (ha : a.toNat < Config.flashSize) :
    exec (.writeByte a v) s = .next { s with
      cs := true, sck := false, di := v.getLsbD 0, sr := 0, bitcnt := 0, addr := a, val := v, bufRef := none, err := .ok, ret := none
      trace := s.trace ++ opcodeFrameEvents s.params 0x06 ++ addressDataFrameEvents s.params 0x02 a v
      dev := ((s.writeStart a v).programFrames a v).dev, draws := ((s.writeStart a v).programFrames a v).draws } := by
  have ⟨ho, _, hp⟩ := h
  rw [writeByte_runs v h ha, State.programFrames_eq]
  generalize ((s.writeStart a v).programFrames a v).dev = d
  generalize ((s.writeStart a v).programFrames a v).draws = w
  simp [State.writeStart, State.finish, State.start, ho, hp, programEvents]

/-! ### What WriteByte's frames make of DEV (20_memory.md R76, R80, R82, R85) -/

theorem State.programFrames_srx (s : State) (a : Addr) (v : Byte) (ha : a.toNat < Config.flashSize) :
    (s.programFrames a v).dev.srx = s.dev.srx := by
  rw [(s.programFrames_dev a v ha).1]
  split <;> simp

/-- A ready DEV takes both frames: the byte is programmed, the latch is left set, a busy cycle of drawn length is two events old. -/
theorem State.programFrames_ready {s : State} {a : Addr} (v : Byte) (ha : a.toNat < Config.flashSize) (hb : s.dev.busy = false) :
    (s.programFrames a v).dev.wel = true ∧ (s.programFrames a v).dev.read a.toNat = programFn (s.dev.read a.toNat) v ∧
      (s.programFrames a v).draws = s.draws.latency.2 ∧
      (s.programFrames a v).dev.busy = stillBusy s.draws.latency.1 2 := by
  have hc : (s.dev.ticks 250).busy = false ∧ s.dev.latchAfterEnable = true :=
    ⟨Dev.ticks_busy_mono hb, Dev.latchAfterEnable_ready hb⟩
  obtain ⟨hd, hw⟩ := s.programFrames_dev a v ha
  rw [hd, hw, if_pos hc, if_pos hc]
  refine ⟨by simp, ?_, rfl, by simp [Dev.ticks_busy]⟩
  rw [Dev.read_ticks]
  exact (Dev.read_set s.dev a.toNat a.toNat _).trans (if_pos rfl)

theorem Dev.BusyFor.mono {d : Dev} {m n : Nat} (h : d.BusyFor n) (hm : m ≤ n) : d.BusyFor m :=
  ⟨h.1, fun k hk => hm.trans (h.2 k hk)⟩

/-- A DEV that is busy still as CS rises the second time ignores both frames. -/
theorem State.programFrames_busy {s : State} {a : Addr} (v : Byte) (ha : a.toNat < Config.flashSize) (hb : s.dev.BusyFor 250) :
    (s.programFrames a v).dev.mem = s.dev.mem ∧ (s.programFrames a v).dev.wel = s.dev.wel ∧
      (s.programFrames a v).draws = s.draws ∧ (s.programFrames a v).dev.busy = (s.dev.ticks 252).busy := by
  have hc : ¬ ((s.dev.ticks 250).busy = false ∧ s.dev.latchAfterEnable = true) := by simp [Dev.ticks_busyFor hb]
  have hl : s.dev.latchAfterEnable = s.dev.wel := by
    rw [Dev.latchAfterEnable, if_pos (Dev.ticks_busyFor (hb.mono (by omega)))]
  obtain ⟨hd, hw⟩ := s.programFrames_dev a v ha
  rw [hd, hw, if_neg hc, if_neg hc]
  exact ⟨by simp, hl, rfl, by simp only⟩

/-! ### The statements -/

/-- Settles O23: one read frame, whose bytes go into the buffer in order. -/
theorem readBlockFillsBuffer : Obligations.ReadBlockFillsBuffer := by
  intro a n r s hs hn ha he
  obtain ⟨rs, w, hl, hf⟩ := State.readFrame_stores (s := { s.start .readBlock with addr := a, len := n, bufRef := some r }) a n rfl hn
  refine ⟨rs, w, hl, ?_, fun q k => by rw [bufferGet_bufferStore (hl ▸ hn), hl]⟩
  have ⟨ho, _, hp⟩ := hs
  rw [readBlock_run a n r s hs hn ha he, hf]
  simp only [State.finish, State.start, ho, hp]

/-- Settles O24: DEV answers each byte of the read frame with the byte of the array. -/
theorem readBlockReturnsArray : Obligations.ReadBlockReturnsArray := by
  intro a n r s t hs hb hn ha he h
  rw [readBlock_run a n r s hs hn ha he,
    State.readFrame_answered (s := { s.start .readBlock with addr := a, len := n, bufRef := some r }) rfl hn
      (Dev.ticks_busy_mono hb) he] at h
  cases h
  have hl := Dev.bytes_length s.dev a.toNat n.toNat
  refine ⟨fun j hj => ?_, rfl, rfl, fun b => Dev.read_ticks _ _ b⟩
  refine (bufferGet_bufferStore (bufs := s.bufs) (vs := s.dev.bytes a.toNat n.toNat) (by rw [hl]; exact hn) r j).trans ?_
  rw [hl, if_pos ⟨rfl, hj⟩]
  simp [Dev.bytes, hj]

/-- Settles O25: what the two frames leave in DEV, whatever it is, when it is ready, and when it is busy throughout. -/
theorem writeByteProgramsOneByte : Obligations.WriteByteProgramsOneByte := by
  intro a v s hs ha
  refine ⟨_, _, writeByte_answers v hs ha, State.programFrames_frame _ a v, State.programFrames_srx _ a v ha,
    fun b => State.programFrames_read_other _ a v ha b, fun hb => ?_, fun hb => ?_⟩
  · obtain ⟨hwel, hread, hdraws, hbusy⟩ := State.programFrames_ready (s := s.writeStart a v) v ha hb
    exact ⟨hwel, hread, fun hff => hread.trans (if_pos hff), hdraws, hbusy⟩
  · exact State.programFrames_busy (s := s.writeStart a v) v ha hb

end Sys2Proof.Machine
end

section
/-! PROOFS. The composite commands (43_composite_commands.md R190 to R194). The main lemmas: the busy cycle that the write frames of
WriteStatus and EraseBlock begin on a ready device (`Dev.Writing`), a status poll with what follows it (`afterPoll_statusPoll`), and
one byte of WriteBlock in all the outcomes of its poll (`State.blockLoop_byte`). -/

namespace Sys2Proof.Machine

/-! ### The write frames of WriteStatus and EraseBlock (43_composite_commands.md R190, R191) -/

/-- WriteStatus, its two frames sent. -/
def State.statusWritten (s : State) (v : Byte) : State :=
  (State.opcodeFrame { s.start .writeStatus with val := v } 0x06).dataFrame 0x01 v

/-- EraseBlock, its two frames sent. -/
def State.blockErased (s : State) (a : Addr) : State :=
  (State.opcodeFrame { s.start .eraseBlock with addr := a } 0x06).addressFrame 0xD8 a

theorem writeStatus_runs (v : Byte) {s : State} (hs : s.Accepts) :
    exec (.writeStatus v) s = .next ((s.statusWritten v).completionWait s.params.wrsrWait State.closing) := writeStatus_next v s hs

theorem eraseBlock_runs {a : Addr} {s : State} (hs : s.Accepts) (ha : a.toNat < Config.flashSize) :
    exec (.eraseBlock a) s = .next ((s.blockErased a).completionWait s.params.eraseWait State.closing) := eraseBlock_next a s hs ha

theorem State.statusWritten_run (s : State) (v : Byte) : BusRun { s.start .writeStatus with val := v } (s.statusWritten v) :=
  (BusRun.refl.opcodeFrame 0x06).dataFrame 0x01 v

theorem State.blockErased_run (s : State) (a : Addr) : BusRun { s.start .eraseBlock with addr := a } (s.blockErased a) :=
  (BusRun.refl.opcodeFrame 0x06).addressFrame 0xD8 a

theorem State.statusWritten_eq (s : State) (v : Byte) :
    s.statusWritten v = { s.start .writeStatus with
      cs := true, sck := false, di := v.getLsbD 0, sr := 0, bitcnt := 0, ph := .idle, val := v
      trace := s.trace ++ opcodeFrameEvents s.params 0x06 ++ dataFrameEvents s.params 0x01 v
      dev := (s.statusWritten v).dev, draws := (s.statusWritten v).draws } :=
  State.writeStatusFrames_eq _ v

theorem State.blockErased_eq (s : State) (a : Addr) :
    s.blockErased a = { s.start .eraseBlock with
      cs := true, sck := false, di := (a.extractLsb' 0 8).getLsbD 0, sr := 0, bitcnt := 0, ph := .idle, addr := a
      trace := s.trace ++ opcodeFrameEvents s.params 0x06 ++ addressFrameEvents s.params 0xD8 a
      dev := (s.blockErased a).dev, draws := (s.blockErased a).draws } :=
  State.eraseFrames_eq _ a

theorem State.statusWritten_read (s : State) (v : Byte) (b : Nat) : (s.statusWritten v).dev.read b = s.dev.read b :=
  Dev.read_congr (State.writeStatusFrames_mem _ v) b

/-- EraseBlock's frames change no byte outside the block (20_memory.md R65). -/
theorem State.blockErased_read_other (s : State) {a : Addr} (ha : a.toNat < Config.flashSize) (b : Nat)
    (hb : b / s.params.blockSize ≠ a.toNat / s.params.blockSize) : (s.blockErased a).dev.read b = s.dev.read b :=
  State.eraseFrames_read_other { s.start .eraseBlock with addr := a } a ha b hb

/-- On a ready device they erase the block (20_memory.md R81). -/
theorem State.blockErased_read {s : State} {a : Addr} (ha : a.toNat < Config.flashSize) (hb : s.dev.busy = false) (b : Nat) :
    (s.blockErased a).dev.read b = if b / s.params.blockSize = a.toNat / s.params.blockSize then 0xFF else s.dev.read b :=
  State.eraseFrames_read (s := { s.start .eraseBlock with addr := a }) ha hb b

theorem State.blockErased_srx (s : State) {a : Addr} (ha : a.toNat < Config.flashSize) : (s.blockErased a).dev.srx = s.dev.srx := by
  rw [State.blockErased, (State.eraseFrames_dev _ a ha).1]
  split <;> simp

/-- A dead device is dead still behind the frames of a command (20_memory.md R82, R84). -/
theorem BusRun.dead {s t : State} (h : BusRun s t) (hd : s.dev.Dead) : t.dev.Dead := (h.devRun.dead hd).dead

/-- A busy cycle of drawn length `l`, begun two events ago by a frame that DEV took with its latch set (20_memory.md R78, R81, R84). -/
structure Dev.Writing (d : Dev) (l : Option Nat) : Prop where
  wel : d.wel = true
  busy : ∀ n, (d.ticks n).busy = stillBusy l (2 + n)

theorem Dev.StartsBusy.writing {d : Dev} {l : Option Nat} (h : d.StartsBusy l) (hw : d.wel = true) : (d.ticks 2).Writing l :=
  ⟨(Dev.ticks_wel _ _).trans hw, fun n => by rw [Dev.ticks_ticks, Dev.ticks_busy, h.1, h.2, Bool.true_and]⟩

/-- A ready device takes both frames of WriteStatus (20_memory.md R76, R78). -/
theorem State.statusWritten_writing {s : State} (v : Byte) (hb : s.dev.busy = false) :
    (s.statusWritten v).dev.Writing (Draws.latency { s.draws with count := s.draws.count + 1 }).1 := by
  rw [State.statusWritten, (State.writeStatusFrames_dev _ v).1, if_pos ⟨Dev.ticks_busy_mono hb, Dev.latchAfterEnable_ready hb⟩]
  exact Dev.StartsBusy.writing ⟨rfl, rfl⟩ rfl

/-- A ready device takes both frames of EraseBlock (20_memory.md R76, R81). -/
theorem State.blockErased_writing {s : State} {a : Addr} (ha : a.toNat < Config.flashSize) (hb : s.dev.busy = false) :
    (s.blockErased a).dev.Writing s.draws.latency.1 := by
  rw [State.blockErased, (State.eraseFrames_dev _ a ha).1, if_pos ⟨Dev.ticks_busy_mono hb, Dev.latchAfterEnable_ready hb⟩]
  exact Dev.StartsBusy.writing ⟨rfl, rfl⟩ rfl

/-- The busy cycle is over when a poll or a WriteDisable behind the frames reaches DEV. -/
theorem Dev.Writing.over {d : Dev} {k : Nat} (h : d.Writing (some k)) (hk : k < 46) : (d.ticks 44).busy = false := by
  rw [h.busy]
  exact decide_eq_false (by omega)

/-! ### The closing WriteDisable (43_composite_commands.md R190, R191) -/

/-- The closing frame and the end of the command; what it leaves in DEV, `State.closing_dev` says. -/
theorem State.closing_answers (s : State) :
    s.closing = { s with
      cs := true, sck := false, di := false, sr := 0, bitcnt := 0, ph := .idle, opr := none, bufRef := none, err := .ok, ret := none
      trace := s.trace ++ opcodeFrameEvents s.params 0x04, dev := s.closing.dev } := by
  have e := s.closing_eq
  rwa [← s.closing_dev] at e

/-- Right behind the write frames the latch stays set exactly when the busy cycle is still under way as CS rises (20_memory.md R82). -/
theorem Dev.Writing.closing_wel {s : State} {l : Option Nat} (h : s.dev.Writing l) : s.closing.dev.wel = stillBusy l 46 := by
  rw [s.closing_dev, h.busy, h.wel]
  cases stillBusy l (2 + 44) <;> rfl

theorem State.statusWritten_closing {s : State} (hs : s.Accepts) (v : Byte) :
    (s.statusWritten v).closing = { s with
      cs := true, sck := false, di := false, sr := 0, bitcnt := 0, val := v, bufRef := none, err := .ok, ret := none
      trace := s.trace ++ opcodeFrameEvents s.params 0x06 ++ dataFrameEvents s.params 0x01 v ++ opcodeFrameEvents s.params 0x04
      dev := (s.statusWritten v).closing.dev, draws := (s.statusWritten v).draws } := by
  obtain ⟨ho, -, hp⟩ := hs
  rw [State.closing_answers]
  generalize (s.statusWritten v).closing.dev = d
  rw [State.statusWritten_eq]
  simp [ho, hp, State.start]

theorem State.blockErased_closing {s : State} (hs : s.Accepts) (a : Addr) :
    (s.blockErased a).closing = { s with
      cs := true, sck := false, di := false, sr := 0, bitcnt := 0, addr := a, bufRef := none, err := .ok, ret := none
      trace := s.trace ++ opcodeFrameEvents s.params 0x06 ++ addressFrameEvents s.params 0xD8 a ++ opcodeFrameEvents s.params 0x04
      dev := (s.blockErased a).closing.dev, draws := (s.blockErased a).draws } := by
  obtain ⟨ho, -, hp⟩ := hs
  rw [State.closing_answers]
  generalize (s.blockErased a).closing.dev = d
  rw [State.blockErased_eq]
  simp [ho, hp, State.start]

/-! ### The first poll of their wait (43_composite_commands.md R193, R194) -/

/-- A command `op`, taken in `s`, has sent `frames` and no more: what its wait starts from. -/
structure FramesSent (s x : State) (op : Op) (frames : List Event) : Prop where
  opr : x.opr = some op
  params : x.params = s.params
  st : x.st = s.st
  trace : x.trace = s.trace ++ frames
  dead : s.dev.Dead → x.dev.Dead

theorem State.statusWritten_framesSent (s : State) (v : Byte) :
    FramesSent s (s.statusWritten v) .writeStatus (opcodeFrameEvents s.params 0x06 ++ dataFrameEvents s.params 0x01 v) := by
  have hd := (s.statusWritten_run v).dead
  rw [State.statusWritten_eq] at hd ⊢
  exact ⟨rfl, rfl, rfl, List.append_assoc _ _ _, hd⟩

theorem State.blockErased_framesSent (s : State) (a : Addr) :
    FramesSent s (s.blockErased a) .eraseBlock (opcodeFrameEvents s.params 0x06 ++ addressFrameEvents s.params 0xD8 a) := by
  have hd := (s.blockErased_run a).dead
  rw [State.blockErased_eq] at hd ⊢
  exact ⟨rfl, rfl, rfl, List.append_assoc _ _ _, hd⟩

theorem Dev.Dead.busy_later {d : Dev} (h : d.Dead) (n : Nat) : (d.ticks n).busy = true := by rw [Dev.ticks_dead h]; exact h.1

/-! ### A status poll and what follows it (43_composite_commands.md R194) -/

theorem State.statusSample_eq (s : State) :
    s.statusSample = { s with
      cs := true, sck := false, di := true, sr := s.statusNow, bitcnt := 0, ph := .idle, st := s.statusNow, pollcnt := s.pollcnt + 1
      trace := s.trace ++ statusFrameEvents s.params s.statusNow
      dev := { s.dev.ticks 86 with frame := [], heardBusy := (s.dev.ticks 2).busy, status := s.statusNow }
      draws := (s.draws.srx s.dev.srx).2 } := by
  simp only [State.statusSample]
  rw [s.statusFrame_eq]

/-- What one status poll leaves in SEQ. -/
theorem State.statusSample_answers (s : State) :
    s.statusSample = { s with
      cs := true, sck := false, di := true, sr := s.statusNow, bitcnt := 0, ph := .idle, st := s.statusNow, pollcnt := s.pollcnt + 1
      trace := s.trace ++ statusFrameEvents s.params s.statusNow
      dev := s.statusSample.dev, draws := s.statusSample.draws } := by
  have e := s.statusSample_eq
  generalize s.statusSample = x at *
  generalize s.dev.ticks 86 = y at *
  generalize s.dev.ticks 2 = y2 at *
  rw [e]

/-- A status poll with what follows it, in all three outcomes (60_exceptions.md R212). -/
theorem afterPoll_statusPoll (s : State) (rest : State → State) :
    afterPoll rest s.statusPoll =
      if (s.dev.ticks 44).busy = false then rest s.statusSample
      else if limitReached s.params (s.pollcnt + 1) then s.statusSample.raise .deviceTimeout
      else s.statusSample := by
  rw [s.statusPoll_run, ← s.statusSample_eq]
  split
  · rfl
  · split <;> rfl

theorem State.statusPoll_snd (s : State) : s.statusPoll.2 = s.statusSample := by simp only [State.statusPoll]

theorem State.statusSample_busIdle (s : State) : s.statusSample.BusIdle := s.statusPoll_snd ▸ s.statusPoll_end

theorem State.statusSample_mem (s : State) : s.statusSample.dev.mem = s.dev.mem := s.statusPoll_snd ▸ s.statusPoll_mem

/-- What a status poll leaves alone in SEQ. -/
theorem State.statusSample_keeps (s : State) :
    CmdRun s s.statusSample ∧ s.statusSample.idx = s.idx ∧ s.statusSample.bufRef = s.bufRef :=
  s.statusPoll_snd ▸ ⟨s.statusPoll_cmdRun, s.statusPoll_idx.1, s.statusPoll_bufRef⟩

/-- The closing WriteDisable of a device that showed ready: the latch is cleared (20_memory.md R77). -/
theorem State.closing_ready {s t : State} (hb : (s.dev.ticks 44).busy = false) (ht : t.dev = s.statusSample.dev) :
    t.closing.dev.wel = false ∧ t.closing.dev.busy = false ∧ t.closing.dev.mem = s.dev.mem ∧ t.closing.dev.srx = s.dev.srx := by
  have hd : t.dev.busy = false ∧ t.dev.srx = s.dev.srx := by
    have hl := Dev.later_ready hb 42
    have hx := s.dev.ticks_srx 86
    rw [ht, s.statusSample_eq]
    generalize s.dev.ticks 86 = d at *
    exact ⟨hl, hx⟩
  obtain ⟨hready, hsrx⟩ := hd
  have hmem : t.dev.mem = s.dev.mem := by rw [ht]; exact s.statusSample_mem
  rw [t.closing_dev, Dev.ticks_ready hready, Dev.ticks_ready hready, hready]
  exact ⟨rfl, rfl, hmem, hsrx⟩

/-! ### One byte of WriteBlock (43_composite_commands.md R192) -/

/-- What WriteBlock's loop starts from: the operands taken, IDX = 0. -/
def State.blockStart (s : State) (a : Addr) (r : BufRef) (n : Len) : State :=
  { s.start .writeBlock with addr := a, len := n, bufRef := some r, idx := 0 }

@[simp] theorem State.blockStart_params (s : State) (a : Addr) (r : BufRef) (n : Len) : (s.blockStart a r n).params = s.params := rfl

theorem writeBlock_runs {a : Addr} {r : BufRef} {n : Len} {s : State} (hs : s.Accepts) (hn : n.toNat ≤ bufferRoom s.bufs r)
    (hr : inRange a n.toNat = true) : exec (.writeBlock a r n) s = .next (State.blockLoop n.toNat (s.blockStart a r n)) :=
  writeBlock_next hs hn hr

/-- The state after one byte of WriteBlock and its poll. -/
def State.byteSent (s : State) : State := s.blockByte.statusSample

/-- The status byte that the poll behind a byte of WriteBlock answers. -/
def State.byteStatus (s : State) : Byte := s.blockByte.statusNow

/-- The byte that WriteBlock writes next has an address in the array (30_encoding.md R113). -/
def State.ByteFits (s : State) : Prop := s.addr.toNat + s.idx.toNat < Config.flashSize

theorem State.ByteFits.inRange {s : State} (h : s.ByteFits) : inRange (byteAddr s.addr s.idx) 1 = true :=
  inRange_one ((byteAddr_toNat h).symm ▸ h)

/-- One byte of WriteBlock in all three outcomes of its poll: the rest of the block, DeviceTimeout when POLL_LIMIT is 1, the wait. -/
theorem State.blockLoop_byte {s : State} (h : s.ByteFits) (k : Nat) :
    State.blockLoop (k + 1) s =
      if s.byteStatus.getLsbD 0 = false then State.blockLoop k s.byteSent.nextByte
      else if s.params.pollLimit = some 1 then s.byteSent.raise .deviceTimeout
      else s.byteSent := by
  have hb : s.byteStatus.getLsbD 0 = (s.blockByte.dev.ticks 44).busy := s.blockByte.busyBit_statusNow
  have hp : s.blockByte.params = s.params := by rw [s.blockByte_eq]
  have hc : s.blockByte.pollcnt = 0 := by rw [s.blockByte_eq]
  rw [State.blockLoop, if_pos h.inRange, afterPoll_statusPoll, hb, hp, hc]
  simp only [Nat.zero_add, limitReached_one, State.byteSent]

/-- What one byte of WriteBlock and its poll leave in SEQ. -/
theorem State.byteSent_eq (s : State) :
    s.byteSent = { s with
      cs := true, sck := false, di := true, sr := s.byteStatus, bitcnt := 0, ph := .idle, val := s.nextVal, pollcnt := 1
      st := s.byteStatus
      trace := s.trace ++ blockByteEvents s.params (byteAddr s.addr s.idx) s.nextVal s.byteStatus
      dev := s.byteSent.dev, draws := s.byteSent.draws } := by
  have e := s.blockByte.statusSample_answers
  simp only [State.byteSent, State.byteStatus]
  generalize s.blockByte.statusSample.dev = d at *
  generalize s.blockByte.statusSample.draws = w at *
  generalize s.blockByte.statusNow = x at *
  rw [e, s.blockByte_eq]
  simp only [blockByteEvents, List.append_assoc]

theorem State.byteSent_keeps (s : State) : CmdRun s s.byteSent ∧ s.byteSent.idx = s.idx ∧ s.byteSent.bufRef = s.bufRef := by
  rw [State.byteSent, ← State.statusPoll_snd]
  exact s.blockStep_keeps

/-- A dead device shows busy behind the byte (20_memory.md R84). -/
theorem State.byteStatus_dead {s : State} (h : s.dev.Dead) : s.byteStatus.getLsbD 0 = true :=
  s.blockByte.busyBit_statusNow.trans ((DevRun.refl.blockByte.dead h).dead.busy_later 44)

theorem State.byteSent_busIdle (s : State) : s.byteSent.BusIdle := s.blockByte.statusSample_busIdle

theorem State.byteSent_trace (s : State) :
    s.byteSent.trace = s.trace ++ blockByteEvents s.params (byteAddr s.addr s.idx) s.nextVal s.byteStatus := by rw [s.byteSent_eq]

/-- The events of a byte of WriteBlock and its poll come first on the trace of the loop. -/
theorem State.blockLoop_byte_prefix {s : State} (h : s.ByteFits) (k : Nat) :
    s.trace ++ blockByteEvents s.params (byteAddr s.addr s.idx) s.nextVal s.byteStatus <+: (State.blockLoop (k + 1) s).trace := by
  rw [State.blockLoop_byte h, ← s.byteSent_trace]
  split
  · exact State.blockLoop_prefix k s.byteSent.nextByte
  · split <;> exact List.prefix_rfl

theorem State.nextByte_idx_toNat {s : State} (h : s.idx.toNat + 1 < 2 ^ 16) : s.nextByte.idx.toNat = s.idx.toNat + 1 :=
  len_succ_toNat h

/-- The loop moves IDX on by no more than the bytes it has to go. -/
theorem State.blockLoop_idx_le (k : Nat) : ∀ s : State, s.idx.toNat + k ≤ s.len.toNat →
    (State.blockLoop k s).idx.toNat ≤ s.idx.toNat + k := by
  induction k with
  | zero => exact fun s _ => Nat.le_of_eq (congrArg BitVec.toNat s.closing_idx.1)
  | succ k ih =>
    intro s hk
    have hlen := s.len.isLt
    obtain ⟨hrun, hidx, -⟩ := s.blockStep_keeps
    rw [State.blockLoop]
    split
    · refine afterPoll_of (P := fun t => t.idx.toNat ≤ s.idx.toNat + (k + 1)) ?_ ?_ ?_
      · have hn : s.blockByte.statusPoll.2.nextByte.idx.toNat = s.idx.toNat + 1 := by
          rw [State.nextByte_idx, hidx, len_succ_toNat (by omega)]
        have := ih s.blockByte.statusPoll.2.nextByte (by rw [hn, State.nextByte_len, hrun.len]; omega)
        omega
      · rw [State.raise_idx, hidx]; omega
      · rw [hidx]; omega
    · exact Nat.le_add_right _ _

/-- With the bus idle and bytes left, the frames of the next byte and the delay follow, and IDX moves on within the range
(30_encoding.md R113). -/
theorem State.blockLoop_nextByte {s : State} {k : Nat} (hs : s.BusIdle) (hr : inRange s.addr s.len.toNat = true)
    (hk : s.idx.toNat + 1 + (k + 1) ≤ s.len.toNat) :
    s.trace ++ opcodeFrameEvents s.params 0x06 ++
        addressDataFrameEvents s.params 0x02 (BitVec.ofNat 24 (s.addr.toNat + (s.idx.toNat + 1)))
          (bufferGet s.bufs s.bufRef (s.idx.toNat + 1)) ++
        [.delayUs s.params.tProgram] <+: (State.blockLoop (k + 1) s.nextByte).trace ∧
      s.idx.toNat + 1 ≤ (State.blockLoop (k + 1) s.nextByte).idx.toNat ∧
      (State.blockLoop (k + 1) s.nextByte).idx.toNat ≤ s.len.toNat := by
  have hlen := s.len.isLt
  have hra := inRange_iff.1 hr
  have hn := State.nextByte_idx_toNat (s := s) (by omega)
  have hleft : s.nextByte.idx.toNat + (k + 1) ≤ s.nextByte.len.toNat := by rw [hn, State.nextByte_len]; exact hk
  obtain ⟨hph, hcs, hsck⟩ := hs.nextByte
  have hge := (State.blockLoop_ends (k + 1) _ hleft hph hcs hsck).1
  rw [hn] at hge
  refine ⟨?_, hge, (State.blockLoop_idx_le (k + 1) _ hleft).trans hleft⟩
  have hfits : s.nextByte.ByteFits := by rw [State.ByteFits, hn, State.nextByte_addr]; omega
  have hp := State.blockLoop_byte_prefix hfits k
  rw [State.nextVal, byteAddr, hn, blockByteEvents, ← List.append_assoc, ← List.append_assoc, programEvents,
    ← List.append_assoc] at hp
  exact (List.prefix_append _ _).trans hp

/-- A poll that shows busy is the last event of the step, whether the command ends or waits. -/
theorem State.blockLoop_busy {s : State} (h : s.ByteFits) (k : Nat) (hx : s.byteStatus.getLsbD 0 = true) :
    (State.blockLoop (k + 1) s).idx = s.idx ∧ (State.blockLoop (k + 1) s).val = s.nextVal ∧
      (State.blockLoop (k + 1) s).pollcnt = 1 ∧ (State.blockLoop (k + 1) s).st = s.byteStatus ∧
      (State.blockLoop (k + 1) s).trace = s.byteSent.trace := by
  have hf : s.byteSent.idx = s.idx ∧ s.byteSent.val = s.nextVal ∧ s.byteSent.pollcnt = 1 ∧ s.byteSent.st = s.byteStatus := by
    rw [s.byteSent_eq]
    exact ⟨rfl, rfl, rfl, rfl⟩
  obtain ⟨hidx, hval, hcnt, hst⟩ := hf
  rw [State.blockLoop_byte h, if_neg (by rw [hx]; decide)]
  generalize s.byteSent = u at *
  split <;> exact ⟨hidx, hval, hcnt, hst, rfl⟩

/-- A poll that shows ready behind the last byte is followed by the closing WriteDisable. -/
theorem State.blockLoop_last {s : State} (h : s.ByteFits) (hx : s.byteStatus.getLsbD 0 = false) :
    (State.blockLoop 1 s).opr = none ∧ (State.blockLoop 1 s).err = .ok ∧ (State.blockLoop 1 s).idx = s.idx + 1 ∧
      (State.blockLoop 1 s).trace = s.byteSent.trace ++ opcodeFrameEvents s.params 0x04 := by
  obtain ⟨hrun, hidx, -⟩ := s.byteSent_keeps
  rw [State.blockLoop_byte h, if_pos hx, State.blockLoop, State.closing_answers, State.nextByte_idx, State.nextByte_trace,
    State.nextByte_params, hidx, hrun.params]
  exact ⟨rfl, rfl, rfl, rfl⟩

/-- A poll that shows ready with bytes left is followed by the frames of the next byte and the delay. -/
theorem State.blockLoop_goesOn {s : State} {k : Nat} (h : s.ByteFits) (hx : s.byteStatus.getLsbD 0 = false)
    (hr : inRange s.addr s.len.toNat = true) (hk : s.idx.toNat + 1 + (k + 1) ≤ s.len.toNat) :
    s.idx.toNat + 1 ≤ (State.blockLoop (k + 2) s).idx.toNat ∧
      s.byteSent.trace ++ opcodeFrameEvents s.params 0x06 ++
        addressDataFrameEvents s.params 0x02 (BitVec.ofNat 24 (s.addr.toNat + (s.idx.toNat + 1)))
          (bufferGet s.bufs s.bufRef (s.idx.toNat + 1)) ++
        [.delayUs s.params.tProgram] <+: (State.blockLoop (k + 2) s).trace := by
  obtain ⟨hrun, hidx, href⟩ := s.byteSent_keeps
  obtain ⟨hp, hge, -⟩ := State.blockLoop_nextByte (k := k) s.byteSent_busIdle (by rw [hrun.addr, hrun.len]; exact hr)
    (by rw [hidx, hrun.len]; exact hk)
  rw [hidx, hrun.addr, hrun.bufs, href, hrun.params] at hp
  rw [hidx] at hge
  rw [State.blockLoop_byte h, if_pos hx]
  exact ⟨hge, hp⟩

/-- Behind a byte, whatever its poll showed, the bus is deselected and idle. -/
theorem State.blockLoop_busIdle {s : State} (h : s.ByteFits) (k : Nat) (hk : s.idx.toNat + (k + 1) ≤ s.len.toNat) :
    (State.blockLoop (k + 1) s).BusIdle := by
  have hlen := s.len.isLt
  obtain ⟨hrun, hidx, -⟩ := s.byteSent_keeps
  rw [State.blockLoop_byte h]
  split
  · obtain ⟨hph, hcs, hsck⟩ := s.byteSent_busIdle.nextByte
    have hn := State.nextByte_idx_toNat (s := s.byteSent) (by rw [hidx]; omega)
    rw [hidx] at hn
    obtain ⟨-, hph', hcs', hsck', -⟩ :=
      State.blockLoop_ends k s.byteSent.nextByte (by rw [hn, State.nextByte_len, hrun.len]; omega) hph hcs hsck
    exact ⟨hph', hcs', hsck'⟩
  · have hb := s.byteSent_busIdle
    generalize s.byteSent = u at *
    split <;> exact hb

/-- The trace behind the first byte of a WriteBlock and its poll. -/
theorem State.blockStart_byteSent_trace (s : State) (a : Addr) (r : BufRef) (n : Len) :
    (s.blockStart a r n).byteSent.trace = s.trace ++ opcodeFrameEvents s.params 0x06 ++
      addressDataFrameEvents s.params 0x02 a (bufferGet s.bufs r 0) ++ [.delayUs s.params.tProgram] ++
      statusFrameEvents s.params (s.blockStart a r n).byteStatus := by
  rw [State.byteSent_trace]
  generalize (s.blockStart a r n).byteStatus = x
  simp [State.blockStart, State.start, State.nextVal, byteAddr, blockByteEvents, programEvents]

/-- The whole loop on a device that is ready at each poll, exactly in SEQ. -/
theorem BlockDone.eq {s t : State} {rs : List Byte} (h : BlockDone s t rs) (hne : rs ≠ []) :
    t = { s with
      cs := true, sck := false, di := false, sr := 0, bitcnt := 0, ph := .idle, opr := none, bufRef := none, err := .ok, ret := none
      idx := t.idx, val := bufferGet s.bufs s.bufRef (s.idx.toNat + rs.length - 1), pollcnt := 1, st := rs.getLastD 0
      trace := s.trace ++ blockEvents s s.idx.toNat rs ++ opcodeFrameEvents s.params 0x04, dev := t.dev, draws := t.draws } := by
  have hst : t.st = rs.getLastD 0 := by
    obtain ⟨x, xs, rfl⟩ := List.exists_cons_of_ne_nil hne
    exact h.st
  have e := h.run
  rwa [CmdRun, h.cs, h.sck, h.di, h.sr, h.bitcnt, h.ph, h.opr, h.bufRef, h.err, h.ret, h.val, if_neg hne, h.pollcnt, if_neg hne, hst,
    h.trace] at e

/-! ### The buffer that a waiting WriteBlock holds (10_state.md R43) -/

/-- The reference is held while the command runs, and no longer. -/
def State.Holds (s : State) (r : Option BufRef) : Prop := s.bufRef = if s.opr = none then none else r

theorem State.holds_of_running {s : State} {op : Op} (ho : s.opr = some op) : s.Holds s.bufRef := by
  rw [State.Holds, if_neg (by rw [ho]; simp)]

theorem State.finish_holds (s : State) (e : Err) (x : Option Byte) (r : Option BufRef) : (s.finish e x).Holds r := rfl

theorem State.blockLoop_holds {op : Op} (k : Nat) : ∀ s : State, s.opr = some op → (State.blockLoop k s).Holds s.bufRef := by
  induction k with
  | zero => exact fun s _ => State.finish_holds _ _ _ _
  | succ k ih =>
    intro s ho
    have hp : s.blockByte.statusPoll.2.opr = some op := by rw [State.statusPoll_opr, s.blockByte_eq]; exact ho
    obtain ⟨-, -, href⟩ := s.blockStep_keeps
    rw [State.blockLoop, ← href]
    generalize s.blockByte.statusPoll = p at *
    split
    · exact afterPoll_of (P := (State.Holds · p.2.bufRef)) (ih p.2.nextByte hp) (State.finish_holds _ _ _ _)
        (State.holds_of_running hp)
    · exact State.finish_holds _ _ _ _

/-! ### A waiting WriteBlock, gone on -/

theorem State.blockGoesOn_holds {s : State} {op : Op} (ho : s.opr = some op) : s.blockGoesOn.Holds s.bufRef :=
  State.blockLoop_holds _ s.nextByte ho

/-- What is left of the block is in its range (20_memory.md R67). -/
theorem State.blockGoesOn_read_other {s : State} {b : Nat} (hr : inRange s.addr s.len.toNat = true)
    (hb : ¬ (s.addr.toNat ≤ b ∧ b < s.addr.toNat + s.len.toNat)) : s.blockGoesOn.dev.read b = s.dev.read b := by
  refine State.blockLoop_read_other _ s.nextByte hr ?_ hb
  have hlen := s.len.isLt
  by_cases hi : s.idx.toNat + 1 < s.len.toNat
  · exact .inr (by rw [State.nextByte_idx, State.nextByte_len, len_succ_toNat (by omega)]; omega)
  · exact .inl (by omega)

/-- A poll that showed ready goes on with the bytes left. -/
theorem State.statusSample_blockGoesOn (s : State) :
    s.statusSample.blockGoesOn = State.blockLoop (s.len.toNat - (s.idx.toNat + 1)) s.statusSample.nextByte := by
  obtain ⟨hrun, hidx, -⟩ := s.statusSample_keeps
  rw [State.blockGoesOn, hrun.len, hidx]

/-! ### The statements -/

/-- Settles O26: the two frames, and a wait that keeps the array; in mode none the closing WriteDisable comes at once. -/
theorem writeStatusWrites : Obligations.WriteStatusWrites := by
  intro v s hs
  have hf := s.statusWritten_run v
  have hc := hf.cmdRun.completionWait s.params.wrsrWait
  obtain ⟨hidx, hval⟩ := (s.statusWritten v).completionWait_idx s.params.wrsrWait
  refine ⟨_, writeStatus_runs v hs, hval.trans hf.val, ?_, fun b => ?_, hc.addr, hc.len, hidx.trans hf.idx, hc.dir, hc.bufs, hc.params,
    fun hm => ⟨_, (s.statusWritten v).draws, ?_, fun hb => (State.statusWritten_writing v hb).closing_wel⟩⟩
  · have hp := (s.statusWritten v).completionWait_prefix s.params.wrsrWait
    rwa [(s.statusWritten_framesSent v).trace, ← List.append_assoc] at hp
  · exact (Dev.read_congr (State.completionWait_mem _ _) b).trans (s.statusWritten_read v b)
  · rw [hm]
    exact State.statusWritten_closing hs v

/-- Settles O27: the two frames, and a wait that keeps the array; in mode none the closing WriteDisable comes at once. -/
theorem eraseBlockErases : Obligations.EraseBlockErases := by
  intro a s hs ha
  have hf := s.blockErased_run a
  have hc := hf.cmdRun.completionWait s.params.eraseWait
  obtain ⟨hidx, hval⟩ := (s.blockErased a).completionWait_idx s.params.eraseWait
  have hread := Dev.read_congr ((s.blockErased a).completionWait_mem s.params.eraseWait)
  refine ⟨_, eraseBlock_runs hs ha, hc.addr, ?_, fun b hn => ?_, fun hb b hin => ?_, hc.len, hval.trans hf.val, hidx.trans hf.idx, hc.dir,
    hc.bufs, hc.params, fun hm => ⟨_, (s.blockErased a).draws, ?_, fun hb => (State.blockErased_writing ha hb).closing_wel⟩⟩
  · have hp := (s.blockErased a).completionWait_prefix s.params.eraseWait
    rwa [(s.blockErased_framesSent a).trace, ← List.append_assoc] at hp
  · exact (hread b).trans (s.blockErased_read_other ha b hn)
  · exact (hread b).trans ((State.blockErased_read ha hb b).trans (if_pos hin))
  · rw [hm]
    exact State.blockErased_closing hs a

/-- Settles O28: both commands begin the same wait behind their frames, and its first poll has three outcomes in each mode. -/
theorem completionWaitFirstPoll : Obligations.CompletionWaitFirstPoll := by
  intro i s frames mode hs hi
  obtain ⟨x, he, hx⟩ : ∃ x, exec i s = .next (x.completionWait mode State.closing) ∧ FramesSent s x i.op frames := by
    obtain ⟨v, rfl, rfl, rfl⟩ | ⟨a, rfl, ha, rfl, rfl⟩ := hi
    · exact ⟨_, writeStatus_runs v hs, s.statusWritten_framesSent v⟩
    · exact ⟨_, eraseBlock_runs hs ha, s.blockErased_framesSent a⟩
  refine ⟨fun hm => ?_, fun hm => ?_⟩ <;> subst hm
  · obtain ⟨r, hr, h⟩ := State.completionWait_status hx.opr
    rw [hx.params, hx.trace] at h
    obtain ⟨hst, hcnt, hph, hcs, hsck, hout⟩ := h
    exact ⟨r, _, he, hst, hcnt, hph, hcs, hsck, fun hd => hr.trans ((hx.dead hd).busy_later 44), hout⟩
  · obtain ⟨b, hb, h⟩ := State.completionWait_raw hx.opr
    rw [hx.params, hx.trace, hx.st] at h
    rw [hx.params] at hb
    obtain ⟨hcnt, hst, hsck, hout⟩ := h
    refine ⟨b, _, he, hcnt, hst, hsck, fun hp hd hl => ?_, hout⟩
    have hn := (hb hp).1 hl
    rw [(hx.dead hd).busy_later 44] at hn
    cases hn

/-- Settles O29: the drawn cycle is over when the wait's first poll is answered, or when the WriteDisable closes. -/
theorem eraseBlockCompletes : Obligations.EraseBlockCompletes := by
  intro a s k hs ha hb hl hk hp
  have hw := State.blockErased_writing ha hb
  rw [hl] at hw
  have hf := s.blockErased_framesSent a
  obtain ⟨d, w, he, hbusy, hwel, hsrx, hmem⟩ :=
    State.completionWait_completes s.params.eraseWait (hw.over hk) (by rwa [hf.params])
  refine ⟨(s.blockErased a).statusNow, d, w, ?_, (State.busyBit_statusNow _).trans (hw.over hk), hbusy, hwel,
    hsrx.trans (s.blockErased_srx ha), fun b => (Dev.read_congr hmem b).trans (State.blockErased_read ha hb b)⟩
  have ⟨ho, _, hi⟩ := hs
  rw [eraseBlock_runs hs ha, he]
  generalize (s.blockErased a).statusNow = r
  rw [State.blockErased_eq]
  simp [ho, hi, State.start]

/-- Settles O30: as O29, for the cycle that the status write begins. -/
theorem writeStatusCompletes : Obligations.WriteStatusCompletes := by
  intro v s k hs hb hl hk hp
  have hw := State.statusWritten_writing v hb
  rw [hl] at hw
  have hf := s.statusWritten_framesSent v
  obtain ⟨d, w, he, hbusy, hwel, -, hmem⟩ :=
    State.completionWait_completes s.params.wrsrWait (hw.over hk) (by rwa [hf.params])
  refine ⟨(s.statusWritten v).statusNow, d, w, ?_, (State.busyBit_statusNow _).trans (hw.over hk), hbusy, hwel,
    fun b => (Dev.read_congr hmem b).trans (s.statusWritten_read v b)⟩
  have ⟨ho, _, hi⟩ := hs
  rw [writeStatus_runs v hs, he]
  generalize (s.statusWritten v).statusNow = r
  rw [State.statusWritten_eq]
  simp [ho, hi, State.start]

/-- Settles O31: the loop with no byte to go is the closing WriteDisable. -/
theorem writeBlockEmpty : Obligations.WriteBlockEmpty := by
  intro a r s hs ha
  have ⟨ho, _, hp⟩ := hs
  rw [writeBlock_runs (n := 0) hs (Nat.zero_le _) (inRange_iff.2 ⟨ha, Nat.le_of_lt ha⟩)]
  show Host.Outcome.next (s.blockStart a r 0).closing = _
  rw [State.closing_eq]
  simp [State.blockStart, State.start, ho, hp]

/-- Settles O32: the three outcomes of the first byte's poll; behind the first, the next byte or the closing WriteDisable. -/
theorem writeBlockFirstByte : Obligations.WriteBlockFirstByte := by
  intro a r n s hs hn hroom ha he
  obtain ⟨k, hk⟩ := Nat.exists_eq_succ_of_ne_zero fun h : n.toNat = 0 => hn (BitVec.eq_of_toNat_eq h)
  have hr := inRange_iff.2 ⟨ha, he⟩
  have hex := writeBlock_runs hs hroom hr
  have hrun := (CmdRun.refl (s.blockStart a r n)).blockLoop n.toNat
  have hfits : (s.blockStart a r n).ByteFits := ha
  have hsent := s.blockStart_byteSent_trace a r n
  have hpre := State.blockLoop_byte_prefix hfits k
  rw [← State.byteSent_trace] at hpre
  have hloop := State.blockLoop_byte hfits k
  rw [State.blockStart_params] at hloop
  obtain ⟨hph, hcs, hsck⟩ := State.blockLoop_busIdle hfits k (Nat.le_of_eq ((Nat.zero_add _).trans hk.symm))
  rw [hk] at hex hrun
  refine ⟨(s.blockStart a r n).byteStatus, _, _, hsent, hex, hpre, hrun.addr, hrun.len, hph, hcs, hsck,
    fun hd => State.byteStatus_dead (s := s.blockStart a r n) hd, State.blockLoop_busy hfits k, fun hx hl => ?_, fun hx hl => ?_,
    fun hx h1 => ?_, fun hx h1 => ?_⟩
  · rw [hloop, if_neg (by rw [hx]; decide), if_pos hl]
    exact ⟨rfl, rfl⟩
  · rw [hloop, if_neg (by rw [hx]; decide), if_neg hl, State.byteSent_eq]
    exact ⟨rfl, rfl⟩
  · obtain rfl : k = 0 := by
      rw [h1] at hk
      simpa using hk.symm
    exact State.blockLoop_last hfits hx
  · obtain ⟨j, rfl⟩ := Nat.exists_eq_succ_of_ne_zero fun h : k = 0 => h1 (BitVec.eq_of_toNat_eq (by rw [hk, h]; rfl))
    exact State.blockLoop_goesOn hfits hx hr (by show 0 + 1 + (j + 1) ≤ n.toNat; omega)

/-- Settles O33: the loop on a device that is ready at each poll. -/
theorem writeBlockProgramsAll : Obligations.WriteBlockProgramsAll := by
  intro a r n s ls more hs hb hn hroom ha he hl hlen hk
  obtain ⟨rs, hrs, hbits, h⟩ := State.blockLoop_done n.toNat (s.blockStart a r n) ls more hb (by simpa [State.blockStart] using he)
    (by simpa [State.blockStart] using n.isLt) hl hlen hk
  have hne : rs ≠ [] := fun e => hn (BitVec.eq_of_toNat_eq (by rw [← hrs, e]; rfl))
  have hidx : (State.blockLoop n.toNat (s.blockStart a r n)).idx = n :=
    BitVec.eq_of_toNat_eq (h.idx.trans (by simp [State.blockStart, hrs]))
  have hread := h.read
  rw [hrs] at hread
  refine ⟨rs, _, (State.blockLoop n.toNat (s.blockStart a r n)).draws, hrs, hbits, ?_, h.busy, h.wel, h.srx, hread⟩
  have ⟨ho, _, hp⟩ := hs
  have e := h.eq hne
  rw [hidx, blockEvents_eq, hrs] at e
  rw [writeBlock_runs hs hroom (inRange_iff.2 ⟨ha, he⟩)]
  generalize (State.blockLoop n.toNat (s.blockStart a r n)).dev = d at *
  generalize (State.blockLoop n.toNat (s.blockStart a r n)).draws = w at *
  rw [e]
  simp [State.blockStart, State.start, ho, hp, blockByteEvents, programEvents]

/-- Settles O34: the loop, begun or gone on, reaches its own range alone, and lets go of the buffer when it ends. -/
theorem writeBlockFrame : Obligations.WriteBlockFrame := by
  refine ⟨fun a r n s t h => ?_, fun s t ho hr h => ?_⟩
  · obtain ⟨-, rfl⟩ := runUnless_next h
    split
    · rename_i hr
      have hrun := (CmdRun.refl (s.blockStart a r n)).blockLoop n.toNat
      exact ⟨hrun.bufs, hrun.dir, hrun.params, hrun.commands, hrun.addr, hrun.len,
        State.blockLoop_holds n.toNat (s.blockStart a r n) rfl, fun b hb =>
        State.blockLoop_read_other n.toNat (s.blockStart a r n) hr (.inr (by simp [State.blockStart])) hb⟩
    · exact ⟨rfl, rfl, rfl, rfl, rfl, rfl, rfl, fun _ _ => rfl⟩
  · have hrun := resume_cmdRun (step_running ho ▸ h)
    rw [step_statusWait ho (.inr (.inr rfl)), if_pos rfl] at h
    cases h
    have hpoll := s.statusPoll_cmdRun
    have href := s.statusPoll_bufRef
    have hopr := s.statusPoll_opr.trans ho
    have hread := fun b => Dev.read_congr s.statusPoll_mem b
    refine ⟨hrun.bufs, hrun.dir, hrun.params, hrun.commands, hrun.addr, hrun.len, ?_, fun b hb => ?_⟩
    all_goals generalize s.statusPoll = p at *
    · rw [← href]
      exact afterPoll_of (P := (State.Holds · p.2.bufRef)) (State.blockGoesOn_holds hopr) (State.finish_holds _ _ _ _)
        (State.holds_of_running hopr)
    · have hgo : p.2.blockGoesOn.dev.read b = p.2.dev.read b :=
        State.blockGoesOn_read_other (by rw [hpoll.addr, hpoll.len]; exact hr) (by rw [hpoll.addr, hpoll.len]; exact hb)
      exact afterPoll_of (P := fun t => t.dev.read b = s.dev.read b) (hgo.trans (hread b)) (hread b) (hread b)

/-- Settles O35: the three outcomes of a status poll; behind the first, with no byte left, the closing WriteDisable. -/
theorem statusPollGoesOn : Obligations.StatusPollGoesOn := by
  intro op s ho hm
  have hs := step_statusWait ho hm
  rw [afterPoll_statusPoll] at hs
  have hbit : s.statusNow.getLsbD 0 = (s.dev.ticks 44).busy := s.busyBit_statusNow
  refine ⟨s.statusNow, hbit, fun hr hl => ?_, fun hr hl => ?_, fun hr hl => ?_⟩
  · rw [hs, if_neg (by rw [← hbit, hr]; decide), if_pos (limitReached_iff.2 hl), s.statusSample_eq]
    rfl
  · rw [hs, if_neg (by rw [← hbit, hr]; decide), if_neg, s.statusSample_eq]
    rw [limitReached_iff]
    rintro ⟨l, he, hle⟩
    exact absurd (hl l he) (Nat.not_lt.2 hle)
  · have hb := hbit.symm.trans hr
    obtain ⟨u, hu⟩ : ∃ u : State, u = { s.statusSample with idx := if op = .writeBlock then s.idx + 1 else s.idx } := ⟨_, rfl⟩
    have hstep : step s = .next u.closing := by
      obtain ⟨-, hidx, -⟩ := s.statusSample_keeps
      rw [hs, if_pos hb, hu, ← hidx]
      by_cases hop : op = .writeBlock
      · rw [if_pos hop, if_pos hop, s.statusSample_blockGoesOn, hl hop, Nat.sub_self]
        rfl
      · rw [if_neg hop, if_neg hop]
    obtain ⟨hwel, hbusy, hmem, hsrx⟩ := State.closing_ready hb (t := u) (by rw [hu])
    refine ⟨u.closing.dev, ?_, hwel, hbusy, hmem, hsrx⟩
    rw [hstep, u.closing_answers]
    generalize u.closing.dev = d
    rw [hu, s.statusSample_eq]

/-- Settles O36: the poll shows ready, and the loop goes on with the next byte. -/
theorem writeBlockNextByte : Obligations.WriteBlockNextByte := by
  intro s ho hb hr hi
  obtain ⟨hkeep, hidx, href⟩ := s.statusSample_keeps
  obtain ⟨k, hk⟩ := Nat.exists_eq_succ_of_ne_zero (n := s.len.toNat - (s.idx.toNat + 1)) (by omega)
  have hstep : step s = .next (State.blockLoop (k + 1) s.statusSample.nextByte) := by
    rw [step_statusWait ho (.inr (.inr rfl)), if_pos rfl, afterPoll_statusPoll, if_pos hb, State.statusSample_blockGoesOn, hk]
  have htr : s.statusSample.trace = s.trace ++ statusFrameEvents s.params s.statusNow := by rw [s.statusSample_answers]
  obtain ⟨hp, hge, hle⟩ := State.blockLoop_nextByte (k := k) s.statusSample_busIdle (by rw [hkeep.addr, hkeep.len]; exact hr)
    (by rw [hidx, hkeep.len]; omega)
  rw [htr, hidx, hkeep.addr, hkeep.bufs, href, hkeep.params] at hp
  rw [hidx] at hge
  rw [hkeep.len] at hle
  exact ⟨s.statusNow, _, s.busyBit_statusNow.trans hb, hstep, hp, hge, hle⟩

end Sys2Proof.Machine
end

section
/-! PROOFS. The two faults (60_exceptions.md). The main lemmas: which ends of a command are no range fault
(`exec_faultless_or`, `resume_faultless`), and a status wait on a dead device, one poll a step (`step_dead`, `run_dead`). -/

namespace Sys2Proof.Machine

/-! ### The range check fails (60_exceptions.md R211) -/

theorem inRange_not_iff {a : Addr} {n : Nat} :
    ¬ inRange a n = true ↔ Config.flashSize ≤ a.toNat ∨ Config.flashSize < a.toNat + n := by
  rw [inRange_iff]
  omega

theorem inRange_one_not_iff {a : Addr} : ¬ inRange a 1 = true ↔ Config.flashSize ≤ a.toNat := by
  rw [inRange_not_iff]
  omega

/-- The fault leaves what the command took of its operands, and nothing else is written but the result. -/
theorem State.raise_taken {s t : State} (ho : s.opr = none)
    (ht : t = { s with opr := t.opr, addr := t.addr, len := t.len, val := t.val, bufRef := t.bufRef }) (e : Err) :
    t.raise e = { s with addr := t.addr, len := t.len, val := t.val, bufRef := none, err := e, ret := none } := by
  rw [ht]
  simp [State.raise, State.finish, ho]

section
variable {a : Addr} {n : Len} {r : BufRef} {s : State} (hs : s.Accepts)
include hs

theorem readBlock_faults (hn : n.toNat ≤ bufferRoom s.bufs r) (hr : ¬ inRange a n.toNat = true) :
    exec (.readBlock a n r) s = .next { s with addr := a, len := n, bufRef := none, err := .invalidArgument, ret := none } := by
  obtain ⟨hb, -, -⟩ := blockBuffer_room (a := a) hn
  simp only [exec, execReadBlock, blockCommand_accepts hs, hb, Option.none_or, runUnless, if_neg hr]
  exact congrArg Host.Outcome.next (State.raise_taken hs.1 rfl _)

theorem writeBlock_faults (hn : n.toNat ≤ bufferRoom s.bufs r) (hr : ¬ inRange a n.toNat = true) :
    exec (.writeBlock a r n) s = .next { s with addr := a, len := n, bufRef := none, err := .invalidArgument, ret := none } := by
  obtain ⟨-, hb, -⟩ := blockBuffer_room (a := a) hn
  simp only [exec, execWriteBlock, blockCommand_accepts hs, hb, Option.none_or, runUnless, if_neg hr]
  exact congrArg Host.Outcome.next (State.raise_taken hs.1 rfl _)

theorem writeByte_faults (v : Byte) (hr : ¬ inRange a 1 = true) :
    exec (.writeByte a v) s = .next { s with addr := a, val := v, bufRef := none, err := .invalidArgument, ret := none } := by
  simp only [exec, execWriteByte, blockCommand_accepts hs, runUnless, if_neg hr]
  exact congrArg Host.Outcome.next (State.raise_taken hs.1 rfl _)

theorem eraseBlock_faults (hr : ¬ inRange a 1 = true) :
    exec (.eraseBlock a) s = .next { s with addr := a, bufRef := none, err := .invalidArgument, ret := none } := by
  simp only [exec, execEraseBlock, blockCommand_accepts hs, runUnless, if_neg hr]
  exact congrArg Host.Outcome.next (State.raise_taken hs.1 rfl _)

end

/-! ### What else ends a command, ends it with no range fault (60_exceptions.md R211) -/

/-- No command has ended here with InvalidArgument: one runs, or the last ended otherwise. -/
def State.Faultless (s : State) : Prop := s.opr = none → s.err ≠ .invalidArgument

theorem State.faultless_of_running {s : State} {op : Op} (ho : s.opr = some op) : s.Faultless := by
  intro h
  rw [ho] at h
  cases h

theorem State.finish_faultless (s : State) {e : Err} (he : e ≠ .invalidArgument) (r : Option Byte) : (s.finish e r).Faultless :=
  fun _ => he

theorem State.closing_faultless (s : State) : s.closing.Faultless := State.finish_faultless _ (by decide) _

theorem afterPoll_faultless {rest : State → State} {p : Poll × State} {op : Op} (ho : p.2.opr = some op)
    (hr : (rest p.2).Faultless) : (afterPoll rest p).Faultless :=
  afterPoll_of hr (State.finish_faultless _ (by decide) _) (State.faultless_of_running ho)

theorem State.completionWait_faultless {s : State} {op : Op} (ho : s.opr = some op) (mode : WaitMode) :
    (s.completionWait mode State.closing).Faultless := by
  cases mode with
  | none => exact s.closing_faultless
  | waitUntilReady =>
    exact afterPoll_faultless ((State.rawPoll_opr _).trans (s.openRawPoll_opr.trans ho)) (State.closing_faultless _)
  | pollStatus => exact afterPoll_faultless (s.startPolls.statusPoll_opr.trans ho) (State.closing_faultless _)

theorem State.continueWait_faultless {s : State} {op : Op} (ho : s.opr = some op) (mode : WaitMode) :
    (s.continueWait mode State.closing).Faultless := by
  cases mode with
  | none => exact s.closing_faultless
  | waitUntilReady => exact afterPoll_faultless (s.rawPoll_opr.trans ho) (State.closing_faultless _)
  | pollStatus => exact afterPoll_faultless (s.statusPoll_opr.trans ho) (State.closing_faultless _)

/-- The check that WriteBlock makes for each byte passes inside a range that has passed (30_encoding.md R113). -/
theorem State.blockLoop_faultless {op : Op} (k : Nat) : ∀ s : State, s.opr = some op → inRange s.addr s.len.toNat = true →
    (k = 0 ∨ s.idx.toNat + k ≤ s.len.toNat) → (State.blockLoop k s).Faultless := by
  induction k with
  | zero => exact fun s _ _ _ => s.closing_faultless
  | succ k ih =>
    intro s ho hr hk
    have hlen := s.len.isLt
    have hfits : s.ByteFits := by
      obtain ⟨-, hend⟩ := inRange_iff.1 hr
      rw [State.ByteFits]
      omega
    have hp : s.blockByte.statusPoll.2.opr = some op := by rw [State.statusPoll_opr, s.blockByte_eq]; exact ho
    obtain ⟨hrun, hidx, -⟩ := s.blockStep_keeps
    rw [State.blockLoop, if_pos hfits.inRange]
    generalize s.blockByte.statusPoll = p at *
    refine afterPoll_faultless hp (ih p.2.nextByte hp (by rw [State.nextByte_addr, State.nextByte_len, hrun.addr, hrun.len]; exact hr)
      (.inr ?_))
    rw [State.nextByte_idx, State.nextByte_len, hidx, hrun.len, len_succ_toNat (by omega)]
    omega

theorem State.blockGoesOn_faultless {s : State} {op : Op} (ho : s.opr = some op) (hr : inRange s.addr s.len.toNat = true) :
    s.blockGoesOn.Faultless := by
  have hlen := s.len.isLt
  refine State.blockLoop_faultless _ s.nextByte ho hr ?_
  by_cases hi : s.idx.toNat + 1 < s.len.toNat
  · exact .inr (by rw [State.nextByte_idx, State.nextByte_len, len_succ_toNat (by omega)]; omega)
  · exact .inl (by omega)

/-- A command that waits, WriteBlock's range being valid, never ends with InvalidArgument. -/
theorem resume_faultless {op : Op} {s t : State} (ho : s.opr = some op) (hr : inRange s.addr s.len.toNat = true ∨ op ≠ .writeBlock)
    (h : s.resume op = .next t) : t.Faultless := by
  cases op <;> simp only [State.resume, Host.Outcome.next.injEq, reduceCtorEq] at h <;> subst h
  case waitUntilReady =>
    exact afterPoll_faultless (rest := State.waitDone) (s.rawPoll_opr.trans ho) (State.finish_faultless _ (by decide) _)
  case writeStatus => exact State.continueWait_faultless ho _
  case eraseBlock => exact State.continueWait_faultless ho _
  case writeBlock =>
    have hrun := s.statusPoll_cmdRun
    have hp := s.statusPoll_opr.trans ho
    refine afterPoll_faultless hp (State.blockGoesOn_faultless hp ?_)
    rw [hrun.addr, hrun.len]
    exact hr.resolve_right fun hn => hn rfl

/-- The operands that CheckRange refuses; the other instructions have no address (42_data_commands.md R172). -/
def RangeFails : Instr → Prop
  | .readBlock a n _ | .writeBlock a _ n => ¬ inRange a n.toNat = true
  | .writeByte a _ | .eraseBlock a => ¬ inRange a 1 = true
  | _ => False

/-- An instruction ends with InvalidArgument only when CheckRange refuses its operands. -/
theorem exec_faultless_or {i : Instr} {s t : State} (h : exec i s = .next t) : t.Faultless ∨ RangeFails i := by
  cases i with
  | select | deselect | sendByte | receiveByte | init | disable | readStatus | writeEnable | writeDisable =>
    obtain ⟨-, rfl⟩ := runUnless_next h
    exact .inl (State.finish_faultless _ (by decide) _)
  | receiveBytes n r =>
    simp only [exec, execReceiveBytes] at h
    split at h <;> (obtain ⟨-, rfl⟩ := runUnless_next h; exact .inl (State.finish_faultless _ (by decide) _))
  | waitUntilReady =>
    obtain ⟨-, rfl⟩ := runUnless_next h
    exact .inl (afterPoll_faultless (rest := State.waitDone) ((State.rawPoll_opr _).trans (State.openRawPoll_opr _))
      (State.finish_faultless _ (by decide) _))
  | writeStatus v =>
    obtain ⟨-, rfl⟩ := runUnless_next h
    exact .inl (State.completionWait_faultless (s.statusWritten_framesSent v).opr _)
  | readBlock | writeByte =>
    obtain ⟨-, rfl⟩ := runUnless_next h
    split
    · exact .inl (State.finish_faultless _ (by decide) _)
    · next hr => exact .inr hr
  | eraseBlock a =>
    obtain ⟨-, rfl⟩ := runUnless_next h
    split
    · exact .inl (State.completionWait_faultless (s.blockErased_framesSent a).opr _)
    · next hr => exact .inr hr
  | writeBlock a r n =>
    obtain ⟨-, rfl⟩ := runUnless_next h
    split
    · next hr =>
      exact .inl (State.blockLoop_faultless n.toNat (s.blockStart a r n) rfl hr (.inr (by simp [State.blockStart])))
    · next hr => exact .inr hr

/-! ### A status wait on a dead device (60_exceptions.md R212, R213) -/

/-- The operation waits by status polls (43_composite_commands.md R192 to R194). -/
def StatusWaits (p : Params) (op : Op) : Prop :=
  (op = .writeStatus ∧ p.wrsrWait = .pollStatus) ∨ (op = .eraseBlock ∧ p.eraseWait = .pollStatus) ∨ op = .writeBlock

/-- `t` is `s` after `n` more status polls of a device that stays dead (20_memory.md R84). -/
structure PolledDead (s t : State) (n : Nat) : Prop where
  opr : t.opr = s.opr
  params : t.params = s.params
  idx : t.idx = s.idx
  pollcnt : t.pollcnt = s.pollcnt + n
  length : t.trace.length = s.trace.length + 86 * n
  dead : t.dev.Dead
  mem : t.dev.mem = s.dev.mem
  wel : t.dev.wel = s.dev.wel

theorem PolledDead.refl {s : State} (hd : s.dev.Dead) : PolledDead s s 0 := ⟨rfl, rfl, rfl, rfl, rfl, hd, rfl, rfl⟩

theorem PolledDead.trans {s t u : State} {m n : Nat} (h : PolledDead s t m) (k : PolledDead t u n) : PolledDead s u (m + n) where
  opr := k.opr.trans h.opr
  params := k.params.trans h.params
  idx := k.idx.trans h.idx
  pollcnt := by rw [k.pollcnt, h.pollcnt, Nat.add_assoc]
  length := by rw [k.length, h.length, Nat.add_assoc, ← Nat.mul_add]
  dead := k.dead
  mem := k.mem.trans h.mem
  wel := k.wel.trans h.wel

theorem PolledDead.waits {s t : State} {n : Nat} {op : Op} (h : PolledDead s t n) (hw : StatusWaits s.params op) :
    StatusWaits t.params op := by
  rw [h.params]
  exact hw

/-- One poll: 86 events, and a dead device stands still. -/
theorem State.statusSample_polledDead {s : State} (hd : s.dev.Dead) : PolledDead s s.statusSample 1 := by
  rw [s.statusSample_eq, Dev.ticks_dead hd, Dev.ticks_dead hd]
  exact ⟨rfl, rfl, rfl, rfl, by simp [statusFrameEvents_length], hd, rfl, rfl⟩

section
variable {op : Op} {s : State} (ho : s.opr = some op) (hw : StatusWaits s.params op) (hd : s.dev.Dead)
include ho hw hd

/-- A step of the wait is one poll, and the limit alone ends it. -/
theorem step_dead :
    step s = .next (if limitReached s.params (s.pollcnt + 1) then s.statusSample.raise .deviceTimeout else s.statusSample) := by
  rw [step_statusWait ho hw, afterPoll_statusPoll, if_neg (by rw [hd.busy_later]; decide)]

/-- With polls left behind the next `n`, so many steps are so many polls, and the command still waits. -/
theorem run_dead (n : Nat) (hl : ∀ l, s.params.pollLimit = some l → s.pollcnt + n < l) :
    ∃ t, core.run n s = .next t ∧ PolledDead s t n := by
  induction n generalizing s with
  | zero => exact ⟨s, rfl, PolledDead.refl hd⟩
  | succ n ih =>
    have h := State.statusSample_polledDead hd
    have hstep : step s = .next s.statusSample := by
      rw [step_dead ho hw hd, if_neg]
      rw [limitReached_iff]
      rintro ⟨l, he, hle⟩
      have := hl l he
      omega
    obtain ⟨t, hrun, ht⟩ := ih (h.opr.trans ho) (h.waits hw) h.dead (by
      rw [h.params, h.pollcnt]
      intro l he
      have := hl l he
      omega)
    exact ⟨t, core_run_next n hstep hrun, Nat.add_comm 1 n ▸ h.trans ht⟩

end

/-- A run, one step longer at its end. -/
theorem Host_run_succ (M : Host.Core) {t u : M.State} (ht : M.step t = .next u) (n : Nat) :
    ∀ s : M.State, M.run n s = .next t → M.run (n + 1) s = .next u := by
  induction n with
  | zero =>
    intro s h
    cases h
    exact Host_run_next M 0 ht
  | succ n ih =>
    intro s h
    cases hs : M.step s with
    | next v =>
      rw [Host_run_next M _ hs] at h ⊢
      exact ih v h
    | fault | refused =>
      simp only [Host.Core.run, hs] at h
      cases h

/-! ### The statements -/

/-- Settles O21: the four faults exactly; every other end of a command, and of a wait, is faultless. -/
theorem rangeFaults : Obligations.RangeFaults := by
  refine ⟨fun a s hs => ⟨fun n r hn ha => ?_, fun ha => ?_⟩, fun i s t h ho he => ?_, fun op s t ho hr h => ?_⟩
  · have hr := inRange_not_iff.2 ha
    exact ⟨readBlock_faults hs hn hr, writeBlock_faults hs hn hr⟩
  · have hr := inRange_one_not_iff.2 ha
    exact ⟨fun v => writeByte_faults hs v hr, eraseBlock_faults hs hr⟩
  · have hf := (exec_faultless_or h).resolve_left fun hn => hn ho he
    cases i with
    | readBlock a n r => exact .inl ⟨a, n, r, .inl rfl, inRange_not_iff.1 hf⟩
    | writeBlock a r n => exact .inl ⟨a, n, r, .inr rfl, inRange_not_iff.1 hf⟩
    | writeByte a v => exact .inr ⟨a, .inl ⟨v, rfl⟩, inRange_one_not_iff.1 hf⟩
    | eraseBlock a => exact .inr ⟨a, .inr rfl, inRange_one_not_iff.1 hf⟩
    | _ => exact hf.elim
  · exact resume_faultless ho hr (step_running ho ▸ h)

/-- Settles O38: without a limit there are always polls left. -/
theorem deadDeviceHangs : Obligations.DeadDeviceHangs := by
  intro op s ho hw hl hd n
  obtain ⟨t, hrun, ht⟩ := run_dead ho hw hd n (by simp [hl])
  exact ⟨t, hrun, ht.opr.trans ho, ht.pollcnt, ht.length⟩

/-- Settles O39: all polls but the last leave the command waiting, and the last reaches the limit. -/
theorem deadDeviceTimesOut : Obligations.DeadDeviceTimesOut := by
  intro op s l ho hw hl hlt hd
  obtain ⟨n, hn⟩ := Nat.exists_eq_succ_of_ne_zero (n := l - s.pollcnt) (by omega)
  obtain ⟨t, hrun, ht⟩ := run_dead ho hw hd n (by
    intro m he
    rw [hl] at he
    cases he
    omega)
  have hlast : step t = .next (t.statusSample.raise .deviceTimeout) := by
    rw [step_dead (ht.opr.trans ho) (ht.waits hw) ht.dead, if_pos]
    exact limitReached_iff.2 ⟨l, by rw [ht.params]; exact hl, by rw [ht.pollcnt]; omega⟩
  have h := ht.trans (State.statusSample_polledDead ht.dead)
  obtain ⟨hph, hcs, hsck⟩ := t.statusSample_busIdle
  rw [hn]
  generalize t.statusSample = u at *
  exact ⟨_, Host_run_succ core hlast n s hrun, rfl, rfl, hph, hcs, hsck, h.pollcnt.trans (by omega), h.idx, h.length, h.mem, h.wel⟩

end Sys2Proof.Machine
end

section
/-! PROOFS. What is refused at the boundary (70_reset_and_hazards.md). The main lemmas: which check stops an instruction on a released
bus (`blockFor_released`) and with a frame open (`blockFor_frameOpen`), and what a short buffer makes of each command that names one. -/

namespace Sys2Proof.Machine

/-! ### The check that stops an instruction (70_reset_and_hazards.md R242, R246) -/

/-- On a released bus the first check of every instruction but `init` fails (R242). -/
theorem blockFor_released {i : Instr} {s : State} (hi : i ≠ .init) (ho : s.opr = none) (hd : s.dir = .released) :
    s.blockFor i = some .busReleased := by
  obtain ⟨hc, hf⟩ := blockCommand_released ho hd
  cases i with
  | init => exact absurd rfl hi
  | deselect | sendByte | receiveByte | receiveBytes => exact hf
  | _ => exact hc

/-- With a frame open the first check of what is no primitive inside a frame fails (R246). -/
theorem blockFor_frameOpen {i : Instr} {s : State} (ho : s.opr = none) (hd : s.dir = .master) (hp : s.ph ≠ .idle)
    (h1 : ∀ v, i ≠ .sendByte v) (h2 : i ≠ .deselect) (h3 : i ≠ .receiveByte) (h4 : ∀ n r, i ≠ .receiveBytes n r) :
    s.blockFor i = some .frameOpen := by
  obtain ⟨hc, hi⟩ := block_frameOpen ho hd hp
  cases i with
  | sendByte v => exact absurd rfl (h1 v)
  | deselect => exact absurd rfl h2
  | receiveByte => exact absurd rfl h3
  | receiveBytes n r => exact absurd rfl (h4 n r)
  | init => exact hi
  | _ => exact hc

/-! ### A buffer that is too short (70_reset_and_hazards.md R251) -/

section
variable {n : Len} {r : BufRef} {s : State} (hroom : bufferRoom s.bufs r < n.toNat)
include hroom

theorem readBlock_short (a : Addr) (hs : s.Accepts) : exec (.readBlock a n r) s = .refused .bufferTooShort := by
  obtain ⟨hb, -, -⟩ := blockBuffer_short (a := a) hroom
  simp only [exec, execReadBlock, blockCommand_accepts hs, hb, Option.none_or, runUnless]

theorem writeBlock_short (a : Addr) (hs : s.Accepts) : exec (.writeBlock a r n) s = .refused .bufferTooShort := by
  obtain ⟨-, hb, -⟩ := blockBuffer_short (a := a) hroom
  simp only [exec, execWriteBlock, blockCommand_accepts hs, hb, Option.none_or, runUnless]

/-- The check for a sent byte comes before that of the buffer, so a byte of the frame has been sent. A count of 0 is never short. -/
theorem receiveBytes_short (hs : s.InFrame) (hp : s.ph ≠ .selected) : exec (.receiveBytes n r) s = .refused .bufferTooShort := by
  have hn : n ≠ 0 := by
    rintro rfl
    exact Nat.not_lt_zero _ hroom
  obtain ⟨hf, hc⟩ := blockInFrame_inFrame hs
  obtain ⟨-, -, hb⟩ := blockBuffer_short (a := 0) hroom
  simp only [exec, execReceiveBytes, if_neg hn, hf, hc, blockEmpty_behind hp, hb, Option.none_or, Option.some_or, runUnless]

end

/-! ### The statements -/

/-- Settles O5: a running command refuses every instruction (R36), a released bus every one but `init`, which O3 runs. -/
theorem releasedRefuses : Obligations.ReleasedRefuses := by
  refine fun s hd => ⟨fun i hi => ?_, fun ho hp => ⟨_, initTakesBus s ho hp, rfl⟩⟩
  obtain ho | ⟨op, ho⟩ := Option.eq_none_or_eq_some s.opr
  · exact ⟨_, exec_blocked (blockFor_released hi ho hd), fun _ => rfl⟩
  · exact ⟨_, exec_blocked (block_of_running ho), fun hn => absurd (ho.symm.trans hn) (by simp)⟩

/-- Settles O14: the first check of the instruction names the open frame. -/
theorem frameOpenRefuses : Obligations.FrameOpenRefuses :=
  fun _ _ ho hd hp h1 h2 h3 h4 => exec_blocked (blockFor_frameOpen ho hd hp h1 h2 h3 h4)

/-- Settles O15: each of the three commands passes its earlier checks and is stopped by that of its buffer. -/
theorem shortBufferRefused : Obligations.ShortBufferRefused :=
  fun a _ _ _ hroom => ⟨fun hs => ⟨readBlock_short hroom a hs, writeBlock_short hroom a hs⟩, receiveBytes_short hroom⟩

end Sys2Proof.Machine
end
